-- ==== Sys2Proof/Word.lean ====
section
/-! DEFINITION. The widths the spec gives its words (00_scope.md R5, R8): 8-bit registers and memory bytes,
16-bit PC, I, stack entries and instruction words. Every value is unsigned. -/

namespace Sys2Proof

/-- A byte: a general register, a timer, a memory cell (10_state.md R21, R28; 20_memory.md R50). -/
abbrev Byte := BitVec 8

/-- A 16-bit byte address or register value: PC, I, a stack entry (10_state.md R24, R25, R26). -/
abbrev Addr := BitVec 16

/-- A 16-bit instruction word (30_encoding.md R70). -/
abbrev Word := BitVec 16

/-- The index 0x0 to 0xF of a general register, or of a key (10_state.md R21, R30). -/
abbrev Reg := Fin 16

end Sys2Proof
end

