-- ==== Sys2Proof/Syntax.lean ====
section
/-! DEFINITION. The instructions: one constructor per row of spec/opcode_table.json (30_encoding.md R74). Each
operand's type is exactly the width of its field (R71), so no term of `Instr` is out of range. -/

namespace Sys2Proof

/-- The 34 instructions. `x` and `y` select registers, `nn` and `nnn` are immediates, `n` is the sprite height. -/
inductive Instr where
  /-- 00E0 CLS (41_display.md R112) -/
  | cls
  /-- 00EE RET (42_control_flow.md R130) -/
  | ret
  /-- 1NNN JP nnn (R131) -/
  | jp (nnn : BitVec 12)
  /-- 2NNN CALL nnn (R132) -/
  | call (nnn : BitVec 12)
  /-- 3XNN SE Vx, nn (R133) -/
  | seVxNn (x : Reg) (nn : Byte)
  /-- 4XNN SNE Vx, nn (R134) -/
  | sneVxNn (x : Reg) (nn : Byte)
  /-- 5XY0 SE Vx, Vy (R135) -/
  | seVxVy (x y : Reg)
  /-- 6XNN LD Vx, nn (43_alu.md R152) -/
  | ldVxNn (x : Reg) (nn : Byte)
  /-- 7XNN ADD Vx, nn (R153) -/
  | addVxNn (x : Reg) (nn : Byte)
  /-- 8XY0 LD Vx, Vy (R154) -/
  | ldVxVy (x y : Reg)
  /-- 8XY1 OR Vx, Vy (R155) -/
  | orVxVy (x y : Reg)
  /-- 8XY2 AND Vx, Vy (R156) -/
  | andVxVy (x y : Reg)
  /-- 8XY3 XOR Vx, Vy (R157) -/
  | xorVxVy (x y : Reg)
  /-- 8XY4 ADD Vx, Vy (R158) -/
  | addVxVy (x y : Reg)
  /-- 8XY5 SUB Vx, Vy (R159) -/
  | sub (x y : Reg)
  /-- 8XY6 SHR Vx (R160); Y is encoded and ignored (30_encoding.md R78, assumption 12) -/
  | shr (x y : Reg)
  /-- 8XY7 SUBN Vx, Vy (R161) -/
  | subn (x y : Reg)
  /-- 8XYE SHL Vx (R162); Y is encoded and ignored (30_encoding.md R78, assumption 12) -/
  | shl (x y : Reg)
  /-- 9XY0 SNE Vx, Vy (42_control_flow.md R136) -/
  | sneVxVy (x y : Reg)
  /-- ANNN LD I, nnn (44_index_memory.md R180) -/
  | ldINnn (nnn : BitVec 12)
  /-- BNNN JP V0, nnn (42_control_flow.md R137) -/
  | jpV0Nnn (nnn : BitVec 12)
  /-- CXNN RND Vx, nn (43_alu.md R163) -/
  | rnd (x : Reg) (nn : Byte)
  /-- DXYN DRW Vx, Vy, n (41_display.md R113) -/
  | drw (x y : Reg) (n : BitVec 4)
  /-- EX9E SKP Vx (45_input.md R201) -/
  | skp (x : Reg)
  /-- EXA1 SKNP Vx (R202) -/
  | sknp (x : Reg)
  /-- FX07 LD Vx, DT (46_timers.md R210) -/
  | ldVxDt (x : Reg)
  /-- FX0A LD Vx, K (45_input.md R203) -/
  | ldVxK (x : Reg)
  /-- FX15 LD DT, Vx (46_timers.md R211) -/
  | ldDtVx (x : Reg)
  /-- FX18 LD ST, Vx (R212) -/
  | ldStVx (x : Reg)
  /-- FX1E ADD I, Vx (44_index_memory.md R181) -/
  | addIVx (x : Reg)
  /-- FX29 LD F, Vx (R182) -/
  | ldFVx (x : Reg)
  /-- FX33 LD B, Vx (R183) -/
  | ldBVx (x : Reg)
  /-- FX55 LD [I], Vx (R184) -/
  | ldMiVx (x : Reg)
  /-- FX65 LD Vx, [I] (R185) -/
  | ldVxMi (x : Reg)
  deriving DecidableEq, Repr

end Sys2Proof
end

