-- ==== Sys2Proof/WellFormed.lean ====
section
/-! DEFINITION. Which words are well formed, from the opcode map of 30_encoding.md R74. A term of `Instr` is always
well formed (its operands have their fields' widths); what can be ill formed is a WORD: one that matches no row of the
map is unsupported (R77). -/

namespace Sys2Proof

/-- A row of the opcode map: the word `w` is this instruction when `w &&& mask = pattern` (R74). -/
structure Row where
  mnemonic : String
  pattern : Word
  mask : Word
  deriving DecidableEq, Repr

/-- R74's test of a word against a row. -/
def Row.covers (r : Row) (w : Word) : Bool := w &&& r.mask == r.pattern

/-- The row of R74 that each instruction stands for. -/
def Instr.row : Instr → Row
  | .cls => ⟨"CLS", 0x00E0#16, 0xFFFF#16⟩
  | .ret => ⟨"RET", 0x00EE#16, 0xFFFF#16⟩
  | .jp _ => ⟨"JP", 0x1000#16, 0xF000#16⟩
  | .call _ => ⟨"CALL", 0x2000#16, 0xF000#16⟩
  | .seVxNn _ _ => ⟨"SE_VX_NN", 0x3000#16, 0xF000#16⟩
  | .sneVxNn _ _ => ⟨"SNE_VX_NN", 0x4000#16, 0xF000#16⟩
  | .seVxVy _ _ => ⟨"SE_VX_VY", 0x5000#16, 0xF00F#16⟩
  | .ldVxNn _ _ => ⟨"LD_VX_NN", 0x6000#16, 0xF000#16⟩
  | .addVxNn _ _ => ⟨"ADD_VX_NN", 0x7000#16, 0xF000#16⟩
  | .ldVxVy _ _ => ⟨"LD_VX_VY", 0x8000#16, 0xF00F#16⟩
  | .orVxVy _ _ => ⟨"OR", 0x8001#16, 0xF00F#16⟩
  | .andVxVy _ _ => ⟨"AND", 0x8002#16, 0xF00F#16⟩
  | .xorVxVy _ _ => ⟨"XOR", 0x8003#16, 0xF00F#16⟩
  | .addVxVy _ _ => ⟨"ADD_VX_VY", 0x8004#16, 0xF00F#16⟩
  | .sub _ _ => ⟨"SUB", 0x8005#16, 0xF00F#16⟩
  | .shr _ _ => ⟨"SHR", 0x8006#16, 0xF00F#16⟩
  | .subn _ _ => ⟨"SUBN", 0x8007#16, 0xF00F#16⟩
  | .shl _ _ => ⟨"SHL", 0x800E#16, 0xF00F#16⟩
  | .sneVxVy _ _ => ⟨"SNE_VX_VY", 0x9000#16, 0xF00F#16⟩
  | .ldINnn _ => ⟨"LD_I_NNN", 0xA000#16, 0xF000#16⟩
  | .jpV0Nnn _ => ⟨"JP_V0_NNN", 0xB000#16, 0xF000#16⟩
  | .rnd _ _ => ⟨"RND", 0xC000#16, 0xF000#16⟩
  | .drw _ _ _ => ⟨"DRW", 0xD000#16, 0xF000#16⟩
  | .skp _ => ⟨"SKP", 0xE09E#16, 0xF0FF#16⟩
  | .sknp _ => ⟨"SKNP", 0xE0A1#16, 0xF0FF#16⟩
  | .ldVxDt _ => ⟨"LD_VX_DT", 0xF007#16, 0xF0FF#16⟩
  | .ldVxK _ => ⟨"LD_VX_K", 0xF00A#16, 0xF0FF#16⟩
  | .ldDtVx _ => ⟨"LD_DT_VX", 0xF015#16, 0xF0FF#16⟩
  | .ldStVx _ => ⟨"LD_ST_VX", 0xF018#16, 0xF0FF#16⟩
  | .addIVx _ => ⟨"ADD_I_VX", 0xF01E#16, 0xF0FF#16⟩
  | .ldFVx _ => ⟨"LD_F_VX", 0xF029#16, 0xF0FF#16⟩
  | .ldBVx _ => ⟨"LD_B_VX", 0xF033#16, 0xF0FF#16⟩
  | .ldMiVx _ => ⟨"LD_MI_VX", 0xF055#16, 0xF0FF#16⟩
  | .ldVxMi _ => ⟨"LD_VX_MI", 0xF065#16, 0xF0FF#16⟩

/-- The rows of families 0 to 7. -/
def opcodeRows0to7 : List Row :=
  [⟨"CLS", 0x00E0#16, 0xFFFF#16⟩,
   ⟨"RET", 0x00EE#16, 0xFFFF#16⟩,
   ⟨"JP", 0x1000#16, 0xF000#16⟩,
   ⟨"CALL", 0x2000#16, 0xF000#16⟩,
   ⟨"SE_VX_NN", 0x3000#16, 0xF000#16⟩,
   ⟨"SNE_VX_NN", 0x4000#16, 0xF000#16⟩,
   ⟨"SE_VX_VY", 0x5000#16, 0xF00F#16⟩,
   ⟨"LD_VX_NN", 0x6000#16, 0xF000#16⟩,
   ⟨"ADD_VX_NN", 0x7000#16, 0xF000#16⟩]

/-- The rows of family 8. -/
def opcodeRows8 : List Row :=
  [⟨"LD_VX_VY", 0x8000#16, 0xF00F#16⟩,
   ⟨"OR", 0x8001#16, 0xF00F#16⟩,
   ⟨"AND", 0x8002#16, 0xF00F#16⟩,
   ⟨"XOR", 0x8003#16, 0xF00F#16⟩,
   ⟨"ADD_VX_VY", 0x8004#16, 0xF00F#16⟩,
   ⟨"SUB", 0x8005#16, 0xF00F#16⟩,
   ⟨"SHR", 0x8006#16, 0xF00F#16⟩,
   ⟨"SUBN", 0x8007#16, 0xF00F#16⟩,
   ⟨"SHL", 0x800E#16, 0xF00F#16⟩]

/-- The rows of families 9 to E. -/
def opcodeRows9toE : List Row :=
  [⟨"SNE_VX_VY", 0x9000#16, 0xF00F#16⟩,
   ⟨"LD_I_NNN", 0xA000#16, 0xF000#16⟩,
   ⟨"JP_V0_NNN", 0xB000#16, 0xF000#16⟩,
   ⟨"RND", 0xC000#16, 0xF000#16⟩,
   ⟨"DRW", 0xD000#16, 0xF000#16⟩,
   ⟨"SKP", 0xE09E#16, 0xF0FF#16⟩,
   ⟨"SKNP", 0xE0A1#16, 0xF0FF#16⟩]

/-- The rows of family F. -/
def opcodeRowsF : List Row :=
  [⟨"LD_VX_DT", 0xF007#16, 0xF0FF#16⟩,
   ⟨"LD_VX_K", 0xF00A#16, 0xF0FF#16⟩,
   ⟨"LD_DT_VX", 0xF015#16, 0xF0FF#16⟩,
   ⟨"LD_ST_VX", 0xF018#16, 0xF0FF#16⟩,
   ⟨"ADD_I_VX", 0xF01E#16, 0xF0FF#16⟩,
   ⟨"LD_F_VX", 0xF029#16, 0xF0FF#16⟩,
   ⟨"LD_B_VX", 0xF033#16, 0xF0FF#16⟩,
   ⟨"LD_MI_VX", 0xF055#16, 0xF0FF#16⟩,
   ⟨"LD_VX_MI", 0xF065#16, 0xF0FF#16⟩]

/-- The complete opcode map of R74: 34 rows. -/
def opcodeTable : List Row := opcodeRows0to7 ++ opcodeRows8 ++ opcodeRows9toE ++ opcodeRowsF

/-- A word is well formed when some row of the map covers it; every other word is unsupported (R77). -/
def wordWellFormed (w : Word) : Bool := opcodeTable.any fun r => r.covers w

end Sys2Proof
end

