-- ==== Sys2Proof/Decode.lean ====
section
/-! DEFINITION. The field decoder (30_encoding.md R71), the dispatch on the opcode map (R74, R75), and after it the
encoder written from the same map. The decoder is total: bytes that are no instruction are refused by name. -/

namespace Sys2Proof

/-! ### Fields of a word (R71) -/

/-- The register a 4-bit selector names. -/
def nibbleReg (b : BitVec 4) : Reg := ⟨b.toNat, b.isLt⟩

/-- family = w[15:12]. -/
def familyOf (w : Word) : BitVec 4 := w.extractLsb' 12 4

/-- X = w[11:8]. -/
def xOf (w : Word) : Reg := nibbleReg (w.extractLsb' 8 4)

/-- Y = w[7:4]. -/
def yOf (w : Word) : Reg := nibbleReg (w.extractLsb' 4 4)

/-- N = w[3:0]. -/
def nOf (w : Word) : BitVec 4 := w.extractLsb' 0 4

/-- NN = w[7:0]. -/
def nnOf (w : Word) : Byte := w.extractLsb' 0 8

/-- NNN = w[11:0]. -/
def nnnOf (w : Word) : BitVec 12 := w.extractLsb' 0 12

/-! ### Dispatch (R75) -/

/-- Family 0 matches on the whole word (R76). -/
def decodeFamily0 (w : Word) : Option Instr :=
  if w = 0x00E0#16 then some .cls
  else if w = 0x00EE#16 then some .ret
  else none

/-- Family 8 sub-dispatches on N. -/
def decodeFamily8 (w : Word) : Option Instr :=
  if nOf w = 0x0#4 then some (.ldVxVy (xOf w) (yOf w))
  else if nOf w = 0x1#4 then some (.orVxVy (xOf w) (yOf w))
  else if nOf w = 0x2#4 then some (.andVxVy (xOf w) (yOf w))
  else if nOf w = 0x3#4 then some (.xorVxVy (xOf w) (yOf w))
  else if nOf w = 0x4#4 then some (.addVxVy (xOf w) (yOf w))
  else if nOf w = 0x5#4 then some (.sub (xOf w) (yOf w))
  else if nOf w = 0x6#4 then some (.shr (xOf w) (yOf w))
  else if nOf w = 0x7#4 then some (.subn (xOf w) (yOf w))
  else if nOf w = 0xE#4 then some (.shl (xOf w) (yOf w))
  else none

/-- Family E sub-dispatches on NN. -/
def decodeFamilyE (w : Word) : Option Instr :=
  if nnOf w = 0x9E#8 then some (.skp (xOf w))
  else if nnOf w = 0xA1#8 then some (.sknp (xOf w))
  else none

/-- Family F sub-dispatches on NN. -/
def decodeFamilyF (w : Word) : Option Instr :=
  if nnOf w = 0x07#8 then some (.ldVxDt (xOf w))
  else if nnOf w = 0x0A#8 then some (.ldVxK (xOf w))
  else if nnOf w = 0x15#8 then some (.ldDtVx (xOf w))
  else if nnOf w = 0x18#8 then some (.ldStVx (xOf w))
  else if nnOf w = 0x1E#8 then some (.addIVx (xOf w))
  else if nnOf w = 0x29#8 then some (.ldFVx (xOf w))
  else if nnOf w = 0x33#8 then some (.ldBVx (xOf w))
  else if nnOf w = 0x55#8 then some (.ldMiVx (xOf w))
  else if nnOf w = 0x65#8 then some (.ldVxMi (xOf w))
  else none

/-- The instruction a word stands for, or none for an unsupported word (R75, R77; 40_engine.md R93). -/
def decodeWord (w : Word) : Option Instr :=
  if familyOf w = 0x0#4 then decodeFamily0 w
  else if familyOf w = 0x1#4 then some (.jp (nnnOf w))
  else if familyOf w = 0x2#4 then some (.call (nnnOf w))
  else if familyOf w = 0x3#4 then some (.seVxNn (xOf w) (nnOf w))
  else if familyOf w = 0x4#4 then some (.sneVxNn (xOf w) (nnOf w))
  else if familyOf w = 0x5#4 then (if nOf w = 0x0#4 then some (.seVxVy (xOf w) (yOf w)) else none)
  else if familyOf w = 0x6#4 then some (.ldVxNn (xOf w) (nnOf w))
  else if familyOf w = 0x7#4 then some (.addVxNn (xOf w) (nnOf w))
  else if familyOf w = 0x8#4 then decodeFamily8 w
  else if familyOf w = 0x9#4 then (if nOf w = 0x0#4 then some (.sneVxVy (xOf w) (yOf w)) else none)
  else if familyOf w = 0xA#4 then some (.ldINnn (nnnOf w))
  else if familyOf w = 0xB#4 then some (.jpV0Nnn (nnnOf w))
  else if familyOf w = 0xC#4 then some (.rnd (xOf w) (nnOf w))
  else if familyOf w = 0xD#4 then some (.drw (xOf w) (yOf w) (nOf w))
  else if familyOf w = 0xE#4 then decodeFamilyE w
  else decodeFamilyF w

/-! ### Bytes -/

/-- The word of two consecutive bytes: the byte at the lower address is bits 15:8 (20_memory.md R53), so the word is
`{b0, b1}` = 0x100 * b0 + b1. -/
def wordOfBytes (b0 b1 : Byte) : Word := BitVec.ofNat 16 (0x100 * b0.toNat + b1.toNat)

/-- The byte of a word that stands at the lower address. -/
def highByte (w : Word) : Byte := w.extractLsb' 8 8

/-- The byte of a word that stands at the higher address. -/
def lowByte (w : Word) : Byte := w.extractLsb' 0 8

/-- What the decoder answers on a sequence of bytes. -/
inductive Decoded where
  /-- an instruction, and the bytes after it -/
  | instr (i : Instr) (rest : List Byte)
  /-- the word matches no row of R74 (R77) -/
  | unsupported (w : Word)
  /-- fewer than the two bytes every instruction has (R70) -/
  | truncated
  deriving DecidableEq, Repr

/-- Decode the first instruction of a sequence of bytes: total, and a rejection has a name. -/
def decodeBytes : List Byte → Decoded
  | b0 :: b1 :: rest =>
    match decodeWord (wordOfBytes b0 b1) with
    | some i => .instr i rest
    | none => .unsupported (wordOfBytes b0 b1)
  | _ => .truncated

/-- A table word of `nbits` bits as the 16-bit word it is: every bit above `nbits` is 0. -/
def tableWord (nbits w : Nat) : Word := BitVec.ofNat 16 (w % 2 ^ nbits)

/-- The host's question: what the decoder reads from a word of spec/opcode_table.json, laid out as memory holds it. -/
def decodeTableWord (nbits w : Nat) : Option Instr :=
  match decodeBytes [highByte (tableWord nbits w), lowByte (tableWord nbits w)] with
  | .instr i _ => some i
  | .unsupported _ => none
  | .truncated => none

/-! ### The encoder, written from the patterns of R74 -/

/-- A pattern `fXNN`: `{f, X, NN}`, the most significant field first (00_scope.md R7, R8). -/
def wordXNN (f : BitVec 4) (x : Reg) (nn : Byte) : Word :=
  BitVec.ofNat 16 (0x1000 * f.toNat + 0x100 * x.val + nn.toNat)

/-- A pattern `fNNN`: `{f, NNN}`. -/
def wordNNN (f : BitVec 4) (nnn : BitVec 12) : Word :=
  BitVec.ofNat 16 (0x1000 * f.toNat + nnn.toNat)

/-- A pattern `fXYn`: `{f, X, Y, n}`. -/
def wordXYN (f : BitVec 4) (x y : Reg) (n : BitVec 4) : Word :=
  BitVec.ofNat 16 (0x1000 * f.toNat + 0x100 * x.val + 0x10 * y.val + n.toNat)

/-- The word of an instruction (R74). -/
def encode : Instr → Word
  | .cls => 0x00E0#16
  | .ret => 0x00EE#16
  | .jp nnn => wordNNN 0x1#4 nnn
  | .call nnn => wordNNN 0x2#4 nnn
  | .seVxNn x nn => wordXNN 0x3#4 x nn
  | .sneVxNn x nn => wordXNN 0x4#4 x nn
  | .seVxVy x y => wordXYN 0x5#4 x y 0x0#4
  | .ldVxNn x nn => wordXNN 0x6#4 x nn
  | .addVxNn x nn => wordXNN 0x7#4 x nn
  | .ldVxVy x y => wordXYN 0x8#4 x y 0x0#4
  | .orVxVy x y => wordXYN 0x8#4 x y 0x1#4
  | .andVxVy x y => wordXYN 0x8#4 x y 0x2#4
  | .xorVxVy x y => wordXYN 0x8#4 x y 0x3#4
  | .addVxVy x y => wordXYN 0x8#4 x y 0x4#4
  | .sub x y => wordXYN 0x8#4 x y 0x5#4
  | .shr x y => wordXYN 0x8#4 x y 0x6#4
  | .subn x y => wordXYN 0x8#4 x y 0x7#4
  | .shl x y => wordXYN 0x8#4 x y 0xE#4
  | .sneVxVy x y => wordXYN 0x9#4 x y 0x0#4
  | .ldINnn nnn => wordNNN 0xA#4 nnn
  | .jpV0Nnn nnn => wordNNN 0xB#4 nnn
  | .rnd x nn => wordXNN 0xC#4 x nn
  | .drw x y n => wordXYN 0xD#4 x y n
  | .skp x => wordXNN 0xE#4 x 0x9E#8
  | .sknp x => wordXNN 0xE#4 x 0xA1#8
  | .ldVxDt x => wordXNN 0xF#4 x 0x07#8
  | .ldVxK x => wordXNN 0xF#4 x 0x0A#8
  | .ldDtVx x => wordXNN 0xF#4 x 0x15#8
  | .ldStVx x => wordXNN 0xF#4 x 0x18#8
  | .addIVx x => wordXNN 0xF#4 x 0x1E#8
  | .ldFVx x => wordXNN 0xF#4 x 0x29#8
  | .ldBVx x => wordXNN 0xF#4 x 0x33#8
  | .ldMiVx x => wordXNN 0xF#4 x 0x55#8
  | .ldVxMi x => wordXNN 0xF#4 x 0x65#8

end Sys2Proof
end

