-- ==== Sys2Proof/Config.lean ====
section
/-! DEFINITION. What the sources leave open and the spec names as parameters (00_scope.md R6): the memory range
policy, the ALU flag order and the font bytes are plain data of the machine's configuration; the random byte of
CXNN is a free value. -/

namespace Sys2Proof

/-- MEM_OOB_POLICY (20_memory.md R55, 92_eei_decisions.md D2): what an access to a byte address above 0xFFF does. -/
inductive MemOobPolicy where
  /-- the access raises MemoryOutOfRange (the spec's default) -/
  | fault
  /-- the access reaches the byte at the address modulo 0x1000 -/
  | wrap
  deriving DecidableEq, Repr

/-- ALU_FLAG_ORDER (43_alu.md R151, 92_eei_decisions.md D7): how the two writes of a flag-writing ALU instruction
combine when an operand is VF. -/
inductive AluFlagOrder where
  /-- operands read once; VF written first, then V[X] (the spec's default) -/
  | latchedResultLast
  /-- operands read once; V[X] written first, then VF -/
  | latchedFlagLast
  /-- VF written first; the result is computed from the registers as that write left them -/
  | sequential
  deriving DecidableEq, Repr

/-- FONT_TABLE: the 80 bytes at 0x000 to 0x04F (10_state.md R36). -/
abbrev Font := Vector Byte 80

/-- The parameters of 00_scope.md R6 that are fixed for one machine. They are carried in `State` (assumption 2), so a
statement about every state holds for every setting. -/
structure Config where
  memOob : MemOobPolicy
  aluFlagOrder : AluFlagOrder
  font : Font
  deriving DecidableEq, Repr

/-- Glyphs 0 to 3 of the default FONT_TABLE. PRESUMED (assumption 5): the spec takes the bytes from general knowledge
(10_state.md R36, 93_implementation_defined.md G1). -/
def Config.glyphs0to3 : List Byte :=
  [0xF0#8, 0x90#8, 0x90#8, 0x90#8, 0xF0#8,
   0x20#8, 0x60#8, 0x20#8, 0x20#8, 0x70#8,
   0xF0#8, 0x10#8, 0xF0#8, 0x80#8, 0xF0#8,
   0xF0#8, 0x10#8, 0xF0#8, 0x10#8, 0xF0#8]

/-- Glyphs 4 to 7 of the default FONT_TABLE. -/
def Config.glyphs4to7 : List Byte :=
  [0x90#8, 0x90#8, 0xF0#8, 0x10#8, 0x10#8,
   0xF0#8, 0x80#8, 0xF0#8, 0x10#8, 0xF0#8,
   0xF0#8, 0x80#8, 0xF0#8, 0x90#8, 0xF0#8,
   0xF0#8, 0x10#8, 0x20#8, 0x40#8, 0x40#8]

/-- Glyphs 8 to B of the default FONT_TABLE. -/
def Config.glyphs8toB : List Byte :=
  [0xF0#8, 0x90#8, 0xF0#8, 0x90#8, 0xF0#8,
   0xF0#8, 0x90#8, 0xF0#8, 0x10#8, 0xF0#8,
   0xF0#8, 0x90#8, 0xF0#8, 0x90#8, 0x90#8,
   0xE0#8, 0x90#8, 0xE0#8, 0x90#8, 0xE0#8]

/-- Glyphs C to F of the default FONT_TABLE. -/
def Config.glyphsCtoF : List Byte :=
  [0xF0#8, 0x80#8, 0x80#8, 0x80#8, 0xF0#8,
   0xE0#8, 0x90#8, 0x90#8, 0x90#8, 0xE0#8,
   0xF0#8, 0x80#8, 0xF0#8, 0x80#8, 0xF0#8,
   0xF0#8, 0x80#8, 0xF0#8, 0x80#8, 0x80#8]

/-- The default FONT_TABLE (10_state.md R36). -/
def Config.defaultFont : Font :=
  ⟨(Config.glyphs0to3 ++ Config.glyphs4to7 ++ Config.glyphs8toB ++ Config.glyphsCtoF).toArray, by decide⟩

/-- The default of every parameter (00_scope.md R6). -/
def Config.default : Config where
  memOob := .fault
  aluFlagOrder := .latchedResultLast
  font := Config.defaultFont

/-- RAND: the random byte of the n-th CXNN executed, a fresh 8-bit draw under no law (40_engine.md R100,
92_eei_decisions.md D30). A free value (assumption 3): nothing in Lean can evaluate it. -/
opaque Config.randByte : Nat → Byte

end Sys2Proof
end

