-- ==== Sys2Proof/Machine/State.lean ====
section
/-! DEFINITION. The complete architectural state (10_state.md R20), the fault records (60_exceptions.md R230) and the
two states a machine starts in: creation (R34) and reset (R35). Plain data only. -/

namespace Sys2Proof.Machine

/-- The fault a cycle can end with (60_exceptions.md R230). Each record holds `pc`, the PC at the start of the faulting
cycle, and the info of its kind. A meaning RAISES one by writing it into the fault status (`raise`, a next state:
40_engine.md R96); `step` ANSWERS `.fault` with it in every later cycle (R97), and only there (assumption 1). -/
inductive Fault where
  /-- code 1: raised by the dispatch when the fetched word matches no row of 30_encoding.md R74. Safe: the source itself
  calls it a hard stop (40_engine.md R93). -/
  | unsupportedInstruction (pc : Addr) (word : Word)
  /-- code 2: raised by CALL when SP = 15 (42_control_flow.md R132). The spec decides the stop (92_eei_decisions.md D5).
  Unsafe for a claim that a state is never reached: hardware that corrupts its stack silently would go on. -/
  | stackOverflow (pc : Addr)
  /-- code 3: raised by RET when SP = 0 (42_control_flow.md R130). The spec decides the stop (D6). Unsafe for a claim
  that a state is never reached, as for the overflow. -/
  | stackUnderflow (pc : Addr)
  /-- code 4: raised by the fetch, DRW, LD B, LD [I] and LD Vx,[I] when MEM_OOB_POLICY = FAULT and a byte address is
  above 0xFFF (20_memory.md R55, R56); `addr` is the lowest offending address. Safe in every claim that holds for both
  policies; unsafe in a claim that fixes the policy (D2). -/
  | memoryOutOfRange (pc : Addr) (addr : Addr)
  /-- code 5: raised by SKP and SKNP when V[X] > 0xF (45_input.md R204). The spec decides the stop (D10). Unsafe for a
  claim that a state is never reached: hardware that masked the index would go on. -/
  | keyIndexOutOfRange (pc : Addr) (value : Byte)
  deriving DecidableEq, Repr

/-- Why an instruction has no meaning. The model refuses no instruction: nothing raises this. -/
inductive Refusal where
  /-- An instruction of the table without a meaning, by its mnemonic; raised by `exec`'s refused arms, of which there is
  none. Safe. -/
  | notModelled (mnemonic : String)
  deriving DecidableEq, Repr

/-- The fault status (10_state.md R32). -/
inductive FaultStatus where
  | running
  | faulted (f : Fault)
  deriving DecidableEq, Repr

/-- What the most recent cycle returned to the host (40_engine.md R90, 10_state.md R31). The model's own record of an
output, not the spec's state (assumption 6). -/
inductive Output where
  /-- no cycle since create or load -/
  | idle
  /-- `Ok(tone)` -/
  | ok (tone : Bool)
  /-- `Fault(f)`: no tone was emitted -/
  | fault (f : Fault)
  deriving DecidableEq, Repr

/-- Memory: the cells whose byte differs from what an unlisted address reads as, at strictly rising addresses
(`Memory.wf` in Machine/Memory.lean). -/
abbrev Memory := List Host.Cell

/-- The display buffer: 32 rows, top to bottom, of 64 pixels, left to right (10_state.md R29). -/
abbrev Display := Vector (Vector Bool 64) 32

/-- The state of the block (10_state.md R20), with the model's own fields `cfg`, `out` and `draws` last. -/
structure State where
  /-- V[0..15]; VF is V[15] (R21, R23) -/
  v : Vector Byte 16
  /-- the program counter (R24) -/
  pc : Addr
  /-- the index register I (R25) -/
  i : Addr
  /-- S[0..15] (R26) -/
  stack : Vector Addr 16
  /-- the stack pointer (R27) -/
  sp : BitVec 4
  /-- the delay timer DT (R28) -/
  dt : Byte
  /-- the sound timer ST (R28) -/
  st : Byte
  /-- the 4096 bytes of memory (20_memory.md R50) -/
  mem : Memory
  /-- the display buffer (R29) -/
  display : Display
  /-- the key vector K[0..15], true = pressed (R30) -/
  keys : Vector Bool 16
  /-- the fault status (R32) -/
  status : FaultStatus
  /-- the parameters of 00_scope.md R6 (assumption 2) -/
  cfg : Config
  /-- the output of the most recent cycle (assumption 6) -/
  out : Output
  /-- how many CXNN have run: selects the next free random byte (assumption 3) -/
  draws : Nat
  deriving DecidableEq, Repr

/-- The blank display. -/
def blankDisplay : Display := Vector.replicate 32 (Vector.replicate 64 false)

/-- The address a program starts at (00_scope.md R5 PROGRAM_BASE). -/
def programBase : Addr := 0x200#16

/-- The creation state for a machine with parameters `cfg` (10_state.md R34, 70_reset_and_hazards.md R250): every field
zero but the font, which the background of memory holds. -/
def State.createdWith (cfg : Config) : State where
  v := Vector.replicate 16 0#8
  pc := 0#16
  i := 0#16
  stack := Vector.replicate 16 0#16
  sp := 0#4
  dt := 0#8
  st := 0#8
  mem := []
  display := blankDisplay
  keys := Vector.replicate 16 false
  status := .running
  cfg := cfg
  out := .idle
  draws := 0

/-- The creation state with the default parameters. -/
def State.created : State := State.createdWith Config.default

/-- The machine right after reset: created and then loaded with an empty image (10_state.md R35; assumption 4), so PC is
at the reset entry point 0x200 (20_memory.md R51). -/
def State.reset : State := { State.created with pc := programBase }

end Sys2Proof.Machine
end

