-- ==== Sys2Proof/Machine/Memory.lean ====
section
/-! DEFINITION. The 4096-byte memory as a canonical list of cells over the creation contents (20_memory.md R50, R51;
10_state.md R34). -/

namespace Sys2Proof.Machine

/-- The number of bytes of memory (00_scope.md R5 MEM_SIZE). -/
def memSize : Nat := 0x1000

/-- What an address that no cell lists reads as: FONT_TABLE at 0x000 to 0x04F, else 0 (10_state.md R34; assumption 7). -/
def unlistedByte (font : Font) (a : Nat) : Byte :=
  if h : a < 80 then font[a] else 0#8

/-- The byte that the first cell listing an address holds. -/
def Memory.find : Memory → Nat → Option Byte
  | [], _ => none
  | c :: m, a => if c.1 = a then some c.2 else Memory.find m a

/-- Read the byte at an address. -/
def Memory.get (font : Font) (m : Memory) (a : Nat) : Byte :=
  match m.find a with
  | some b => b
  | none => unlistedByte font a

/-- The memory without the cells of an address. -/
def Memory.erase : Memory → Nat → Memory
  | [], _ => []
  | c :: m, a => if c.1 = a then Memory.erase m a else c :: Memory.erase m a

/-- Put a cell before the first cell of a higher address. -/
def Memory.insert : Memory → Nat → Byte → Memory
  | [], a, b => [(a, b)]
  | c :: m, a, b => if a < c.1 then (a, b) :: c :: m else c :: Memory.insert m a b

/-- Write the byte at an address. Writing what the unlisted address reads as leaves no cell. -/
def Memory.set (font : Font) (m : Memory) (a : Nat) (b : Byte) : Memory :=
  if b = unlistedByte font a then Memory.erase m a
  else Memory.insert (Memory.erase m a) a b

/-- Write bytes at consecutive addresses, the first at `a`. -/
def Memory.setBytes (font : Font) (m : Memory) (a : Nat) : List Byte → Memory
  | [] => m
  | b :: bs => Memory.setBytes font (Memory.set font m a b) (a + 1) bs

/-- Every cell's address is above `lo`, and addresses rise strictly. -/
def Memory.risingAbove : Option Nat → Memory → Bool
  | _, [] => true
  | lo, c :: m =>
    (match lo with
      | none => true
      | some l => decide (l < c.1)) && Memory.risingAbove (some c.1) m

/-- The canonical form: addresses strictly rising and below 0x1000, no cell equal to what its address reads as
unlisted. Equal memories in this form are equal lists. -/
def Memory.wf (font : Font) (m : Memory) : Bool :=
  Memory.risingAbove none m &&
    m.all fun c => decide (c.1 < memSize) && !decide (c.2 = unlistedByte font c.1)

end Sys2Proof.Machine
end

