-- ==== Sys2Proof/Machine/Ops.lean ====
section
/-! DEFINITION. The shared operations of the engine: register, stack, display, key and memory access, the address check,
the program-counter step, the timer step, fetch, and taking a fault (40_engine.md). There is no return from a fault
(60_exceptions.md R234). -/

namespace Sys2Proof.Machine

/-- The flags register (10_state.md R23). -/
def vf : Reg := 15

/-! ### Registers, stack, keys, pixels -/

/-- V[r] (10_state.md R21). -/
def State.reg (s : State) (r : Reg) : Byte := s.v[r.val]

/-- V[r] <- b. -/
def State.setReg (s : State) (r : Reg) (b : Byte) : State := { s with v := s.v.set r.val b }

/-- I <- a (10_state.md R25). -/
def State.setI (s : State) (a : Addr) : State := { s with i := a }

/-- PC <- a (10_state.md R24). -/
def State.setPc (s : State) (a : Addr) : State := { s with pc := a }

/-- SP <- k (10_state.md R27). -/
def State.setSp (s : State) (k : BitVec 4) : State := { s with sp := k }

/-- DT <- b (10_state.md R28). -/
def State.setDt (s : State) (b : Byte) : State := { s with dt := b }

/-- ST <- b (10_state.md R28). -/
def State.setSt (s : State) (b : Byte) : State := { s with st := b }

/-- S[k] (10_state.md R26). -/
def State.stackAt (s : State) (k : BitVec 4) : Addr := s.stack[k.toNat]'k.isLt

/-- S[k] <- a. -/
def State.setStack (s : State) (k : BitVec 4) (a : Addr) : State :=
  { s with stack := s.stack.set k.toNat a k.isLt }

/-- K[k] (10_state.md R30). -/
def State.key (s : State) (k : Reg) : Bool := s.keys[k.val]

/-- K[k] <- b. -/
def State.setKey (s : State) (k : Reg) (b : Bool) : State := { s with keys := s.keys.set k.val b }

/-- The pixel addressed by column x and row y, wrapped (41_display.md R111). -/
def Display.pixel (d : Display) (x y : Nat) : Bool :=
  (d[y % 32]'(Nat.mod_lt y (by decide)))[x % 64]'(Nat.mod_lt x (by decide))

/-- Write the pixel addressed by column x and row y, wrapped (41_display.md R111). -/
def Display.setPixel (d : Display) (x y : Nat) (b : Bool) : Display :=
  d.set (y % 32)
    ((d[y % 32]'(Nat.mod_lt y (by decide))).set (x % 64) b (Nat.mod_lt x (by decide)))
    (Nat.mod_lt y (by decide))

/-- Pixel(x, y) of the state, as the host reads it (40_engine.md R99, 41_display.md R110). -/
def State.pixel (s : State) (x y : Nat) : Bool := s.display.pixel x y

/-- Replace the display. -/
def State.setDisplay (s : State) (d : Display) : State := { s with display := d }

/-- Count one random draw (assumption 3). -/
def State.countDraw (s : State) : State := { s with draws := s.draws + 1 }

/-! ### Memory access (20_memory.md) -/

/-- The address of byte k of an access that starts at `base`: trunc_16(base + k) (R55). -/
def byteAddr (base : Addr) (k : Nat) : Addr := base + BitVec.ofNat 16 k

/-- The memory byte an address that passed its check reaches: itself, or under WRAP a[11:0] (R55). -/
def physAddr (a : Addr) : Nat := a.toNat % memSize

/-- Check(a): does an access to `a` go through (R55)? -/
def checkAddr (p : MemOobPolicy) (a : Addr) : Bool :=
  match p with
  | .fault => decide (a.toNat ≤ 0xFFF)
  | .wrap => true

/-- The address at the lowest offset k < n, counting from `k0`, whose check fails (R56). -/
def firstBadFrom (p : MemOobPolicy) (base : Addr) : Nat → Nat → Option Addr
  | _, 0 => none
  | k0, n + 1 =>
    if checkAddr p (byteAddr base k0) then firstBadFrom p base (k0 + 1) n
    else some (byteAddr base k0)

/-- The checks of an access of n bytes at `base`: none when all pass, else the lowest offending address (R56). -/
def State.firstBad (s : State) (base : Addr) (n : Nat) : Option Addr :=
  firstBadFrom s.cfg.memOob base 0 n

/-- MemRead(a, 1) of a checked address. -/
def State.readByte (s : State) (a : Addr) : Byte := s.mem.get s.cfg.font (physAddr a)

/-- MemWrite(a, 1, b) of a checked address. -/
def State.writeByte (s : State) (a : Addr) (b : Byte) : State :=
  { s with mem := s.mem.set s.cfg.font (physAddr a) b }

/-- Write bytes at consecutive addresses trunc_16(base + k), the first at offset `k`. -/
def State.writeBytesFrom (s : State) (base : Addr) : Nat → List Byte → State
  | _, [] => s
  | k, b :: bs => State.writeBytesFrom (s.writeByte (byteAddr base k) b) base (k + 1) bs

/-- Write bytes at trunc_16(base + 0), trunc_16(base + 1), … in that order. -/
def State.writeBytes (s : State) (base : Addr) (bs : List Byte) : State := s.writeBytesFrom base 0 bs

/-- The n bytes at trunc_16(base + 0), …, trunc_16(base + (n - 1)). -/
def State.readBytes (s : State) (base : Addr) (n : Nat) : List Byte :=
  (List.range n).map fun k => s.readByte (byteAddr base k)

/-! ### Taking a fault (40_engine.md R96, 60_exceptions.md R233) -/

/-- The state a faulting cycle leaves: only the fault status is written (and the cycle's output is the record). PC still
holds the faulting instruction's address, nothing is saved, there is no handler. -/
def State.withFault (s : State) (f : Fault) : State := { s with status := .faulted f, out := .fault f }

/-- raise f: the cycle ends at once with the fault; the next state is the same but for the fault status. -/
def raise (f : Fault) (s : State) : Host.Outcome State Fault Refusal := .next (s.withFault f)

/-- The `pc` of a fault record (60_exceptions.md R230). -/
def Fault.pc : Fault → Addr
  | .unsupportedInstruction pc _ => pc
  | .stackOverflow pc => pc
  | .stackUnderflow pc => pc
  | .memoryOutOfRange pc _ => pc
  | .keyIndexOutOfRange pc _ => pc

/-- The `code` of a fault record (60_exceptions.md R230). -/
def Fault.code : Fault → Nat
  | .unsupportedInstruction _ _ => 1
  | .stackOverflow _ => 2
  | .stackUnderflow _ => 3
  | .memoryOutOfRange _ _ => 4
  | .keyIndexOutOfRange _ _ => 5

/-- Run a data access of n bytes at `base` only when every byte address passes its check (20_memory.md R56). -/
def withChecked (base : Addr) (n : Nat) (body : State → Host.Outcome State Fault Refusal) (s : State) :
    Host.Outcome State Fault Refusal :=
  match s.firstBad base n with
  | some a => raise (.memoryOutOfRange s.pc a) s
  | none => body s

/-! ### The program-counter step (40_engine.md R94) -/

/-- What an instruction returns for the next PC. -/
inductive Selector where
  | seq
  | skip (c : Bool)
  | target (t : Addr)
  | hold
  deriving DecidableEq, Repr

/-- The next PC, from the address the instruction was fetched from. -/
def nextPc (pc : Addr) : Selector → Addr
  | .seq => pc + 2#16
  | .skip c => if c then pc + 4#16 else pc + 2#16
  | .target t => t
  | .hold => pc

/-- The end of an instruction that raised nothing: its writes are in `s`, and PC is written last (R95). -/
def complete (sel : Selector) (s : State) : Host.Outcome State Fault Refusal :=
  .next (s.setPc (nextPc s.pc sel))

/-! ### The timer step (46_timers.md R213, R214) -/

/-- One count down, never below 0. -/
def countDown (b : Byte) : Byte := if b = 0#8 then 0#8 else b - 1#8

/-- TimerStep, and the cycle's output Ok(tone): tone is 1 exactly when ST is nonzero before the decrement. -/
def State.timerStep (s : State) : State :=
  { s with dt := countDown s.dt, st := countDown s.st, out := .ok (decide (s.st ≠ 0#8)) }

/-- The end of a cycle: the timer step runs when the instruction raised no fault (40_engine.md R90, R96). -/
def endCycle : Host.Outcome State Fault Refusal → Host.Outcome State Fault Refusal
  | .next s =>
    match s.status with
    | .running => .next s.timerStep
    | .faulted _ => .next s
  | .fault f => .fault f
  | .refused r => .refused r

/-! ### Fetch (40_engine.md R91) -/

/-- What a fetch gives: a word, or the first of PC and PC + 1 whose check fails. -/
inductive Fetched where
  | word (w : Word)
  | outOfRange (a : Addr)
  deriving DecidableEq, Repr

/-- Fetch the word at PC, big-endian, after checking both byte addresses. PC does not change. -/
def State.fetch (s : State) : Fetched :=
  match s.firstBad s.pc 2 with
  | some a => .outOfRange a
  | none => .word (wordOfBytes (s.readByte (byteAddr s.pc 0)) (s.readByte (byteAddr s.pc 1)))

/-- Lay a word out in memory as the fetch at `a` reads it. -/
def State.placeWord (s : State) (a : Addr) (w : Word) : State :=
  s.writeBytes a [highByte w, lowByte w]

/-- Can the fetch at PC read its two bytes? -/
def State.canFetch (s : State) : Bool := (s.firstBad s.pc 2).isNone

/-- A state whose next cycle fetches and runs an instruction that is placed at its PC: status Running, and PC where a
fetch can read (0x200 when it could not; assumption 11). -/
def State.readyToFetch (s : State) : State :=
  { s with status := .running, pc := if s.canFetch then s.pc else programBase }

end Sys2Proof.Machine
end

