-- ==== Sys2Proof/Machine/Operands.lean ====
section
/-! DEFINITION. The operand forms (30_encoding.md R73, R74): every immediate is zero-extended, a register range V0..VX,
the digits of FX33, the glyph address of FX29, and the key an instruction names or accepts. -/

namespace Sys2Proof.Machine

/-- NNN as an address: zext_16(NNN) (30_encoding.md R73). -/
def addrOfNNN (nnn : BitVec 12) : Addr := nnn.setWidth 16

/-- A register's value as a 16-bit addend: zext_16(V[x]) (42_control_flow.md R137, 44_index_memory.md R181). -/
def addrOfByte (b : Byte) : Addr := b.setWidth 16

/-- Every register index, in order. -/
def allRegs : List Reg := [0, 1, 2, 3, 4, 5, 6, 7, 8, 9, 10, 11, 12, 13, 14, 15]

/-- The registers V0..VX of FX55 and FX65: X is the last register's index, not a value (90_conflicts.md C3). -/
def regsUpTo (x : Reg) : List Reg := allRegs.filter fun k => decide (k ≤ x)

/-- The values of V0..VX, in order (44_index_memory.md R184). -/
def State.regValues (s : State) (x : Reg) : List Byte := (regsUpTo x).map s.reg

/-- V[k] <- the byte of memory at trunc_16(I + k), for each k in the list (44_index_memory.md R185). The bytes are read
from `src`, the state at the start of the instruction. -/
def loadRegs (src : State) (rs : List Reg) (s : State) : State :=
  rs.foldl (fun t k => t.setReg k (src.readByte (byteAddr src.i k.val))) s

/-- The decimal digits of a byte: hundreds, tens, ones (44_index_memory.md R183). -/
def decimalDigits (b : Byte) : List Byte :=
  [BitVec.ofNat 8 (b.toNat / 100), BitVec.ofNat 8 (b.toNat / 10 % 10), BitVec.ofNat 8 (b.toNat % 10)]

/-- The address of the glyph for a value: trunc_16(FONT_BASE + 5 * v) with FONT_BASE = 0, v not masked
(44_index_memory.md R182). -/
def glyphAddr (b : Byte) : Addr := BitVec.ofNat 16 (5 * b.toNat)

/-- The key a register value names; none above 0xF (45_input.md R204). -/
def keyIndex (b : Byte) : Option Reg := if h : b.toNat < 16 then some ⟨b.toNat, h⟩ else none

/-- The least index of a pressed key (45_input.md R203). -/
def State.firstPressed (s : State) : Option Reg := allRegs.find? fun k => s.key k

/-- A register or key index as a byte. -/
def byteOfReg (k : Reg) : Byte := BitVec.ofNat 8 k.val

end Sys2Proof.Machine
end

