-- ==== Sys2Proof/Machine/Flags.lean ====
section
/-! DEFINITION. The flag computations (43_alu.md R150) and the ways a flag write and a result write combine
(R151, the parameter ALU_FLAG_ORDER). -/

namespace Sys2Proof.Machine

/-- A condition as the byte 0 or 1 (00_scope.md R8 bool). -/
def boolByte (c : Bool) : Byte := if c then 1#8 else 0#8

/-- The sum of two registers before truncation, 0..510 (R158). -/
def addWide (a b : Byte) : Nat := a.toNat + b.toNat

/-- The result of addition: trunc_8 of the sum. -/
def addResult (a b : Byte) : Byte := BitVec.ofNat 8 (addWide a b)

/-- The carry flag of addition: bool(sum > 255). -/
def carryFlag (a b : Byte) : Byte := boolByte (decide (addWide a b > 255))

/-- The result of subtraction: trunc_8(a - b). -/
def subResult (a b : Byte) : Byte := a - b

/-- The flag of subtraction: bool(a > b), strict. -/
def greaterFlag (a b : Byte) : Byte := boolByte (decide (a.toNat > b.toNat))

/-- The result of a shift right by one: a 0 is shifted in. -/
def shrResult (a : Byte) : Byte := a >>> 1

/-- The flag of a shift right: the old bit 0. -/
def lsbFlag (a : Byte) : Byte := boolByte (a.getLsbD 0)

/-- The result of a shift left by one, truncated: a 0 is shifted in. -/
def shlResult (a : Byte) : Byte := a <<< 1

/-- The flag of a shift left: the old bit 7. -/
def msbFlag (a : Byte) : Byte := boolByte (a.getLsbD 7)

/-- V[0xF] <- f; V[X] <- r. -/
def writeFlagThenResult (x : Reg) (f r : Byte) (s : State) : State := (s.setReg vf f).setReg x r

/-- V[X] <- r; V[0xF] <- f. -/
def writeResultThenFlag (x : Reg) (f r : Byte) (s : State) : State := (s.setReg x r).setReg vf f

/-- The writes of 8XY4. Its sum is latched before the flag write under every setting (R151). -/
def writeLatched (x : Reg) (f r : Byte) (s : State) : State :=
  match s.cfg.aluFlagOrder with
  | .latchedResultLast => writeFlagThenResult x f r s
  | .latchedFlagLast => writeResultThenFlag x f r s
  | .sequential => writeFlagThenResult x f r s

/-- The writes of 8XY5, 8XY6, 8XY7 and 8XYE, whose result statement re-reads V[X] and V[Y] under SEQUENTIAL (R151). -/
def writeReread (x y : Reg) (flag result : Byte → Byte → Byte) (s : State) : State :=
  let f := flag (s.reg x) (s.reg y)
  let r := result (s.reg x) (s.reg y)
  match s.cfg.aluFlagOrder with
  | .latchedResultLast => writeFlagThenResult x f r s
  | .latchedFlagLast => writeResultThenFlag x f r s
  | .sequential =>
    let s1 := s.setReg vf f
    s1.setReg x (result (s1.reg x) (s1.reg y))

end Sys2Proof.Machine
end

