-- ==== Sys2Proof/Machine/Alu.lean ====
section
/-! DEFINITION. The 8-bit ALU (43_alu.md): 6XNN, 7XNN, 8XY0 to 8XYE, CXNN. Every instruction returns SEQ and none
raises a fault. -/

namespace Sys2Proof.Machine

/-- LD Vx, nn (R152). -/
def execLdVxNn (x : Reg) (nn : Byte) (s : State) : Host.Outcome State Fault Refusal :=
  complete .seq (s.setReg x nn)

/-- ADD Vx, nn: truncated, no flag (R153). -/
def execAddVxNn (x : Reg) (nn : Byte) (s : State) : Host.Outcome State Fault Refusal :=
  complete .seq (s.setReg x (addResult (s.reg x) nn))

/-- LD Vx, Vy (R154). -/
def execLdVxVy (x y : Reg) (s : State) : Host.Outcome State Fault Refusal :=
  complete .seq (s.setReg x (s.reg y))

/-- OR Vx, Vy (R155). -/
def execOrVxVy (x y : Reg) (s : State) : Host.Outcome State Fault Refusal :=
  complete .seq (s.setReg x (s.reg x ||| s.reg y))

/-- AND Vx, Vy (R156). -/
def execAndVxVy (x y : Reg) (s : State) : Host.Outcome State Fault Refusal :=
  complete .seq (s.setReg x (s.reg x &&& s.reg y))

/-- XOR Vx, Vy (R157). -/
def execXorVxVy (x y : Reg) (s : State) : Host.Outcome State Fault Refusal :=
  complete .seq (s.setReg x (s.reg x ^^^ s.reg y))

/-- ADD Vx, Vy: the carry goes to VF (R158). -/
def execAddVxVy (x y : Reg) (s : State) : Host.Outcome State Fault Refusal :=
  complete .seq (writeLatched x (carryFlag (s.reg x) (s.reg y)) (addResult (s.reg x) (s.reg y)) s)

/-- SUB Vx, Vy: V[X] - V[Y], VF = bool(V[X] > V[Y]) (R159). -/
def execSub (x y : Reg) (s : State) : Host.Outcome State Fault Refusal :=
  complete .seq (writeReread x y (fun vx vy => greaterFlag vx vy) (fun vx vy => subResult vx vy) s)

/-- SHR Vx: the old bit 0 goes to VF; V[Y] is not read (R160). -/
def execShr (x _y : Reg) (s : State) : Host.Outcome State Fault Refusal :=
  complete .seq (writeReread x x (fun vx _ => lsbFlag vx) (fun vx _ => shrResult vx) s)

/-- SUBN Vx, Vy: V[Y] - V[X], VF = bool(V[Y] > V[X]) (R161). -/
def execSubn (x y : Reg) (s : State) : Host.Outcome State Fault Refusal :=
  complete .seq (writeReread x y (fun vx vy => greaterFlag vy vx) (fun vx vy => subResult vy vx) s)

/-- SHL Vx: the old bit 7 goes to VF; V[Y] is not read (R162). -/
def execShl (x _y : Reg) (s : State) : Host.Outcome State Fault Refusal :=
  complete .seq (writeReread x x (fun vx _ => msbFlag vx) (fun vx _ => shlResult vx) s)

/-- RND Vx, nn for a given random draw: V[X] <- rand & NN (R163). -/
def rndWith (rand : Byte) (x : Reg) (nn : Byte) (s : State) : State := s.setReg x (rand &&& nn)

/-- RND Vx, nn with the cycle's draw, a free value (40_engine.md R100; assumption 3). -/
def execRnd (x : Reg) (nn : Byte) (s : State) : Host.Outcome State Fault Refusal :=
  complete .seq (rndWith (Config.randByte s.draws) x nn s).countDraw

end Sys2Proof.Machine
end

