-- ==== Sys2Proof/Machine/Blitter.lean ====
section
/-! DEFINITION. The display instructions: 00E0 and the XOR sprite blitter of DXYN (41_display.md). -/

namespace Sys2Proof.Machine

/-- Column c of a sprite row: bit 7 - c (R114). -/
def spriteBit (row : Byte) (c : Nat) : Bool := row.getLsbD (7 - c)

/-- The display drawn so far, and the collision flag so far. -/
abbrev Drawn := Display × Bool

/-- Draw one sprite bit at (px, py): a 1 flips the pixel, and collides when the pixel was 1 (R113, R115). -/
def drawBit (bit : Bool) (px py : Nat) (a : Drawn) : Drawn :=
  if bit then (a.1.setPixel px py (!a.1.pixel px py), a.2 || a.1.pixel px py) else a

/-- Draw the columns of a row that the list names, the row's column 0 at x0 (R114). -/
def drawColumns (x0 y : Nat) (row : Byte) (cols : List Nat) (a : Drawn) : Drawn :=
  cols.foldl (fun a c => drawBit (spriteBit row c) (x0 + c) y a) a

/-- The columns of a sprite row (00_scope.md R5 SPRITE_WIDTH). -/
def spriteColumns : List Nat := [0, 1, 2, 3, 4, 5, 6, 7]

/-- Draw rows one below the other, the first at y (R113). -/
def drawRows (x0 : Nat) : Nat → List Byte → Drawn → Drawn
  | _, [], a => a
  | y, row :: rows, a => drawRows x0 (y + 1) rows (drawColumns x0 y row spriteColumns a)

/-- CLS: every pixel 0 (R112). -/
def execCls (s : State) : Host.Outcome State Fault Refusal :=
  complete .seq (s.setDisplay blankDisplay)

/-- The effect of DRW once its addresses are checked: operands from the state at the start, then the display, then VF
to 0 and to the collision flag (R113). -/
def drawSprite (x y : Reg) (n : BitVec 4) (s : State) : State :=
  let drawn := drawRows ((s.reg x).toNat % 64) ((s.reg y).toNat % 32) (s.readBytes s.i n.toNat) (s.display, false)
  ((s.setDisplay drawn.1).setReg vf 0#8).setReg vf (boolByte drawn.2)

/-- DRW: draw an N-row sprite at (V[X], V[Y]) by XOR (R113). -/
def execDrw (x y : Reg) (n : BitVec 4) (s : State) : Host.Outcome State Fault Refusal :=
  withChecked s.i n.toNat (fun s => complete .seq (drawSprite x y n s)) s

end Sys2Proof.Machine
end

