-- ==== Sys2Proof/Machine/Control.lean ====
section
/-! DEFINITION. Control transfer (42_control_flow.md): return, jump, call, skips, indexed jump. -/

namespace Sys2Proof.Machine

/-- RET: pop the return address; StackUnderflow when SP = 0 (R130). The popped entry keeps its value. -/
def execRet (s : State) : Host.Outcome State Fault Refusal :=
  if s.sp = 0#4 then raise (.stackUnderflow s.pc) s
  else complete (.target (s.stackAt s.sp)) (s.setSp (s.sp - 1#4))

/-- JP nnn (R131). -/
def execJp (nnn : BitVec 12) (s : State) : Host.Outcome State Fault Refusal :=
  complete (.target (addrOfNNN nnn)) s

/-- CALL nnn: increment SP, store PC + 2 there, jump; StackOverflow when SP = 15 (R132). -/
def execCall (nnn : BitVec 12) (s : State) : Host.Outcome State Fault Refusal :=
  if s.sp = 15#4 then raise (.stackOverflow s.pc) s
  else complete (.target (addrOfNNN nnn)) ((s.setSp (s.sp + 1#4)).setStack (s.sp + 1#4) (s.pc + 2#16))

/-- SE Vx, nn: skip if V[X] = NN (R133). -/
def execSeVxNn (x : Reg) (nn : Byte) (s : State) : Host.Outcome State Fault Refusal :=
  complete (.skip (decide (s.reg x = nn))) s

/-- SNE Vx, nn: skip if V[X] ≠ NN (R134). -/
def execSneVxNn (x : Reg) (nn : Byte) (s : State) : Host.Outcome State Fault Refusal :=
  complete (.skip (decide (s.reg x ≠ nn))) s

/-- SE Vx, Vy: skip if V[X] = V[Y] (R135). -/
def execSeVxVy (x y : Reg) (s : State) : Host.Outcome State Fault Refusal :=
  complete (.skip (decide (s.reg x = s.reg y))) s

/-- SNE Vx, Vy: skip if V[X] ≠ V[Y] (R136). -/
def execSneVxVy (x y : Reg) (s : State) : Host.Outcome State Fault Refusal :=
  complete (.skip (decide (s.reg x ≠ s.reg y))) s

/-- JP V0, nnn: jump to trunc_16(NNN + V0) (R137). -/
def execJpV0Nnn (nnn : BitVec 12) (s : State) : Host.Outcome State Fault Refusal :=
  complete (.target (addrOfNNN nnn + addrOfByte (s.reg 0))) s

end Sys2Proof.Machine
end

