-- ==== Sys2Proof/Machine/IndexMemory.lean ====
section
/-! DEFINITION. The index register and the memory transfers (44_index_memory.md). Every instruction returns SEQ; no
transfer changes I. -/

namespace Sys2Proof.Machine

/-- LD I, nnn (R180). -/
def execLdINnn (nnn : BitVec 12) (s : State) : Host.Outcome State Fault Refusal :=
  complete .seq (s.setI (addrOfNNN nnn))

/-- I <- trunc_16(I + V[X]), then VF <- 1 when the new I exceeds 0xFFF; otherwise VF is not written (R181). -/
def addToI (x : Reg) (s : State) : State :=
  let ni := s.i + addrOfByte (s.reg x)
  if ni.toNat > 0xFFF then (s.setI ni).setReg vf 1#8 else s.setI ni

/-- ADD I, Vx (R181). -/
def execAddIVx (x : Reg) (s : State) : Host.Outcome State Fault Refusal :=
  complete .seq (addToI x s)

/-- LD F, Vx (R182). -/
def execLdFVx (x : Reg) (s : State) : Host.Outcome State Fault Refusal :=
  complete .seq (s.setI (glyphAddr (s.reg x)))

/-- LD B, Vx: the three decimal digits of V[X] at I, I + 1, I + 2 (R183). -/
def execLdBVx (x : Reg) (s : State) : Host.Outcome State Fault Refusal :=
  withChecked s.i 3 (fun s => complete .seq (s.writeBytes s.i (decimalDigits (s.reg x)))) s

/-- LD [I], Vx: V0..VX to memory at I (R184). -/
def execLdMiVx (x : Reg) (s : State) : Host.Outcome State Fault Refusal :=
  withChecked s.i (x.val + 1) (fun s => complete .seq (s.writeBytes s.i (s.regValues x))) s

/-- LD Vx, [I]: V0..VX from memory at I (R185). -/
def execLdVxMi (x : Reg) (s : State) : Host.Outcome State Fault Refusal :=
  withChecked s.i (x.val + 1) (fun s => complete .seq (loadRegs s (regsUpTo x) s)) s

end Sys2Proof.Machine
end

