-- ==== Sys2Proof/Machine/Input.lean ====
section
/-! DEFINITION. Key input (45_input.md): skips on a key, and the key wait. -/

namespace Sys2Proof.Machine

/-- SKP Vx: skip if key V[X] is pressed; KeyIndexOutOfRange when V[X] > 0xF (R201, R204). -/
def execSkp (x : Reg) (s : State) : Host.Outcome State Fault Refusal :=
  match keyIndex (s.reg x) with
  | none => raise (.keyIndexOutOfRange s.pc (s.reg x)) s
  | some k => complete (.skip (s.key k)) s

/-- SKNP Vx: skip if key V[X] is not pressed; KeyIndexOutOfRange when V[X] > 0xF (R202, R204). -/
def execSknp (x : Reg) (s : State) : Host.Outcome State Fault Refusal :=
  match keyIndex (s.reg x) with
  | none => raise (.keyIndexOutOfRange s.pc (s.reg x)) s
  | some k => complete (.skip (!s.key k)) s

/-- LD Vx, K: take the least pressed key and clear it; with no key pressed, hold (R203). -/
def execLdVxK (x : Reg) (s : State) : Host.Outcome State Fault Refusal :=
  match s.firstPressed with
  | some k => complete .seq ((s.setReg x (byteOfReg k)).setKey k false)
  | none => complete .hold s

end Sys2Proof.Machine
end

