-- ==== Sys2Proof/Machine/Timers.lean ====
section
/-! DEFINITION. The timer instructions (46_timers.md). The timer step of the same cycle runs after them
(`State.timerStep`, from `endCycle`). -/

namespace Sys2Proof.Machine

/-- LD Vx, DT (R210). -/
def execLdVxDt (x : Reg) (s : State) : Host.Outcome State Fault Refusal :=
  complete .seq (s.setReg x s.dt)

/-- LD DT, Vx (R211). -/
def execLdDtVx (x : Reg) (s : State) : Host.Outcome State Fault Refusal :=
  complete .seq (s.setDt (s.reg x))

/-- LD ST, Vx (R212). -/
def execLdStVx (x : Reg) (s : State) : Host.Outcome State Fault Refusal :=
  complete .seq (s.setSt (s.reg x))

end Sys2Proof.Machine
end

