-- ==== Sys2Proof/Machine/Step.lean ====
section
/-! DEFINITION. The cycle (40_engine.md R90): the block's only step. -/

namespace Sys2Proof.Machine

/-- Dispatch a fetched word and run the cycle to its end (40_engine.md R93). -/
def runWord (w : Word) (s : State) : Host.Outcome State Fault Refusal :=
  match decodeWord w with
  | some i => endCycle (exec i s)
  | none => raise (.unsupportedInstruction s.pc w) s

/-- One cycle. A block whose fault status is Faulted(f) performs nothing and answers that fault (R97); a cycle that
faults answers the next state in which only the fault status is written (R96; assumption 1). -/
def step (s : State) : Host.Outcome State Fault Refusal :=
  match s.status with
  | .faulted f => .fault f
  | .running =>
    match s.fetch with
    | .outOfRange a => raise (.memoryOutOfRange s.pc a) s
    | .word w => runWord w s

/-- The state with a table word stored where the next cycle fetches (assumption 11). -/
def State.withFetchWord (s : State) (nbits w : Nat) : State :=
  s.readyToFetch.placeWord s.readyToFetch.pc (tableWord nbits w)

end Sys2Proof.Machine
end

