-- ==== Sys2Proof/Machine/Boot.lean ====
section
/-! DEFINITION. The host's operations between cycles (40_engine.md R99): load, write keys, read display. (create is
`State.created`; cycle is `step`.) -/

namespace Sys2Proof.Machine

/-- The longest image: 3584 bytes (00_scope.md R5 MAX_IMAGE). -/
def maxImage : Nat := 3584

/-- What load answers: the load state, or RomTooLarge(L) (code 16), which changes nothing
(70_reset_and_hazards.md R251, R252). -/
inductive LoadResult where
  | ok (s : State)
  | romTooLarge (length : Nat)
  deriving DecidableEq, Repr

/-- The code of RomTooLarge (60_exceptions.md R230). -/
def romTooLargeCode : Nat := 16

/-- The load state (10_state.md R35): registers, timers, stack, display reset; the font restored and the image copied to
0x200; the rest of memory, the keys, the parameters and the draw counter unchanged. -/
def State.loaded (s : State) (img : List Byte) : State :=
  { s with
    v := Vector.replicate 16 0#8
    pc := programBase
    i := 0#16
    stack := Vector.replicate 16 0#16
    sp := 0#4
    dt := 0#8
    st := 0#8
    mem := Memory.setBytes s.cfg.font (Memory.setBytes s.cfg.font s.mem 0 s.cfg.font.toList) programBase.toNat img
    display := blankDisplay
    status := .running
    out := .idle }

/-- load(img) (70_reset_and_hazards.md R251). -/
def State.load (s : State) (img : List Byte) : LoadResult :=
  if img.length > maxImage then .romTooLarge img.length else .ok (s.loaded img)

/-- write keys: the host replaces all 16 entries (45_input.md R200). -/
def State.writeKeys (s : State) (ks : Vector Bool 16) : State := { s with keys := ks }

/-- write keys from bytes: a nonzero byte is pressed (10_state.md R30). -/
def State.writeKeyBytes (s : State) (ks : Vector Byte 16) : State :=
  s.writeKeys ⟨(ks.toList.map fun b => decide (b ≠ 0#8)).toArray, by simp⟩

/-- read display: the flat view, pixel (x, y) at index y * 64 + x (41_display.md R110). -/
def State.displayList (s : State) : List Bool := s.display.toList.flatMap fun row => row.toList

end Sys2Proof.Machine
end

