-- ==== Sys2Proof/Safety.lean ====
section
/-! DEFINITION. The terms claims are stated in: what a step leaves alone (frames), when an access goes through, when a
fault record is justified by the state, and the invariant of the machine. -/

namespace Sys2Proof.Safety

open Sys2Proof.Machine

/-! ### Frames: what `t` keeps of `s` -/

/-- Every general register outside `W` is kept. -/
def SameRegsBut (W : List Reg) (s t : State) : Prop := ∀ r, r ∉ W → t.reg r = s.reg r

/-- I is kept. -/
def SameIndex (s t : State) : Prop := t.i = s.i

/-- SP and every stack entry are kept. -/
def SameStack (s t : State) : Prop := t.sp = s.sp ∧ ∀ k, t.stackAt k = s.stackAt k

/-- DT and ST are kept. -/
def SameTimers (s t : State) : Prop := t.dt = s.dt ∧ t.st = s.st

/-- Every byte of memory reads as before. -/
def SameMemory (s t : State) : Prop := ∀ a, t.readByte a = s.readByte a

/-- Every pixel is kept. -/
def SameDisplay (s t : State) : Prop := ∀ x y, t.pixel x y = s.pixel x y

/-- Every key is kept. -/
def SameKeys (s t : State) : Prop := ∀ k, t.key k = s.key k

/-- The fault status, the parameters, the last cycle's output and the draw counter are kept. -/
def SameControl (s t : State) : Prop :=
  t.status = s.status ∧ t.cfg = s.cfg ∧ t.out = s.out ∧ t.draws = s.draws

/-- Everything but PC and the general registers of `W` is kept: the frame of an instruction that writes registers only
(`W = []`: one that writes only PC). -/
def RegisterFrame (W : List Reg) (s t : State) : Prop :=
  SameRegsBut W s t ∧ SameIndex s t ∧ SameStack s t ∧ SameTimers s t ∧ SameMemory s t ∧ SameDisplay s t ∧
    SameKeys s t ∧ SameControl s t

/-! ### Encodings and faults as the rules write them -/

/-- The words of an instruction are exactly those its row of 30_encoding.md R74 selects, with the row's fields. -/
def EncodedAs (mask pattern : Word) (instr : Word → Instr) : Prop :=
  ∀ w : Word, w &&& mask = pattern ↔ decodeWord w = some (instr w)

/-- The state a faulting cycle leaves: the fault status (and the cycle's output) is written, nothing else
(40_engine.md R96). -/
def Faulted (f : Fault) (s : State) : State := { s with status := .faulted f, out := .fault f }

/-- Every byte of an n-byte access at `base` passes its check (20_memory.md R55): the policy is WRAP, or every address
is at most 0xFFF. -/
def AccessOk (s : State) (base : Addr) (n : Nat) : Prop :=
  s.cfg.memOob = .wrap ∨ ∀ k, k < n → (base + BitVec.ofNat 16 k).toNat ≤ 0xFFF

/-- `a` is the address at the lowest offset below n whose check fails (20_memory.md R56). -/
def LowestBad (s : State) (base : Addr) (n : Nat) (a : Addr) : Prop :=
  s.cfg.memOob = .fault ∧ ∃ k, k < n ∧ a = base + BitVec.ofNat 16 k ∧ a.toNat > 0xFFF ∧
    ∀ j, j < k → (base + BitVec.ofNat 16 j).toNat ≤ 0xFFF

/-- How many bytes at I an instruction accesses (20_memory.md R53); none: it makes no data access. -/
def dataBytes : Instr → Option Nat
  | .drw _ _ n => some n.toNat
  | .ldBVx _ => some 3
  | .ldMiVx x => some (x.val + 1)
  | .ldVxMi x => some (x.val + 1)
  | _ => none

/-- The instruction the fetch at PC gives. -/
def AtPc (s : State) (i : Instr) : Prop := ∃ w, s.fetch = .word w ∧ decodeWord w = some i

/-- The condition of each fault of 60_exceptions.md R230, at the state itself. -/
def Justified (s : State) : Fault → Prop
  | .unsupportedInstruction pc w => pc = s.pc ∧ s.fetch = .word w ∧ decodeWord w = none
  | .stackOverflow pc => pc = s.pc ∧ s.sp = 15#4 ∧ ∃ nnn, AtPc s (.call nnn)
  | .stackUnderflow pc => pc = s.pc ∧ s.sp = 0#4 ∧ AtPc s .ret
  | .memoryOutOfRange pc a =>
    pc = s.pc ∧ (LowestBad s s.pc 2 a ∨ ∃ i n, AtPc s i ∧ dataBytes i = some n ∧ LowestBad s s.i n a)
  | .keyIndexOutOfRange pc b =>
    pc = s.pc ∧ b.toNat > 0xF ∧ ∃ x, (AtPc s (.skp x) ∨ AtPc s (.sknp x)) ∧ s.reg x = b

/-- The invariant: memory is canonical; a block whose status is Faulted(f) returned f in its last cycle and still meets
the condition of f; and no other block's last output is a fault. -/
def StateInv (s : State) : Prop :=
  s.mem.wf s.cfg.font = true ∧
  (∀ f, s.status = .faulted f → Justified s f) ∧
  ∀ f, s.status = .faulted f ↔ s.out = .fault f

/-! ### Tables of the whole machine -/

/-- The next PC of an instruction that raises nothing, from the selector table of 40_engine.md R94. -/
def pcAfter (s : State) : Instr → Addr
  | .seVxNn x nn => if s.reg x = nn then s.pc + 4#16 else s.pc + 2#16
  | .sneVxNn x nn => if s.reg x ≠ nn then s.pc + 4#16 else s.pc + 2#16
  | .seVxVy x y => if s.reg x = s.reg y then s.pc + 4#16 else s.pc + 2#16
  | .sneVxVy x y => if s.reg x ≠ s.reg y then s.pc + 4#16 else s.pc + 2#16
  | .skp x => if ∃ k : Reg, s.reg x = BitVec.ofNat 8 k.val ∧ s.key k = true then s.pc + 4#16 else s.pc + 2#16
  | .sknp x => if ∃ k : Reg, s.reg x = BitVec.ofNat 8 k.val ∧ s.key k = false then s.pc + 4#16 else s.pc + 2#16
  | .jp nnn => BitVec.ofNat 16 nnn.toNat
  | .call nnn => BitVec.ofNat 16 nnn.toNat
  | .ret => s.stackAt s.sp
  | .jpV0Nnn nnn => BitVec.ofNat 16 (nnn.toNat + (s.reg 0).toNat)
  | .ldVxK _ => if ∃ k, s.key k = true then s.pc + 2#16 else s.pc
  | _ => s.pc + 2#16

/-- The general registers an instruction may write (10_state.md R22). -/
def mayWrite : Instr → List Reg
  | .ldVxNn x _ => [x]
  | .addVxNn x _ => [x]
  | .ldVxVy x _ => [x]
  | .orVxVy x _ => [x]
  | .andVxVy x _ => [x]
  | .xorVxVy x _ => [x]
  | .addVxVy x _ => [x, vf]
  | .sub x _ => [x, vf]
  | .shr x _ => [x, vf]
  | .subn x _ => [x, vf]
  | .shl x _ => [x, vf]
  | .rnd x _ => [x]
  | .drw _ _ _ => [vf]
  | .ldVxDt x => [x]
  | .ldVxK x => [x]
  | .addIVx _ => [vf]
  | .ldVxMi x => regsUpTo x
  | _ => []

/-- Both timers count down by one and stop at 0 (46_timers.md R213). -/
def counted (b : Byte) : Byte := BitVec.ofNat 8 (b.toNat - 1)

/-- The flag-writing ALU instructions (43_alu.md R151) as their operands, their flag and their result on the numbers
a = V[X] and b = V[Y] (R158 to R162). -/
def aluRule : Instr → Option (Reg × Reg × (Nat → Nat → Nat) × (Nat → Nat → Nat))
  | .addVxVy x y => some (x, y, fun a b => if a + b > 255 then 1 else 0, fun a b => (a + b) % 256)
  | .sub x y => some (x, y, fun a b => if a > b then 1 else 0, fun a b => (a + 256 - b) % 256)
  | .shr x y => some (x, y, fun a _ => a % 2, fun a _ => a / 2)
  | .subn x y => some (x, y, fun a b => if b > a then 1 else 0, fun a b => (b + 256 - a) % 256)
  | .shl x y => some (x, y, fun a _ => a / 128, fun a _ => 2 * a % 256)
  | _ => none

/-- Under flag order `o`, the instruction completes and leaves `b` in register `r`. -/
def LeavesIn (o : AluFlagOrder) (i : Instr) (s : State) (r : Reg) (b : Byte) : Prop :=
  s.cfg.aluFlagOrder = o → ∃ t, exec i s = .next t ∧ t.reg r = b

/-- The sprite of DRW has a 1 bit at column px, row py of the display (41_display.md R111, R113, R114): sprite row r,
column c lands at ((V[X] + c) mod 64, (V[Y] + r) mod 32), and bit 7 - c of the byte at I + r is column c. -/
def SpriteCovers (s : State) (x y : Reg) (n : BitVec 4) (px py : Nat) : Prop :=
  ∃ r c, r < n.toNat ∧ c < 8 ∧ px = ((s.reg x).toNat + c) % 64 ∧ py = ((s.reg y).toNat + r) % 32 ∧
    (s.readByte (s.i + BitVec.ofNat 16 r)).getLsbD (7 - c) = true

/-- `m` cycles from `σ 0`, none of which faults; the host writes some key vector before each (40_engine.md R99). -/
def Cycles (σ : Nat → State) (m : Nat) : Prop :=
  ∀ j, j < m → ∃ ks, step ((σ j).writeKeys ks) = .next (σ (j + 1)) ∧ (σ (j + 1)).status = .running

/-- The unsupported words among the 4096 of a family. -/
def unsupportedIn (family : Nat) : Nat :=
  ((List.range 4096).filter fun n => (decodeWord (BitVec.ofNat 16 (4096 * family + n))).isNone).length

end Sys2Proof.Safety
end

