-- ==== Sys2Proof/Certificates/Slice0/Obligations.lean ====
section
/-! DEFINITION. The statements for the provers. Each says which rule of spec/ it formalises, or which log entry it rests
on. Statements about `exec` are about an instruction's own effect; `StepRunsTheDecodedInstruction` carries them to a
cycle. -/

open Sys2Proof Sys2Proof.Machine Sys2Proof.Safety

/-! ### Encoding -/

/-- Decode and encode agree on every instruction, as a word and as two bytes in memory order (30_encoding.md R70, R74;
20_memory.md R53). -/
def Obligations.DecodingAnEncodedInstructionGivesItBack : Prop :=
  ∀ (i : Instr) (rest : List Byte),
    decodeWord (encode i) = some i ∧
      decodeBytes (highByte (encode i) :: lowByte (encode i) :: rest) = .instr i rest

/-- No bit of a decoded word is dropped, the ignored Y of SHR and SHL included (30_encoding.md R78; assumption 12). -/
def Obligations.EncodingADecodedInstructionGivesItsWord : Prop :=
  ∀ (w : Word) (i : Instr), decodeWord w = some i → encode i = w

/-- 40_engine.md R93: the dispatch selects the row that matches; no row: UnsupportedInstruction; at most one row
matches. -/
def Obligations.DispatchSelectsTheMatchingRow : Prop :=
  (∀ (w : Word) (i : Instr), decodeWord w = some i → i.row ∈ opcodeTable ∧ w &&& i.row.mask = i.row.pattern) ∧
  (∀ (w : Word) (r : Row), r ∈ opcodeTable → w &&& r.mask = r.pattern → ∃ i, decodeWord w = some i ∧ i.row = r) ∧
  (∀ (w : Word) (r r' : Row), r ∈ opcodeTable → r' ∈ opcodeTable → w &&& r.mask = r.pattern →
    w &&& r'.mask = r'.pattern → r = r') ∧
  ∀ (s : State) (w : Word), s.status = .running → s.fetch = .word w →
    (∀ r, r ∈ opcodeTable → w &&& r.mask ≠ r.pattern) →
    step s = .next (Faulted (.unsupportedInstruction s.pc w) s)

/-- 30_encoding.md R71: the fields of every word. -/
def Obligations.EveryWordHasItsFields : Prop :=
  ∀ w : Word,
    (familyOf w).toNat = w.toNat / 0x1000 ∧ (xOf w).val = w.toNat / 0x100 % 0x10 ∧
      (yOf w).val = w.toNat / 0x10 % 0x10 ∧ (nOf w).toNat = w.toNat % 0x10 ∧
      (nnOf w).toNat = w.toNat % 0x100 ∧ (nnnOf w).toNat = w.toNat % 0x1000

/-- 30_encoding.md R75 and R76: the defined words of each family, and the two words of family 0. -/
def Obligations.DefinedWordsOfEachFamily : Prop :=
  (∀ w : Word, (decodeWord w).isSome = true ↔
    ((familyOf w).toNat = 0x0 ∧ (w = 0x00E0#16 ∨ w = 0x00EE#16)) ∨
    (familyOf w).toNat ∈ [0x1, 0x2, 0x3, 0x4, 0x6, 0x7, 0xA, 0xB, 0xC, 0xD] ∨
    ((familyOf w).toNat ∈ [0x5, 0x9] ∧ (nOf w).toNat = 0x0) ∨
    ((familyOf w).toNat = 0x8 ∧ (nOf w).toNat ∈ [0x0, 0x1, 0x2, 0x3, 0x4, 0x5, 0x6, 0x7, 0xE]) ∨
    ((familyOf w).toNat = 0xE ∧ (nnOf w).toNat ∈ [0x9E, 0xA1]) ∨
    ((familyOf w).toNat = 0xF ∧ (nnOf w).toNat ∈ [0x07, 0x0A, 0x15, 0x18, 0x1E, 0x29, 0x33, 0x55, 0x65])) ∧
  decodeWord 0x00E0#16 = some .cls ∧ decodeWord 0x00EE#16 = some .ret

/-- 30_encoding.md R77: a word that matches no row is unsupported, faults and leaves the state unchanged (but for the
fault status), and how many there are. -/
def Obligations.UnsupportedWordsFaultAndAreCounted : Prop :=
  (∀ w : Word, decodeWord w = none ↔ ∀ r, r ∈ opcodeTable → w &&& r.mask ≠ r.pattern) ∧
  (∀ (s : State) (w : Word), s.status = .running → s.fetch = .word w → decodeWord w = none →
    step s = .next (Faulted (.unsupportedInstruction s.pc w) s)) ∧
  unsupportedIn 0x0 = 4094 ∧ unsupportedIn 0x5 = 3840 ∧ unsupportedIn 0x8 = 1792 ∧ unsupportedIn 0x9 = 3840 ∧
  unsupportedIn 0xE = 4064 ∧ unsupportedIn 0xF = 3952 ∧
  (∀ f, f ∈ [0x1, 0x2, 0x3, 0x4, 0x6, 0x7, 0xA, 0xB, 0xC, 0xD] → unsupportedIn f = 0) ∧
  ((List.range 16).map unsupportedIn).sum = 21582 ∧
  ((List.range 16).map fun f => 4096 - unsupportedIn f).sum = 43954

/-- Words written out from the patterns of 30_encoding.md R74 and the decoder vectors of 95_test_vectors.md. -/
def Obligations.WordsWrittenOutFromTheSpecDecode : Prop :=
  decodeTableWord 16 0xD12F = some (.drw 1 2 15#4) ∧ decodeTableWord 16 0x00E0 = some .cls ∧
  decodeTableWord 16 0x00EE = some .ret ∧ decodeTableWord 16 0x5120 = some (.seVxVy 1 2) ∧
  decodeTableWord 16 0x9AB0 = some (.sneVxVy 0xA 0xB) ∧ decodeTableWord 16 0x8126 = some (.shr 1 2) ∧
  decodeTableWord 16 0xE19E = some (.skp 1) ∧ decodeTableWord 16 0xF165 = some (.ldVxMi 1) ∧
  decodeTableWord 16 0xB123 = some (.jpV0Nnn 0x123#12) ∧ decodeTableWord 16 0x01E0 = none ∧
  decodeTableWord 16 0x812F = none ∧ decodeTableWord 16 0xF166 = none

/-- The field Y of 8XY6 and 8XYE is a don't-care: every Y is the same operation (from 30_encoding.md R78). -/
def Obligations.ShiftsIgnoreY : Prop :=
  ∀ (x y y' : Reg) (s : State),
    exec (.shr x y) s = exec (.shr x y') s ∧ exec (.shl x y) s = exec (.shl x y') s

/-! ### The engine -/

/-- A cycle of a running block whose fetched word decodes to `i` is `exec i` and then, if that raised no fault, the
timer step and the output Ok(tone) (from 40_engine.md R90, R98; the fault outcomes are the model's form, assumption 1,
and `out` is the model's record of the output, assumption 6). -/
def Obligations.StepRunsTheDecodedInstruction : Prop :=
  ∀ (s : State) (w : Word) (i : Instr), s.status = .running → s.fetch = .word w → decodeWord w = some i →
    ∃ t, exec i s = .next t ∧
      (t.status = .running →
        step s = .next { t with dt := counted t.dt, st := counted t.st, out := .ok (decide (t.st ≠ 0#8)) }) ∧
      ∀ f, t.status = .faulted f → step s = .next t

/-- 40_engine.md R91: fetch checks PC and PC + 1 and gives the big-endian word of their bytes; under FAULT a PC of 0xFFF
or more faults. No alignment is asked of PC. -/
def Obligations.FetchReadsTheTwoBytesAtPc : Prop :=
  ∀ s : State,
    (AccessOk s s.pc 2 → s.fetch =
      .word (BitVec.ofNat 16 (0x100 * (s.readByte s.pc).toNat + (s.readByte (s.pc + 1#16)).toNat))) ∧
    (s.cfg.memOob = .fault → s.pc.toNat > 0xFFF → s.fetch = .outOfRange s.pc ∧
      (s.status = .running → step s = .next (Faulted (.memoryOutOfRange s.pc s.pc) s))) ∧
    (s.cfg.memOob = .fault → s.pc = 0xFFF#16 → s.fetch = .outOfRange 0x1000#16 ∧
      (s.status = .running → step s = .next (Faulted (.memoryOutOfRange s.pc 0x1000#16) s)))

/-- 40_engine.md R97: a block in the status Faulted(f) answers f to every cycle, whatever keys the host writes; only
load sets it running; and a retry from the unchanged state, whatever the keys and the random draws, raises f again. -/
def Obligations.AFaultedBlockReturnsItsFaultAndARetryRaisesItAgain : Prop :=
  ∀ (s : State) (f : Fault), s.status = .faulted f →
    step s = .fault f ∧
    (∀ ks, (s.writeKeys ks).status = .faulted f ∧ step (s.writeKeys ks) = .fault f) ∧
    (∀ img t, s.load img = .ok t → t.status = .running) ∧
    (StateInv s → ∀ (ks : Vector Bool 16) (n : Nat),
      step { s with status := .running, keys := ks, draws := n } =
        .next (Faulted f { s with keys := ks, draws := n }))

/-- 40_engine.md R96: a faulting cycle changes the fault status and nothing else (`out` records that it returned the
fault and no tone, assumption 6). -/
def Obligations.AFaultingCycleWritesOnlyTheFaultStatus : Prop :=
  ∀ (s t : State) (f : Fault), s.status = .running → step s = .next t → t.status = .faulted f →
    t = { s with status := .faulted f, out := .fault f }

/-- 60_exceptions.md R230: a running block's cycle ends with the fault f exactly when the condition of f's row holds, no
two rows' conditions hold together, the record names the PC of the cycle's start, and the codes. RomTooLarge is the
load's own error. -/
def Obligations.ACycleFaultsExactlyWhenItsConditionHolds : Prop :=
  (∀ (s : State) (f : Fault), s.status = .running →
    ((∃ t, step s = .next t ∧ t.status = .faulted f) ↔ Justified s f)) ∧
  (∀ (s : State) (f g : Fault), Justified s f → Justified s g → f = g) ∧
  (∀ (s : State) (f : Fault), Justified s f → f.pc = s.pc) ∧
  (∀ (pc a : Addr) (w : Word) (b : Byte), (Fault.unsupportedInstruction pc w).code = 1 ∧
    (Fault.stackOverflow pc).code = 2 ∧ (Fault.stackUnderflow pc).code = 3 ∧
    (Fault.memoryOutOfRange pc a).code = 4 ∧ (Fault.keyIndexOutOfRange pc b).code = 5) ∧
  romTooLargeCode = 16 ∧
  ∀ (s : State) (img : List Byte), img.length > 3584 → s.load img = .romTooLarge img.length

/-- Every cycle keeps the invariant: canonical memory; a Faulted status whose record still holds of the state (from
60_exceptions.md R230 and R233, 20_memory.md R50; memory's form is assumption 7). -/
def Obligations.EveryStepKeepsTheInvariant : Prop :=
  ∀ s t : State, StateInv s → step s = .next t → StateInv t

/-- The reset state and every creation state meet the invariant. -/
def Obligations.ResetAndCreationMeetTheInvariant : Prop :=
  StateInv State.reset ∧ ∀ cfg : Config, StateInv (State.createdWith cfg)

/-- The host's operations keep the invariant (from 40_engine.md R99). -/
def Obligations.HostOperationsKeepTheInvariant : Prop :=
  ∀ s : State, StateInv s →
    (∀ img t, s.load img = .ok t → StateInv t) ∧ (∀ ks, StateInv (s.writeKeys ks)) ∧ ∀ ks, StateInv (s.writeKeyBytes ks)

/-- 46_timers.md R213 and R214: a cycle without a fault counts DT and ST down once, after the instruction's own write,
and its tone is 1 exactly when ST was nonzero then; a faulting cycle does not step the timers. -/
def Obligations.TimersStepOncePerCycleAndToneFollowsSt : Prop :=
  (∀ (s t : State), step s = .next t → t.status = .running → ∃ i, AtPc s i ∧
    (∀ x, i = .ldDtVx x → t.dt = counted (s.reg x)) ∧ ((∀ x, i ≠ .ldDtVx x) → t.dt = counted s.dt) ∧
    (∀ x, i = .ldStVx x → t.st = counted (s.reg x) ∧ t.out = .ok (decide (s.reg x ≠ 0#8))) ∧
    ((∀ x, i ≠ .ldStVx x) → t.st = counted s.st ∧ t.out = .ok (decide (s.st ≠ 0#8)))) ∧
  ∀ (s t : State) (f : Fault), step s = .next t → t.status = .faulted f →
    t.dt = s.dt ∧ t.st = s.st ∧ t.out = .fault f

/-- 40_engine.md R94: the next PC of every instruction that raises nothing, by its selector. -/
def Obligations.EveryInstructionTakesItsSelector : Prop :=
  ∀ (i : Instr) (s t : State), s.status = .running → exec i s = .next t → t.status = .running →
    t.pc = pcAfter s i

/-- Which general registers each instruction may write (from 10_state.md R22); ADD I, Vx writes VF only on overflow. -/
def Obligations.OnlyTheNamedRegistersAreWritten : Prop :=
  (∀ (i : Instr) (s t : State) (r : Reg), exec i s = .next t → t.reg r ≠ s.reg r → r ∈ mayWrite i) ∧
  ∀ (x : Reg) (s t : State), exec (.addIVx x) s = .next t → t.reg vf ≠ s.reg vf → t.i.toNat > 0xFFF

/-- Only CLS and DRW write the display and only DRW reads it (from 10_state.md R29 and 41_display.md R110). -/
def Obligations.OnlyClsAndDrwReachTheDisplay : Prop :=
  (∀ s t : State, step s = .next t → (∃ x y, t.pixel x y ≠ s.pixel x y) →
    AtPc s .cls ∨ ∃ x y n, AtPc s (.drw x y n)) ∧
  ∀ (i : Instr) (s : State) (d : Display), (∀ x y n, i ≠ .drw x y n) →
    ∃ t d', exec i s = .next t ∧ exec i (s.setDisplay d) = .next (t.setDisplay d')

/-- 10_state.md R26: only CALL writes the stack and only RET reads it: any other instruction acts the same whatever the
stack holds. The stack is not part of memory: CALL writes no byte, and no byte reads an entry. -/
def Obligations.OnlyCallWritesAndOnlyRetReadsTheStack : Prop :=
  (∀ (i : Instr) (s t : State), exec i s = .next t → (∃ k, t.stackAt k ≠ s.stackAt k) → ∃ nnn, i = .call nnn) ∧
  (∀ (i : Instr) (s : State) (S : Vector Addr 16), i ≠ .ret →
    ∃ t S', exec i s = .next t ∧ exec i { s with stack := S } = .next { t with stack := S' }) ∧
  (∀ (s t : State) (nnn : BitVec 12), exec (.call nnn) s = .next t → ∀ a, t.readByte a = s.readByte a) ∧
  ∀ (s t : State) (i : Instr) (S : Vector Addr 16), exec i s = .next t →
    ∀ a, ({ t with stack := S } : State).readByte a = t.readByte a

/-- Only FX33 and FX55 write memory; only ANNN, FX1E and FX29 write I; only CALL and RET write SP; no instruction
changes the parameters (from 20_memory.md R53, 10_state.md R25 and R27; the parameters are assumption 2). -/
def Obligations.OnlyTheNamedInstructionsWriteMemoryIAndSp : Prop :=
  ∀ (i : Instr) (s t : State), exec i s = .next t →
    ((∃ a, t.readByte a ≠ s.readByte a) → ∃ x, i = .ldBVx x ∨ i = .ldMiVx x) ∧
    (t.i ≠ s.i → (∃ nnn, i = .ldINnn nnn) ∨ ∃ x, i = .addIVx x ∨ i = .ldFVx x) ∧
    (t.sp ≠ s.sp → i = .ret ∨ ∃ nnn, i = .call nnn) ∧
    t.cfg = s.cfg

/-- Every instruction answers a next state: it completes with the fault status as it was, or it takes a fault whose
record names its own PC (from 40_engine.md R90 and 60_exceptions.md R230, R233; the form is assumption 1). -/
def Obligations.EveryInstructionAnswersANextState : Prop :=
  ∀ (i : Instr) (s : State), ∃ t, exec i s = .next t ∧
    (t.status = s.status ∨ ∃ f : Fault, f.pc = s.pc ∧ t = Faulted f s)

/-- 20_memory.md R55 and R56: every byte address of an access is checked before any is read or written; a failed check
names the lowest offset; when all pass, the instruction runs; under WRAP an address reaches its low 12 bits. -/
def Obligations.AccessesCheckEveryAddressFirst : Prop :=
  (∀ (s : State) (i : Instr) (n : Nat), dataBytes i = some n →
    (∀ a, LowestBad s s.i n a → exec i s = .next (Faulted (.memoryOutOfRange s.pc a) s)) ∧
    (AccessOk s s.i n → ∃ t, exec i s = .next t ∧ t.status = s.status ∧ t.pc = s.pc + 2#16)) ∧
  (∀ (s : State) (a : Addr), s.status = .running → LowestBad s s.pc 2 a →
    step s = .next (Faulted (.memoryOutOfRange s.pc a) s)) ∧
  (∀ (s : State) (base : Addr) (n : Nat), AccessOk s base n ∨ ∃ a, LowestBad s base n a) ∧
  ∀ (s : State) (a : Addr) (b : Byte), s.cfg.memOob = .wrap →
    s.readByte a = s.readByte (a &&& 0xFFF#16) ∧ s.writeByte a b = s.writeByte (a &&& 0xFFF#16) b

/-- Bytes that FX55 and FX33 store are what a later fetch of their addresses reads (from 20_memory.md R61 and
70_reset_and_hazards.md R257). -/
def Obligations.StoredBytesAreFetched : Prop :=
  (∀ (s t : State) (x j k : Reg), AccessOk s s.i (x.val + 1) → k.val = j.val + 1 → k ≤ x →
    exec (.ldMiVx x) s = .next t →
    (t.setPc (s.i + BitVec.ofNat 16 j.val)).fetch =
      .word (BitVec.ofNat 16 (0x100 * (s.reg j).toNat + (s.reg k).toNat))) ∧
  ∀ (s t : State) (x : Reg), AccessOk s s.i 3 → exec (.ldBVx x) s = .next t →
    (t.setPc s.i).fetch =
      .word (BitVec.ofNat 16 (0x100 * ((s.reg x).toNat / 100) + (s.reg x).toNat / 10 % 10))

/-- A word placed by `withFetchWord` is what the very next cycle runs, from every state (assumption 11). -/
def Obligations.APlacedWordIsRunNext : Prop :=
  ∀ (s : State) (n : Nat), n < 65536 →
    (s.withFetchWord 16 n).status = .running ∧ (s.withFetchWord 16 n).fetch = .word (BitVec.ofNat 16 n) ∧
    ∀ i, decodeTableWord 16 n = some i → step (s.withFetchWord 16 n) = endCycle (exec i (s.withFetchWord 16 n))

/-! ### Display -/

/-- 41_display.md R112. -/
def Obligations.ClsClearsEveryPixel : Prop :=
  EncodedAs 0xFFFF#16 0x00E0#16 (fun _ => .cls) ∧
  ∀ s : State, ∃ t, exec .cls s = .next t ∧ (∀ x y, t.pixel x y = false) ∧ t.pc = s.pc + 2#16 ∧
    SameRegsBut [] s t ∧ SameIndex s t ∧ SameStack s t ∧ SameTimers s t ∧ SameMemory s t ∧ SameKeys s t ∧
    SameControl s t

/-- 41_display.md R113, R114, R115 and R116: every pixel the sprite covers is flipped and no other; VF is 1 exactly when
a covered pixel was lit; the coordinates are V[X] and V[Y] before the instruction, X = 0xF and Y = 0xF included; N = 0
draws nothing and cannot fault. -/
def Obligations.DrwFlipsTheCoveredPixelsAndReportsErasure : Prop :=
  EncodedAs 0xF000#16 0xD000#16 (fun w => .drw (xOf w) (yOf w) (nOf w)) ∧
  (∀ (s : State) (x y : Reg) (n : BitVec 4), AccessOk s s.i n.toNat →
    ∃ t, exec (.drw x y n) s = .next t ∧
      (∀ px py, px < 64 → py < 32 →
        (SpriteCovers s x y n px py → t.pixel px py = !s.pixel px py) ∧
        (¬ SpriteCovers s x y n px py → t.pixel px py = s.pixel px py)) ∧
      ((∃ px py, px < 64 ∧ py < 32 ∧ SpriteCovers s x y n px py ∧ s.pixel px py = true) → t.reg vf = 1#8) ∧
      ((¬ ∃ px py, px < 64 ∧ py < 32 ∧ SpriteCovers s x y n px py ∧ s.pixel px py = true) → t.reg vf = 0#8) ∧
      t.pc = s.pc + 2#16 ∧ SameRegsBut [vf] s t ∧ SameIndex s t ∧ SameStack s t ∧ SameTimers s t ∧
      SameMemory s t ∧ SameKeys s t ∧ SameControl s t) ∧
  (∀ (s : State) (x y : Reg) (n : BitVec 4) (a : Addr), LowestBad s s.i n.toNat a →
    exec (.drw x y n) s = .next (Faulted (.memoryOutOfRange s.pc a) s)) ∧
  ∀ (s : State) (x y : Reg), ∃ t, exec (.drw x y 0#4) s = .next t ∧ SameDisplay s t ∧ t.reg vf = 0#8 ∧
    t.pc = s.pc + 2#16

/-- The host's flat view has pixel (x, y) at index 64 * y + x, and every one of the 2048 pixels (from 41_display.md R110;
the layout is the spec's own, D27). -/
def Obligations.TheHostReadsEveryPixel : Prop :=
  ∀ s : State, s.displayList.length = 2048 ∧
    ∀ x y, x < 64 → y < 32 → s.displayList[y * 64 + x]? = some (s.pixel x y)

/-! ### Control transfer -/

/-- 42_control_flow.md R130. -/
def Obligations.RetPopsTheReturnAddress : Prop :=
  EncodedAs 0xFFFF#16 0x00EE#16 (fun _ => .ret) ∧
  ∀ s : State,
    (s.sp = 0#4 → exec .ret s = .next (Faulted (.stackUnderflow s.pc) s)) ∧
    (s.sp ≠ 0#4 → ∃ t, exec .ret s = .next t ∧ t.pc = s.stackAt s.sp ∧ t.sp = s.sp - 1#4 ∧
      (∀ k, t.stackAt k = s.stackAt k) ∧ SameRegsBut [] s t ∧ SameIndex s t ∧ SameTimers s t ∧
      SameMemory s t ∧ SameDisplay s t ∧ SameKeys s t ∧ SameControl s t)

/-- 42_control_flow.md R132. -/
def Obligations.CallPushesTheReturnAddress : Prop :=
  EncodedAs 0xF000#16 0x2000#16 (fun w => .call (nnnOf w)) ∧
  ∀ (s : State) (nnn : BitVec 12),
    (s.sp = 15#4 → exec (.call nnn) s = .next (Faulted (.stackOverflow s.pc) s)) ∧
    (s.sp ≠ 15#4 → ∃ t, exec (.call nnn) s = .next t ∧ t.pc = BitVec.ofNat 16 nnn.toNat ∧ t.sp = s.sp + 1#4 ∧
      t.stackAt (s.sp + 1#4) = s.pc + 2#16 ∧ (∀ k, k ≠ s.sp + 1#4 → t.stackAt k = s.stackAt k) ∧
      SameRegsBut [] s t ∧ SameIndex s t ∧ SameTimers s t ∧ SameMemory s t ∧ SameDisplay s t ∧ SameKeys s t ∧
      SameControl s t)

/-- 42_control_flow.md R131 and R137. -/
def Obligations.JumpsSetThePc : Prop :=
  EncodedAs 0xF000#16 0x1000#16 (fun w => .jp (nnnOf w)) ∧
  EncodedAs 0xF000#16 0xB000#16 (fun w => .jpV0Nnn (nnnOf w)) ∧
  ∀ (s : State) (nnn : BitVec 12),
    (∃ t, exec (.jp nnn) s = .next t ∧ t.pc.toNat = nnn.toNat ∧ RegisterFrame [] s t) ∧
    ∃ t, exec (.jpV0Nnn nnn) s = .next t ∧ t.pc.toNat = nnn.toNat + (s.reg 0).toNat ∧ RegisterFrame [] s t

/-- A call and the return that matches it come back to the word after the call, wherever the subroutine returns from
(from 42_control_flow.md R130 and R132). -/
def Obligations.AReturnComesBackAfterItsCall : Prop :=
  ∀ (s : State) (nnn : BitVec 12) (p : Addr), s.sp ≠ 15#4 →
    ∃ t u, exec (.call nnn) s = .next t ∧ exec .ret (t.setPc p) = .next u ∧ u.pc = s.pc + 2#16 ∧ u.sp = s.sp

/-- 42_control_flow.md R133, R134, R135 and R136. -/
def Obligations.SkipsAddFourOrTwo : Prop :=
  EncodedAs 0xF000#16 0x3000#16 (fun w => .seVxNn (xOf w) (nnOf w)) ∧
  EncodedAs 0xF000#16 0x4000#16 (fun w => .sneVxNn (xOf w) (nnOf w)) ∧
  EncodedAs 0xF00F#16 0x5000#16 (fun w => .seVxVy (xOf w) (yOf w)) ∧
  EncodedAs 0xF00F#16 0x9000#16 (fun w => .sneVxVy (xOf w) (yOf w)) ∧
  (∀ w : Word, familyOf w = 0x5#4 ∨ familyOf w = 0x9#4 → nOf w ≠ 0x0#4 → decodeWord w = none) ∧
  ∀ (s : State) (x y : Reg) (nn : Byte),
    (∃ t, exec (.seVxNn x nn) s = .next t ∧ (s.reg x = nn → t.pc = s.pc + 4#16) ∧
      (s.reg x ≠ nn → t.pc = s.pc + 2#16) ∧ RegisterFrame [] s t) ∧
    (∃ t, exec (.sneVxNn x nn) s = .next t ∧ (s.reg x ≠ nn → t.pc = s.pc + 4#16) ∧
      (s.reg x = nn → t.pc = s.pc + 2#16) ∧ RegisterFrame [] s t) ∧
    (∃ t, exec (.seVxVy x y) s = .next t ∧ (s.reg x = s.reg y → t.pc = s.pc + 4#16) ∧
      (s.reg x ≠ s.reg y → t.pc = s.pc + 2#16) ∧ RegisterFrame [] s t) ∧
    ∃ t, exec (.sneVxVy x y) s = .next t ∧ (s.reg x ≠ s.reg y → t.pc = s.pc + 4#16) ∧
      (s.reg x = s.reg y → t.pc = s.pc + 2#16) ∧ RegisterFrame [] s t

/-! ### ALU -/

/-- 43_alu.md R152 and R153. -/
def Obligations.ImmediatesLoadAndAdd : Prop :=
  EncodedAs 0xF000#16 0x6000#16 (fun w => .ldVxNn (xOf w) (nnOf w)) ∧
  EncodedAs 0xF000#16 0x7000#16 (fun w => .addVxNn (xOf w) (nnOf w)) ∧
  ∀ (s : State) (x : Reg) (nn : Byte),
    (∃ t, exec (.ldVxNn x nn) s = .next t ∧ t.reg x = nn ∧ t.pc = s.pc + 2#16 ∧ RegisterFrame [x] s t) ∧
    ∃ t, exec (.addVxNn x nn) s = .next t ∧ t.reg x = BitVec.ofNat 8 ((s.reg x).toNat + nn.toNat) ∧
      t.pc = s.pc + 2#16 ∧ RegisterFrame [x] s t

/-- 43_alu.md R154, R155, R156 and R157. -/
def Obligations.CopiesAndLogicWriteVxOnly : Prop :=
  EncodedAs 0xF00F#16 0x8000#16 (fun w => .ldVxVy (xOf w) (yOf w)) ∧
  EncodedAs 0xF00F#16 0x8001#16 (fun w => .orVxVy (xOf w) (yOf w)) ∧
  EncodedAs 0xF00F#16 0x8002#16 (fun w => .andVxVy (xOf w) (yOf w)) ∧
  EncodedAs 0xF00F#16 0x8003#16 (fun w => .xorVxVy (xOf w) (yOf w)) ∧
  ∀ (s : State) (x y : Reg),
    (∃ t, exec (.ldVxVy x y) s = .next t ∧ t.reg x = s.reg y ∧ t.pc = s.pc + 2#16 ∧ RegisterFrame [x] s t) ∧
    (∃ t, exec (.orVxVy x y) s = .next t ∧ t.reg x = (s.reg x ||| s.reg y) ∧ t.pc = s.pc + 2#16 ∧
      RegisterFrame [x] s t) ∧
    (∃ t, exec (.andVxVy x y) s = .next t ∧ t.reg x = (s.reg x &&& s.reg y) ∧ t.pc = s.pc + 2#16 ∧
      RegisterFrame [x] s t) ∧
    ∃ t, exec (.xorVxVy x y) s = .next t ∧ t.reg x = (s.reg x ^^^ s.reg y) ∧ t.pc = s.pc + 2#16 ∧
      RegisterFrame [x] s t

/-- 43_alu.md R158, in the default flag order; the other orders are in `FlagOrdersCombineTheTwoWrites`. -/
def Obligations.AddSetsTheCarry : Prop :=
  EncodedAs 0xF00F#16 0x8004#16 (fun w => .addVxVy (xOf w) (yOf w)) ∧
  ∀ (s : State) (x y : Reg), s.cfg.aluFlagOrder = .latchedResultLast →
    ∃ t, exec (.addVxVy x y) s = .next t ∧
      t.reg x = BitVec.ofNat 8 ((s.reg x).toNat + (s.reg y).toNat) ∧
      (x ≠ vf → (s.reg x).toNat + (s.reg y).toNat > 255 → t.reg vf = 1#8) ∧
      (x ≠ vf → (s.reg x).toNat + (s.reg y).toNat ≤ 255 → t.reg vf = 0#8) ∧
      t.pc = s.pc + 2#16 ∧ RegisterFrame [x, vf] s t

/-- 43_alu.md R159 and R161, in the default flag order: the comparison is strict. -/
def Obligations.SubtractionsSetTheStrictGreaterFlag : Prop :=
  EncodedAs 0xF00F#16 0x8005#16 (fun w => .sub (xOf w) (yOf w)) ∧
  EncodedAs 0xF00F#16 0x8007#16 (fun w => .subn (xOf w) (yOf w)) ∧
  ∀ (s : State) (x y : Reg), s.cfg.aluFlagOrder = .latchedResultLast →
    (∃ t, exec (.sub x y) s = .next t ∧
      t.reg x = BitVec.ofInt 8 (((s.reg x).toNat : Int) - ((s.reg y).toNat : Int)) ∧
      (x ≠ vf → (s.reg x).toNat > (s.reg y).toNat → t.reg vf = 1#8) ∧
      (x ≠ vf → (s.reg x).toNat ≤ (s.reg y).toNat → t.reg vf = 0#8) ∧
      t.pc = s.pc + 2#16 ∧ RegisterFrame [x, vf] s t) ∧
    ∃ t, exec (.subn x y) s = .next t ∧
      t.reg x = BitVec.ofInt 8 (((s.reg y).toNat : Int) - ((s.reg x).toNat : Int)) ∧
      (x ≠ vf → (s.reg y).toNat > (s.reg x).toNat → t.reg vf = 1#8) ∧
      (x ≠ vf → (s.reg y).toNat ≤ (s.reg x).toNat → t.reg vf = 0#8) ∧
      t.pc = s.pc + 2#16 ∧ RegisterFrame [x, vf] s t

/-- 43_alu.md R160 and R162, in the default flag order: by one bit, the bit shifted out goes to VF; Y changes
nothing. -/
def Obligations.ShiftsMoveTheLostBitToVf : Prop :=
  EncodedAs 0xF00F#16 0x8006#16 (fun w => .shr (xOf w) (yOf w)) ∧
  EncodedAs 0xF00F#16 0x800E#16 (fun w => .shl (xOf w) (yOf w)) ∧
  ∀ (s : State) (x y : Reg), s.cfg.aluFlagOrder = .latchedResultLast →
    (∃ t, exec (.shr x y) s = .next t ∧ (t.reg x).toNat = (s.reg x).toNat / 2 ∧
      (x ≠ vf → (t.reg vf).toNat = (s.reg x).toNat % 2) ∧ t.pc = s.pc + 2#16 ∧ RegisterFrame [x, vf] s t) ∧
    (∃ t, exec (.shl x y) s = .next t ∧ (t.reg x).toNat = 2 * (s.reg x).toNat % 256 ∧
      (x ≠ vf → (t.reg vf).toNat = (s.reg x).toNat / 128) ∧ t.pc = s.pc + 2#16 ∧ RegisterFrame [x, vf] s t) ∧
    ∀ z, exec (.shr x z) s = exec (.shr x y) s ∧ exec (.shl x z) s = exec (.shl x y) s

/-- 43_alu.md R151: the five flag-writing instructions under each ALU_FLAG_ORDER, for all operands, VF among them; and
when neither operand is VF, the three settings give the same state. -/
def Obligations.FlagOrdersCombineTheTwoWrites : Prop :=
  ∀ (i : Instr) (x y : Reg) (f r : Nat → Nat → Nat) (s : State), aluRule i = some (x, y, f, r) →
    let a := (s.reg x).toNat
    let b := (s.reg y).toNat
    (∃ t, exec i s = .next t ∧ t.pc = s.pc + 2#16 ∧ RegisterFrame [x, vf] s t ∧
      (s.cfg.aluFlagOrder = .latchedResultLast →
        t.reg x = BitVec.ofNat 8 (r a b) ∧ (x ≠ vf → t.reg vf = BitVec.ofNat 8 (f a b))) ∧
      (s.cfg.aluFlagOrder = .latchedFlagLast →
        t.reg vf = BitVec.ofNat 8 (f a b) ∧ (x ≠ vf → t.reg x = BitVec.ofNat 8 (r a b))) ∧
      (s.cfg.aluFlagOrder = .sequential → (x ≠ vf → t.reg vf = BitVec.ofNat 8 (f a b)) ∧
        (i = .addVxVy x y → t.reg x = BitVec.ofNat 8 (r a b)) ∧
        (i ≠ .addVxVy x y →
          t.reg x = BitVec.ofNat 8 (r (if x = vf then f a b else a) (if y = vf then f a b else b))))) ∧
    (x ≠ vf → y ≠ vf → ∀ o : AluFlagOrder, ∃ t, exec i s = .next t ∧
      exec i { s with cfg := { s.cfg with aluFlagOrder := o } } =
        .next { t with cfg := { s.cfg with aluFlagOrder := o } })

/-- 43_alu.md R164: the final values when an operand is VF, row by row and setting by setting. `y` and `x` are registers
other than VF; `a` and `b` are V[X] and V[Y] before the instruction. -/
def Obligations.VfAliasingValues : Prop :=
  ∀ (s : State) (x y : Reg), x ≠ vf → y ≠ vf →
    let F := (s.reg vf).toNat
    let vx := (s.reg x).toNat
    let vy := (s.reg y).toNat
    let carry := fun a b : Nat => if a + b > 255 then 1 else 0
    let gt := fun a b : Nat => if a > b then 1 else 0
    -- 8XY4, X = F
    LeavesIn .latchedResultLast (.addVxVy vf y) s vf (BitVec.ofNat 8 (F + vy)) ∧
    LeavesIn .latchedFlagLast (.addVxVy vf y) s vf (BitVec.ofNat 8 (carry F vy)) ∧
    LeavesIn .sequential (.addVxVy vf y) s vf (BitVec.ofNat 8 (F + vy)) ∧
    -- 8XY4, X = Y = F
    LeavesIn .latchedResultLast (.addVxVy vf vf) s vf (BitVec.ofNat 8 (2 * F)) ∧
    LeavesIn .latchedFlagLast (.addVxVy vf vf) s vf (BitVec.ofNat 8 (F / 128)) ∧
    LeavesIn .sequential (.addVxVy vf vf) s vf (BitVec.ofNat 8 (2 * F)) ∧
    -- 8XY4, Y = F, under every setting
    (∀ o, LeavesIn o (.addVxVy x vf) s x (BitVec.ofNat 8 (vx + F)) ∧
      LeavesIn o (.addVxVy x vf) s vf (BitVec.ofNat 8 (carry vx F))) ∧
    -- 8XY5, X = F
    LeavesIn .latchedResultLast (.sub vf y) s vf (BitVec.ofInt 8 ((F : Int) - vy)) ∧
    LeavesIn .latchedFlagLast (.sub vf y) s vf (BitVec.ofNat 8 (gt F vy)) ∧
    LeavesIn .sequential (.sub vf y) s vf (BitVec.ofInt 8 ((gt F vy : Int) - vy)) ∧
    -- 8XY5, Y = F
    LeavesIn .latchedResultLast (.sub x vf) s x (BitVec.ofInt 8 ((vx : Int) - F)) ∧
    LeavesIn .latchedFlagLast (.sub x vf) s x (BitVec.ofInt 8 ((vx : Int) - F)) ∧
    LeavesIn .sequential (.sub x vf) s x (BitVec.ofInt 8 ((vx : Int) - gt vx F)) ∧
    (∀ o, LeavesIn o (.sub x vf) s vf (BitVec.ofNat 8 (gt vx F))) ∧
    -- 8XY5 and 8XY7, X = Y = F
    (∀ o, LeavesIn o (.sub vf vf) s vf 0#8 ∧ LeavesIn o (.subn vf vf) s vf 0#8) ∧
    -- 8XY6, X = F
    (∀ z, LeavesIn .latchedResultLast (.shr vf z) s vf (BitVec.ofNat 8 (F / 2)) ∧
      LeavesIn .latchedFlagLast (.shr vf z) s vf (BitVec.ofNat 8 (F % 2)) ∧
      LeavesIn .sequential (.shr vf z) s vf 0#8) ∧
    -- 8XY7, X = F
    LeavesIn .latchedResultLast (.subn vf y) s vf (BitVec.ofInt 8 ((vy : Int) - F)) ∧
    LeavesIn .latchedFlagLast (.subn vf y) s vf (BitVec.ofNat 8 (gt vy F)) ∧
    LeavesIn .sequential (.subn vf y) s vf (BitVec.ofInt 8 ((vy : Int) - gt vy F)) ∧
    -- 8XY7, Y = F
    LeavesIn .latchedResultLast (.subn x vf) s x (BitVec.ofInt 8 ((F : Int) - vx)) ∧
    LeavesIn .latchedFlagLast (.subn x vf) s x (BitVec.ofInt 8 ((F : Int) - vx)) ∧
    LeavesIn .sequential (.subn x vf) s x (BitVec.ofInt 8 ((gt F vx : Int) - vx)) ∧
    (∀ o, LeavesIn o (.subn x vf) s vf (BitVec.ofNat 8 (gt F vx))) ∧
    -- 8XYE, X = F
    (∀ z, LeavesIn .latchedResultLast (.shl vf z) s vf (BitVec.ofNat 8 (2 * F)) ∧
      LeavesIn .latchedFlagLast (.shl vf z) s vf (BitVec.ofNat 8 (F / 128)) ∧
      LeavesIn .sequential (.shl vf z) s vf (BitVec.ofNat 8 (2 * (F / 128))))

/-- 43_alu.md R163: the draw masked by NN, for every draw; the draw of `exec` is the free value of assumption 3, and no
clause says anything of its value. -/
def Obligations.RndMasksAFreeDraw : Prop :=
  EncodedAs 0xF000#16 0xC000#16 (fun w => .rnd (xOf w) (nnOf w)) ∧
  (∀ (s : State) (x : Reg) (nn rand : Byte), (rndWith rand x nn s).reg x = rand &&& nn) ∧
  ∀ (s : State) (x : Reg) (nn : Byte), ∃ t, exec (.rnd x nn) s = .next t ∧
    t.reg x = Config.randByte s.draws &&& nn ∧ t.pc = s.pc + 2#16 ∧ SameRegsBut [x] s t ∧ SameIndex s t ∧
    SameStack s t ∧ SameTimers s t ∧ SameMemory s t ∧ SameDisplay s t ∧ SameKeys s t ∧
    t.status = s.status ∧ t.cfg = s.cfg ∧ t.out = s.out ∧ t.draws = s.draws + 1

/-! ### Index register and memory -/

/-- 44_index_memory.md R180 and R182. -/
def Obligations.IndexLoadsSetI : Prop :=
  EncodedAs 0xF000#16 0xA000#16 (fun w => .ldINnn (nnnOf w)) ∧
  EncodedAs 0xF0FF#16 0xF029#16 (fun w => .ldFVx (xOf w)) ∧
  (∀ (s : State) (nnn : BitVec 12), ∃ t, exec (.ldINnn nnn) s = .next t ∧ t.i.toNat = nnn.toNat ∧
    t.pc = s.pc + 2#16 ∧ SameRegsBut [] s t ∧ SameStack s t ∧ SameTimers s t ∧ SameMemory s t ∧
    SameDisplay s t ∧ SameKeys s t ∧ SameControl s t) ∧
  ∀ (s : State) (x : Reg), ∃ t, exec (.ldFVx x) s = .next t ∧ t.i.toNat = 5 * (s.reg x).toNat ∧
    t.pc = s.pc + 2#16 ∧ SameRegsBut [] s t ∧ SameStack s t ∧ SameTimers s t ∧ SameMemory s t ∧
    SameDisplay s t ∧ SameKeys s t ∧ SameControl s t

/-- 44_index_memory.md R181. -/
def Obligations.AddToISetsVfPastFff : Prop :=
  EncodedAs 0xF0FF#16 0xF01E#16 (fun w => .addIVx (xOf w)) ∧
  ∀ (s : State) (x : Reg), ∃ t, exec (.addIVx x) s = .next t ∧
    t.i.toNat = (s.i.toNat + (s.reg x).toNat) % 65536 ∧
    (t.i.toNat > 0xFFF → t.reg vf = 1#8) ∧ (t.i.toNat ≤ 0xFFF → t.reg vf = s.reg vf) ∧
    t.pc = s.pc + 2#16 ∧ SameRegsBut [vf] s t ∧ SameStack s t ∧ SameTimers s t ∧ SameMemory s t ∧
    SameDisplay s t ∧ SameKeys s t ∧ SameControl s t

/-- 44_index_memory.md R183: the digits at I, I + 1 and I + 2, every other byte as before. -/
def Obligations.BcdStoresTheThreeDigits : Prop :=
  EncodedAs 0xF0FF#16 0xF033#16 (fun w => .ldBVx (xOf w)) ∧
  (∀ (s : State) (x : Reg), AccessOk s s.i 3 → ∃ t, exec (.ldBVx x) s = .next t ∧
    (t.readByte s.i).toNat = (s.reg x).toNat / 100 ∧
    (t.readByte (s.i + 1#16)).toNat = (s.reg x).toNat / 10 % 10 ∧
    (t.readByte (s.i + 2#16)).toNat = (s.reg x).toNat % 10 ∧
    (∀ a, (∀ k, k < 3 → physAddr a ≠ physAddr (byteAddr s.i k)) → t.readByte a = s.readByte a) ∧
    t.pc = s.pc + 2#16 ∧ SameRegsBut [] s t ∧ SameIndex s t ∧ SameStack s t ∧ SameTimers s t ∧
    SameDisplay s t ∧ SameKeys s t ∧ SameControl s t) ∧
  ∀ (s : State) (x : Reg) (a : Addr), LowestBad s s.i 3 a →
    exec (.ldBVx x) s = .next (Faulted (.memoryOutOfRange s.pc a) s)

/-- 44_index_memory.md R184: V0..VX at I, every other byte as before. -/
def Obligations.RegistersAreStoredAtI : Prop :=
  EncodedAs 0xF0FF#16 0xF055#16 (fun w => .ldMiVx (xOf w)) ∧
  (∀ (s : State) (x : Reg), AccessOk s s.i (x.val + 1) → ∃ t, exec (.ldMiVx x) s = .next t ∧
    (∀ k : Reg, k ≤ x → t.readByte (s.i + BitVec.ofNat 16 k.val) = s.reg k) ∧
    (∀ a, (∀ k, k < x.val + 1 → physAddr a ≠ physAddr (byteAddr s.i k)) → t.readByte a = s.readByte a) ∧
    t.pc = s.pc + 2#16 ∧ SameRegsBut [] s t ∧ SameIndex s t ∧ SameStack s t ∧ SameTimers s t ∧
    SameDisplay s t ∧ SameKeys s t ∧ SameControl s t) ∧
  ∀ (s : State) (x : Reg) (a : Addr), LowestBad s s.i (x.val + 1) a →
    exec (.ldMiVx x) s = .next (Faulted (.memoryOutOfRange s.pc a) s)

/-- 44_index_memory.md R185: V0..VX from memory at I, registers above X and I unchanged; and a store followed by a load
of the same range from the same I restores V0..VX, whatever the registers held in between. -/
def Obligations.RegistersAreLoadedFromI : Prop :=
  EncodedAs 0xF0FF#16 0xF065#16 (fun w => .ldVxMi (xOf w)) ∧
  (∀ (s : State) (x : Reg), AccessOk s s.i (x.val + 1) → ∃ t, exec (.ldVxMi x) s = .next t ∧
    (∀ k : Reg, k ≤ x → t.reg k = s.readByte (s.i + BitVec.ofNat 16 k.val)) ∧
    (∀ k : Reg, ¬ k ≤ x → t.reg k = s.reg k) ∧
    t.pc = s.pc + 2#16 ∧ SameIndex s t ∧ SameStack s t ∧ SameTimers s t ∧ SameMemory s t ∧
    SameDisplay s t ∧ SameKeys s t ∧ SameControl s t) ∧
  (∀ (s : State) (x : Reg) (a : Addr), LowestBad s s.i (x.val + 1) a →
    exec (.ldVxMi x) s = .next (Faulted (.memoryOutOfRange s.pc a) s)) ∧
  ∀ (s : State) (x : Reg), AccessOk s s.i (x.val + 1) → ∃ t, exec (.ldMiVx x) s = .next t ∧
    ∀ u : State, u.i = s.i → u.cfg = s.cfg → u.mem = t.mem → ∃ w, exec (.ldVxMi x) u = .next w ∧
      ∀ k : Reg, k ≤ x → w.reg k = s.reg k

/-! ### Keys -/

/-- 45_input.md R201, R202 and R204. -/
def Obligations.KeySkipsReadTheKeyVxNames : Prop :=
  EncodedAs 0xF0FF#16 0xE09E#16 (fun w => .skp (xOf w)) ∧
  EncodedAs 0xF0FF#16 0xE0A1#16 (fun w => .sknp (xOf w)) ∧
  (∀ (s : State) (x k : Reg), s.reg x = BitVec.ofNat 8 k.val →
    (∃ t, exec (.skp x) s = .next t ∧ (s.key k = true → t.pc = s.pc + 4#16) ∧
      (s.key k = false → t.pc = s.pc + 2#16) ∧ RegisterFrame [] s t) ∧
    ∃ t, exec (.sknp x) s = .next t ∧ (s.key k = false → t.pc = s.pc + 4#16) ∧
      (s.key k = true → t.pc = s.pc + 2#16) ∧ RegisterFrame [] s t) ∧
  ∀ (s : State) (x : Reg), (s.reg x).toNat > 0xF →
    exec (.skp x) s = .next (Faulted (.keyIndexOutOfRange s.pc (s.reg x)) s) ∧
    exec (.sknp x) s = .next (Faulted (.keyIndexOutOfRange s.pc (s.reg x)) s)

/-- 45_input.md R203: the least pressed key is taken and cleared, the others stay; with no key pressed the instruction
holds and changes nothing, while its cycle still steps the timers. -/
def Obligations.TheKeyWaitTakesTheLeastKeyOrHolds : Prop :=
  EncodedAs 0xF0FF#16 0xF00A#16 (fun w => .ldVxK (xOf w)) ∧
  (∀ (s : State) (x k : Reg), s.key k = true → (∀ j, j < k → s.key j = false) →
    ∃ t, exec (.ldVxK x) s = .next t ∧ t.reg x = BitVec.ofNat 8 k.val ∧ t.key k = false ∧
      (∀ j, j ≠ k → t.key j = s.key j) ∧ t.pc = s.pc + 2#16 ∧ SameRegsBut [x] s t ∧ SameIndex s t ∧
      SameStack s t ∧ SameTimers s t ∧ SameMemory s t ∧ SameDisplay s t ∧ SameControl s t) ∧
  ∀ (s : State) (x : Reg), (∀ k, s.key k = false) → exec (.ldVxK x) s = .next s ∧
    (s.status = .running → AtPc s (.ldVxK x) →
      step s = .next { s with dt := counted s.dt, st := counted s.st, out := .ok (decide (s.st ≠ 0#8)) })

/-- The core writes a key only by clearing a pressed one in LD Vx, K; the host replaces the whole vector, and a nonzero
byte is pressed (from 10_state.md R30 and 45_input.md R200). -/
def Obligations.KeysAreWrittenByTheHostAndCleared : Prop :=
  (∀ (i : Instr) (s t : State) (k : Reg), exec i s = .next t → t.key k ≠ s.key k →
    (∃ x, i = .ldVxK x) ∧ s.key k = true ∧ t.key k = false) ∧
  ∀ (s : State) (ks : Vector Bool 16) (bs : Vector Byte 16) (k : Reg),
    (s.writeKeys ks).key k = ks[k.val] ∧ ((s.writeKeyBytes bs).key k = true ↔ bs[k.val] ≠ 0#8)

/-! ### Timers -/

/-- 46_timers.md R210: DT before this cycle's timer step. -/
def Obligations.ReadingDtGivesItBeforeTheTimerStep : Prop :=
  EncodedAs 0xF0FF#16 0xF007#16 (fun w => .ldVxDt (xOf w)) ∧
  (∀ (s : State) (x : Reg), ∃ t, exec (.ldVxDt x) s = .next t ∧ t.reg x = s.dt ∧ t.pc = s.pc + 2#16 ∧
    RegisterFrame [x] s t) ∧
  ∀ (s : State) (x : Reg), s.status = .running → AtPc s (.ldVxDt x) →
    ∃ t, step s = .next t ∧ t.reg x = s.dt ∧ t.dt.toNat = s.dt.toNat - 1

/-- 46_timers.md R211: DT is V[X], then one less (or 0) at the end of the cycle. -/
def Obligations.SettingDtIsFollowedByTheTimerStep : Prop :=
  EncodedAs 0xF0FF#16 0xF015#16 (fun w => .ldDtVx (xOf w)) ∧
  (∀ (s : State) (x : Reg), ∃ t, exec (.ldDtVx x) s = .next t ∧ t.dt = s.reg x ∧ t.st = s.st ∧
    t.pc = s.pc + 2#16 ∧ SameRegsBut [] s t ∧ SameIndex s t ∧ SameStack s t ∧ SameMemory s t ∧
    SameDisplay s t ∧ SameKeys s t ∧ SameControl s t) ∧
  ∀ (s : State) (x : Reg), s.status = .running → AtPc s (.ldDtVx x) →
    ∃ t, step s = .next t ∧ t.status = .running ∧ t.dt.toNat = (s.reg x).toNat - 1

/-- 46_timers.md R212: ST is V[X]; with V[X] = n, this cycle and the next ones without a fault, none of which sets ST
again, emit the tone exactly n times in all, and ST is n - j at the end of cycle j. -/
def Obligations.SettingStSoundsForThatManyCycles : Prop :=
  EncodedAs 0xF0FF#16 0xF018#16 (fun w => .ldStVx (xOf w)) ∧
  (∀ (s : State) (x : Reg), ∃ t, exec (.ldStVx x) s = .next t ∧ t.st = s.reg x ∧ t.dt = s.dt ∧
    t.pc = s.pc + 2#16 ∧ SameRegsBut [] s t ∧ SameIndex s t ∧ SameStack s t ∧ SameMemory s t ∧
    SameDisplay s t ∧ SameKeys s t ∧ SameControl s t) ∧
  ∀ (σ : Nat → State) (m : Nat) (x : Reg), Cycles σ m → AtPc (σ 0) (.ldStVx x) →
    (∀ j, 0 < j → j < m → ∀ z, ¬ AtPc (σ j) (.ldStVx z)) →
    ∀ j, j < m → (σ (j + 1)).out = .ok (decide (j < ((σ 0).reg x).toNat)) ∧
      (σ (j + 1)).st.toNat = ((σ 0).reg x).toNat - (j + 1)

/-- 70_reset_and_hazards.md R256: after LD DT, Vx with V[X] = n in cycle 1, DT is n - j at the end of cycle j, and an
LD Vx, DT in cycle j + 1 reads n - j, while no cycle faults and none sets DT again; after LD ST, Vx the same cycle ends
with ST = n - 1. -/
def Obligations.ATimerCountsDownFromItsWrite : Prop :=
  (∀ (σ : Nat → State) (m : Nat) (x : Reg), Cycles σ m → AtPc (σ 0) (.ldDtVx x) →
    (∀ j, 0 < j → j < m → ∀ z, ¬ AtPc (σ j) (.ldDtVx z)) →
    ∀ j, j < m → (σ (j + 1)).dt.toNat = ((σ 0).reg x).toNat - (j + 1) ∧
      ∀ z, 0 < j → AtPc (σ j) (.ldVxDt z) → ((σ (j + 1)).reg z).toNat = ((σ 0).reg x).toNat - j) ∧
  ∀ (s : State) (x : Reg), s.status = .running → AtPc s (.ldStVx x) →
    ∃ t, step s = .next t ∧ t.status = .running ∧ t.st.toNat = (s.reg x).toNat - 1

/-! ### Creation, load, reset -/

/-- 10_state.md R34 and 70_reset_and_hazards.md R250, for every FONT_TABLE. -/
def Obligations.CreationState : Prop :=
  ∀ cfg : Config,
    let s := State.createdWith cfg
    s.cfg = cfg ∧ (∀ r, s.reg r = 0#8) ∧ s.i = 0#16 ∧ s.pc = 0#16 ∧ s.sp = 0#4 ∧ (∀ k, s.stackAt k = 0#16) ∧
      s.dt = 0#8 ∧ s.st = 0#8 ∧ (∀ x y, s.pixel x y = false) ∧ (∀ k, s.key k = false) ∧ s.status = .running ∧
      (∀ (a : Addr) (h : a.toNat < 80), s.readByte a = cfg.font[a.toNat]) ∧
      ∀ a : Addr, 80 ≤ a.toNat → a.toNat < 0x1000 → s.readByte a = 0#8

/-- 10_state.md R35, 70_reset_and_hazards.md R251 and R252: load from every state, a faulted one too. -/
def Obligations.LoadGivesTheLoadState : Prop :=
  ∀ (s : State) (img : List Byte),
    (img.length ≤ 3584 → ∃ t, s.load img = .ok t ∧ (∀ r, t.reg r = 0#8) ∧ t.i = 0#16 ∧ t.pc = 0x200#16 ∧
      t.sp = 0#4 ∧ (∀ k, t.stackAt k = 0#16) ∧ t.dt = 0#8 ∧ t.st = 0#8 ∧ (∀ x y, t.pixel x y = false) ∧
      SameKeys s t ∧ t.status = .running ∧ t.cfg = s.cfg ∧
      (∀ (a : Addr) (h : a.toNat < 80), t.readByte a = s.cfg.font[a.toNat]) ∧
      (∀ (a : Addr) (j : Nat) (h : j < img.length), a.toNat = 0x200 + j → t.readByte a = img[j]) ∧
      ∀ a : Addr, 80 ≤ a.toNat → a.toNat < 0x1000 → ¬ (0x200 ≤ a.toNat ∧ a.toNat < 0x200 + img.length) →
        t.readByte a = s.readByte a) ∧
    (img.length > 3584 → s.load img = .romTooLarge img.length)

/-- The model's reset state is the load state of an empty image on a created instance (assumption 4), so PC is 0x200
(from 10_state.md R35 and 20_memory.md R51). -/
def Obligations.ResetIsAnEmptyLoadAfterCreation : Prop :=
  State.created.load [] = .ok State.reset ∧ State.reset.pc = 0x200#16 ∧ State.reset.mem = []

/-- 70_reset_and_hazards.md R254: a cycle before any load fetches the font bytes at 0x000 and 0x001; with the bytes of
the default FONT_TABLE there (the premise), it faults. -/
def Obligations.ACycleBeforeAnyLoadFaults : Prop :=
  ∀ cfg : Config, cfg.font[0] = 0xF0#8 → cfg.font[1] = 0x90#8 →
    step (State.createdWith cfg) =
      .next (Faulted (.unsupportedInstruction 0#16 0xF090#16) (State.createdWith cfg))
end

