-- ==== Sys2Proof/Laws/Memory.lean ====
section
/-! SUPPORT. The laws of memory: a read after a write to the same address gives the byte written, a write leaves every
other address alone, and every operation keeps the canonical form. -/

namespace Sys2Proof.Machine

variable (font : Font)

theorem Memory.find_erase (m : Memory) (a b : Nat) :
    (Memory.erase m a).find b = if b = a then none else m.find b := by
  induction m with
  | nil => simp [Memory.erase, Memory.find]
  | cons c m ih =>
    simp only [Memory.erase, Memory.find]
    split
    · rename_i h
      rw [ih]
      split
      · rfl
      · rename_i hb
        rw [if_neg (fun hc => hb (hc.symm.trans h))]
    · rename_i h
      simp only [Memory.find]
      split
      · rename_i hc
        rw [if_neg (fun hb => h (hc.trans hb))]
      · exact ih

theorem Memory.find_insert (m : Memory) (a b : Nat) (v : Byte) (h : m.find a = none) :
    (Memory.insert m a v).find b = if b = a then some v else m.find b := by
  induction m with
  | nil =>
    by_cases hb : b = a
    · simp [Memory.insert, Memory.find, hb]
    · simp [Memory.insert, Memory.find, hb, Ne.symm hb]
  | cons c m ih =>
    simp only [Memory.find] at h
    split at h
    · exact absurd h (by simp)
    · rename_i hca
      simp only [Memory.insert]
      split
      · by_cases hb : b = a
        · simp [Memory.find, hb]
        · simp [Memory.find, hb, Ne.symm hb]
      · simp only [Memory.find]
        split
        · rename_i hc
          rw [if_neg (fun hb => hca (hc.trans hb))]
        · exact ih h

/-- A read after a write to the same address gives the byte written. -/
@[simp] theorem Memory.get_set_self (m : Memory) (a : Nat) (v : Byte) :
    (Memory.set font m a v).get font a = v := by
  simp only [Memory.set]
  split
  · rename_i h
    simp [Memory.get, Memory.find_erase, h]
  · simp [Memory.get, Memory.find_insert, Memory.find_erase]

/-- A write leaves every other address alone. -/
theorem Memory.get_set_of_ne (m : Memory) {a b : Nat} (v : Byte) (h : b ≠ a) :
    (Memory.set font m a v).get font b = m.get font b := by
  simp only [Memory.set]
  split <;> simp [Memory.get, Memory.find_insert, Memory.find_erase, h]

theorem Memory.get_set (m : Memory) (a b : Nat) (v : Byte) :
    (Memory.set font m a v).get font b = if b = a then v else m.get font b := by
  split
  · rename_i h
    subst h
    exact Memory.get_set_self font m b v
  · rename_i h
    exact Memory.get_set_of_ne font m v h

@[simp] theorem Memory.get_nil (a : Nat) : Memory.get font [] a = unlistedByte font a := rfl

/-- What a run of writes leaves at an address: the byte of the run that falls there, else what was there. -/
theorem Memory.get_setBytes (bs : List Byte) : ∀ (m : Memory) (a b : Nat),
    (Memory.setBytes font m a bs).get font b =
      if h : a ≤ b ∧ b - a < bs.length then bs[b - a]'h.2 else m.get font b := by
  induction bs with
  | nil => intro m a b; simp [Memory.setBytes]
  | cons x xs ih =>
    intro m a b
    simp only [Memory.setBytes, ih, Memory.get_set]
    by_cases hab : b = a
    · subst hab
      simp
    · by_cases hlt : a + 1 ≤ b
      · have h1 : b - a = (b - (a + 1)) + 1 := by omega
        by_cases hin : b - (a + 1) < xs.length
        · rw [dif_pos ⟨hlt, hin⟩, dif_pos ⟨by omega, by simp; omega⟩]
          simp [h1]
        · rw [dif_neg (fun h => hin h.2), dif_neg (fun h => hin (by have := h.2; simp at this; omega)), if_neg hab]
      · rw [dif_neg (fun h => hlt h.1), dif_neg (fun h => hab (by omega)), if_neg hab]

/-! ### The canonical form -/

theorem Memory.risingAbove_weaken {m : Memory} {l : Nat} {lo : Option Nat}
    (h : Memory.risingAbove (some l) m = true) (hl : ∀ k, lo = some k → k ≤ l) :
    Memory.risingAbove lo m = true := by
  cases m with
  | nil => rfl
  | cons c m =>
    simp only [Memory.risingAbove, Bool.and_eq_true, decide_eq_true_eq] at h ⊢
    refine ⟨?_, h.2⟩
    cases lo with
    | none => rfl
    | some k => simpa using Nat.lt_of_le_of_lt (hl k rfl) h.1

theorem Memory.risingAbove_erase {m : Memory} {lo : Option Nat} (a : Nat)
    (h : Memory.risingAbove lo m = true) : Memory.risingAbove lo (Memory.erase m a) = true := by
  induction m generalizing lo with
  | nil => exact h
  | cons c m ih =>
    simp only [Memory.erase]
    have h' := h
    simp only [Memory.risingAbove, Bool.and_eq_true] at h'
    split
    · refine ih (Memory.risingAbove_weaken h'.2 fun k hk => ?_)
      subst hk
      exact Nat.le_of_lt (by simpa using h'.1)
    · simp only [Memory.risingAbove, Bool.and_eq_true]
      exact ⟨h'.1, ih h'.2⟩

theorem Memory.risingAbove_insert {m : Memory} {lo : Option Nat} (a : Nat) (v : Byte)
    (h : Memory.risingAbove lo m = true) (hlo : ∀ k, lo = some k → k < a) (hm : m.find a = none) :
    Memory.risingAbove lo (Memory.insert m a v) = true := by
  induction m generalizing lo with
  | nil =>
    cases lo with
    | none => rfl
    | some k => simpa [Memory.insert, Memory.risingAbove] using hlo k rfl
  | cons c m ih =>
    simp only [Memory.risingAbove, Bool.and_eq_true] at h
    simp only [Memory.find] at hm
    split at hm
    · exact absurd hm (by simp)
    · rename_i hne
      simp only [Memory.insert]
      split
      · rename_i hlt
        simp only [Memory.risingAbove, Bool.and_eq_true]
        refine ⟨?_, by simpa using hlt, h.2⟩
        cases lo with
        | none => rfl
        | some k => simpa using hlo k rfl
      · rename_i hlt
        simp only [Memory.risingAbove, Bool.and_eq_true]
        exact ⟨h.1, ih h.2 (fun k hk => by cases hk; omega) hm⟩

theorem Memory.all_erase {m : Memory} {p : Host.Cell → Bool} (a : Nat) (h : m.all p = true) :
    (Memory.erase m a).all p = true := by
  induction m with
  | nil => rfl
  | cons c m ih =>
    simp only [List.all_cons, Bool.and_eq_true] at h
    simp only [Memory.erase]
    split
    · exact ih h.2
    · simp [h.1, ih h.2]

theorem Memory.all_insert {m : Memory} {p : Host.Cell → Bool} (a : Nat) (v : Byte) (h : m.all p = true)
    (hp : p (a, v) = true) : (Memory.insert m a v).all p = true := by
  induction m with
  | nil => simp [Memory.insert, hp]
  | cons c m ih =>
    simp only [List.all_cons, Bool.and_eq_true] at h
    simp only [Memory.insert]
    split
    · simp [h.1, h.2, hp]
    · simp [h.1, ih h.2]

/-- A write to an address of memory keeps the canonical form. -/
theorem Memory.wf_set {m : Memory} {a : Nat} (v : Byte) (h : m.wf font = true) (ha : a < memSize) :
    (Memory.set font m a v).wf font = true := by
  simp only [Memory.wf, Bool.and_eq_true] at h
  simp only [Memory.set]
  split
  · simp only [Memory.wf, Bool.and_eq_true]
    exact ⟨Memory.risingAbove_erase a h.1, Memory.all_erase a h.2⟩
  · rename_i hv
    simp only [Memory.wf, Bool.and_eq_true]
    refine ⟨Memory.risingAbove_insert a v (Memory.risingAbove_erase a h.1) (fun k hk => by cases hk) ?_, ?_⟩
    · simp [Memory.find_erase]
    · exact Memory.all_insert a v (Memory.all_erase a h.2) (by simp [ha, hv])

/-- A run of writes inside memory keeps the canonical form. -/
theorem Memory.wf_setBytes (bs : List Byte) : ∀ {m : Memory} {a : Nat}, m.wf font = true →
    a + bs.length ≤ memSize → (Memory.setBytes font m a bs).wf font = true := by
  induction bs with
  | nil => intro m a h _; exact h
  | cons b bs ih =>
    intro m a h hl
    simp only [List.length_cons] at hl
    exact ih (Memory.wf_set font b h (by omega)) (by omega)

theorem Memory.wf_nil : Memory.wf font [] = true := rfl

end Sys2Proof.Machine
end

