-- ==== Sys2Proof/Laws/State.lean ====
section
/-! SUPPORT. One lemma per field per update of State, and per accessor per update that leaves it alone, all by rfl, so
that no proof unfolds a record update. What an accessor reads of its own update is in Laws/Accessors.lean. -/

namespace Sys2Proof.Machine

variable (s : State)

@[simp] theorem State.setReg_v (r : Reg) (b : Byte) : (s.setReg r b).v = s.v.set r.val b := rfl
@[simp] theorem State.setReg_pc (r : Reg) (b : Byte) : (s.setReg r b).pc = s.pc := rfl
@[simp] theorem State.setReg_i (r : Reg) (b : Byte) : (s.setReg r b).i = s.i := rfl
@[simp] theorem State.setReg_stack (r : Reg) (b : Byte) : (s.setReg r b).stack = s.stack := rfl
@[simp] theorem State.setReg_sp (r : Reg) (b : Byte) : (s.setReg r b).sp = s.sp := rfl
@[simp] theorem State.setReg_dt (r : Reg) (b : Byte) : (s.setReg r b).dt = s.dt := rfl
@[simp] theorem State.setReg_st (r : Reg) (b : Byte) : (s.setReg r b).st = s.st := rfl
@[simp] theorem State.setReg_mem (r : Reg) (b : Byte) : (s.setReg r b).mem = s.mem := rfl
@[simp] theorem State.setReg_display (r : Reg) (b : Byte) : (s.setReg r b).display = s.display := rfl
@[simp] theorem State.setReg_keys (r : Reg) (b : Byte) : (s.setReg r b).keys = s.keys := rfl
@[simp] theorem State.setReg_status (r : Reg) (b : Byte) : (s.setReg r b).status = s.status := rfl
@[simp] theorem State.setReg_cfg (r : Reg) (b : Byte) : (s.setReg r b).cfg = s.cfg := rfl
@[simp] theorem State.setReg_out (r : Reg) (b : Byte) : (s.setReg r b).out = s.out := rfl
@[simp] theorem State.setReg_draws (r : Reg) (b : Byte) : (s.setReg r b).draws = s.draws := rfl
@[simp] theorem State.stackAt_setReg (r : Reg) (b : Byte) (k' : BitVec 4) : (s.setReg r b).stackAt k' = s.stackAt k' := rfl
@[simp] theorem State.key_setReg (r : Reg) (b : Byte) (k' : Reg) : (s.setReg r b).key k' = s.key k' := rfl
@[simp] theorem State.pixel_setReg (r : Reg) (b : Byte) (x y : Nat) : (s.setReg r b).pixel x y = s.pixel x y := rfl
@[simp] theorem State.readByte_setReg (r : Reg) (b : Byte) (a' : Addr) : (s.setReg r b).readByte a' = s.readByte a' := rfl
@[simp] theorem State.firstBad_setReg (r : Reg) (b : Byte) (a' : Addr) (n : Nat) : (s.setReg r b).firstBad a' n = s.firstBad a' n := rfl

@[simp] theorem State.setI_v (a : Addr) : (s.setI a).v = s.v := rfl
@[simp] theorem State.setI_pc (a : Addr) : (s.setI a).pc = s.pc := rfl
@[simp] theorem State.setI_i (a : Addr) : (s.setI a).i = a := rfl
@[simp] theorem State.setI_stack (a : Addr) : (s.setI a).stack = s.stack := rfl
@[simp] theorem State.setI_sp (a : Addr) : (s.setI a).sp = s.sp := rfl
@[simp] theorem State.setI_dt (a : Addr) : (s.setI a).dt = s.dt := rfl
@[simp] theorem State.setI_st (a : Addr) : (s.setI a).st = s.st := rfl
@[simp] theorem State.setI_mem (a : Addr) : (s.setI a).mem = s.mem := rfl
@[simp] theorem State.setI_display (a : Addr) : (s.setI a).display = s.display := rfl
@[simp] theorem State.setI_keys (a : Addr) : (s.setI a).keys = s.keys := rfl
@[simp] theorem State.setI_status (a : Addr) : (s.setI a).status = s.status := rfl
@[simp] theorem State.setI_cfg (a : Addr) : (s.setI a).cfg = s.cfg := rfl
@[simp] theorem State.setI_out (a : Addr) : (s.setI a).out = s.out := rfl
@[simp] theorem State.setI_draws (a : Addr) : (s.setI a).draws = s.draws := rfl
@[simp] theorem State.reg_setI (a : Addr) (r' : Reg) : (s.setI a).reg r' = s.reg r' := rfl
@[simp] theorem State.stackAt_setI (a : Addr) (k' : BitVec 4) : (s.setI a).stackAt k' = s.stackAt k' := rfl
@[simp] theorem State.key_setI (a : Addr) (k' : Reg) : (s.setI a).key k' = s.key k' := rfl
@[simp] theorem State.pixel_setI (a : Addr) (x y : Nat) : (s.setI a).pixel x y = s.pixel x y := rfl
@[simp] theorem State.readByte_setI (a : Addr) (a' : Addr) : (s.setI a).readByte a' = s.readByte a' := rfl
@[simp] theorem State.firstBad_setI (a : Addr) (a' : Addr) (n : Nat) : (s.setI a).firstBad a' n = s.firstBad a' n := rfl

@[simp] theorem State.setPc_v (a : Addr) : (s.setPc a).v = s.v := rfl
@[simp] theorem State.setPc_pc (a : Addr) : (s.setPc a).pc = a := rfl
@[simp] theorem State.setPc_i (a : Addr) : (s.setPc a).i = s.i := rfl
@[simp] theorem State.setPc_stack (a : Addr) : (s.setPc a).stack = s.stack := rfl
@[simp] theorem State.setPc_sp (a : Addr) : (s.setPc a).sp = s.sp := rfl
@[simp] theorem State.setPc_dt (a : Addr) : (s.setPc a).dt = s.dt := rfl
@[simp] theorem State.setPc_st (a : Addr) : (s.setPc a).st = s.st := rfl
@[simp] theorem State.setPc_mem (a : Addr) : (s.setPc a).mem = s.mem := rfl
@[simp] theorem State.setPc_display (a : Addr) : (s.setPc a).display = s.display := rfl
@[simp] theorem State.setPc_keys (a : Addr) : (s.setPc a).keys = s.keys := rfl
@[simp] theorem State.setPc_status (a : Addr) : (s.setPc a).status = s.status := rfl
@[simp] theorem State.setPc_cfg (a : Addr) : (s.setPc a).cfg = s.cfg := rfl
@[simp] theorem State.setPc_out (a : Addr) : (s.setPc a).out = s.out := rfl
@[simp] theorem State.setPc_draws (a : Addr) : (s.setPc a).draws = s.draws := rfl
@[simp] theorem State.reg_setPc (a : Addr) (r' : Reg) : (s.setPc a).reg r' = s.reg r' := rfl
@[simp] theorem State.stackAt_setPc (a : Addr) (k' : BitVec 4) : (s.setPc a).stackAt k' = s.stackAt k' := rfl
@[simp] theorem State.key_setPc (a : Addr) (k' : Reg) : (s.setPc a).key k' = s.key k' := rfl
@[simp] theorem State.pixel_setPc (a : Addr) (x y : Nat) : (s.setPc a).pixel x y = s.pixel x y := rfl
@[simp] theorem State.readByte_setPc (a : Addr) (a' : Addr) : (s.setPc a).readByte a' = s.readByte a' := rfl
@[simp] theorem State.firstBad_setPc (a : Addr) (a' : Addr) (n : Nat) : (s.setPc a).firstBad a' n = s.firstBad a' n := rfl

@[simp] theorem State.setSp_v (k : BitVec 4) : (s.setSp k).v = s.v := rfl
@[simp] theorem State.setSp_pc (k : BitVec 4) : (s.setSp k).pc = s.pc := rfl
@[simp] theorem State.setSp_i (k : BitVec 4) : (s.setSp k).i = s.i := rfl
@[simp] theorem State.setSp_stack (k : BitVec 4) : (s.setSp k).stack = s.stack := rfl
@[simp] theorem State.setSp_sp (k : BitVec 4) : (s.setSp k).sp = k := rfl
@[simp] theorem State.setSp_dt (k : BitVec 4) : (s.setSp k).dt = s.dt := rfl
@[simp] theorem State.setSp_st (k : BitVec 4) : (s.setSp k).st = s.st := rfl
@[simp] theorem State.setSp_mem (k : BitVec 4) : (s.setSp k).mem = s.mem := rfl
@[simp] theorem State.setSp_display (k : BitVec 4) : (s.setSp k).display = s.display := rfl
@[simp] theorem State.setSp_keys (k : BitVec 4) : (s.setSp k).keys = s.keys := rfl
@[simp] theorem State.setSp_status (k : BitVec 4) : (s.setSp k).status = s.status := rfl
@[simp] theorem State.setSp_cfg (k : BitVec 4) : (s.setSp k).cfg = s.cfg := rfl
@[simp] theorem State.setSp_out (k : BitVec 4) : (s.setSp k).out = s.out := rfl
@[simp] theorem State.setSp_draws (k : BitVec 4) : (s.setSp k).draws = s.draws := rfl
@[simp] theorem State.reg_setSp (k : BitVec 4) (r' : Reg) : (s.setSp k).reg r' = s.reg r' := rfl
@[simp] theorem State.stackAt_setSp (k : BitVec 4) (k' : BitVec 4) : (s.setSp k).stackAt k' = s.stackAt k' := rfl
@[simp] theorem State.key_setSp (k : BitVec 4) (k' : Reg) : (s.setSp k).key k' = s.key k' := rfl
@[simp] theorem State.pixel_setSp (k : BitVec 4) (x y : Nat) : (s.setSp k).pixel x y = s.pixel x y := rfl
@[simp] theorem State.readByte_setSp (k : BitVec 4) (a' : Addr) : (s.setSp k).readByte a' = s.readByte a' := rfl
@[simp] theorem State.firstBad_setSp (k : BitVec 4) (a' : Addr) (n : Nat) : (s.setSp k).firstBad a' n = s.firstBad a' n := rfl

@[simp] theorem State.setDt_v (b : Byte) : (s.setDt b).v = s.v := rfl
@[simp] theorem State.setDt_pc (b : Byte) : (s.setDt b).pc = s.pc := rfl
@[simp] theorem State.setDt_i (b : Byte) : (s.setDt b).i = s.i := rfl
@[simp] theorem State.setDt_stack (b : Byte) : (s.setDt b).stack = s.stack := rfl
@[simp] theorem State.setDt_sp (b : Byte) : (s.setDt b).sp = s.sp := rfl
@[simp] theorem State.setDt_dt (b : Byte) : (s.setDt b).dt = b := rfl
@[simp] theorem State.setDt_st (b : Byte) : (s.setDt b).st = s.st := rfl
@[simp] theorem State.setDt_mem (b : Byte) : (s.setDt b).mem = s.mem := rfl
@[simp] theorem State.setDt_display (b : Byte) : (s.setDt b).display = s.display := rfl
@[simp] theorem State.setDt_keys (b : Byte) : (s.setDt b).keys = s.keys := rfl
@[simp] theorem State.setDt_status (b : Byte) : (s.setDt b).status = s.status := rfl
@[simp] theorem State.setDt_cfg (b : Byte) : (s.setDt b).cfg = s.cfg := rfl
@[simp] theorem State.setDt_out (b : Byte) : (s.setDt b).out = s.out := rfl
@[simp] theorem State.setDt_draws (b : Byte) : (s.setDt b).draws = s.draws := rfl
@[simp] theorem State.reg_setDt (b : Byte) (r' : Reg) : (s.setDt b).reg r' = s.reg r' := rfl
@[simp] theorem State.stackAt_setDt (b : Byte) (k' : BitVec 4) : (s.setDt b).stackAt k' = s.stackAt k' := rfl
@[simp] theorem State.key_setDt (b : Byte) (k' : Reg) : (s.setDt b).key k' = s.key k' := rfl
@[simp] theorem State.pixel_setDt (b : Byte) (x y : Nat) : (s.setDt b).pixel x y = s.pixel x y := rfl
@[simp] theorem State.readByte_setDt (b : Byte) (a' : Addr) : (s.setDt b).readByte a' = s.readByte a' := rfl
@[simp] theorem State.firstBad_setDt (b : Byte) (a' : Addr) (n : Nat) : (s.setDt b).firstBad a' n = s.firstBad a' n := rfl

@[simp] theorem State.setSt_v (b : Byte) : (s.setSt b).v = s.v := rfl
@[simp] theorem State.setSt_pc (b : Byte) : (s.setSt b).pc = s.pc := rfl
@[simp] theorem State.setSt_i (b : Byte) : (s.setSt b).i = s.i := rfl
@[simp] theorem State.setSt_stack (b : Byte) : (s.setSt b).stack = s.stack := rfl
@[simp] theorem State.setSt_sp (b : Byte) : (s.setSt b).sp = s.sp := rfl
@[simp] theorem State.setSt_dt (b : Byte) : (s.setSt b).dt = s.dt := rfl
@[simp] theorem State.setSt_st (b : Byte) : (s.setSt b).st = b := rfl
@[simp] theorem State.setSt_mem (b : Byte) : (s.setSt b).mem = s.mem := rfl
@[simp] theorem State.setSt_display (b : Byte) : (s.setSt b).display = s.display := rfl
@[simp] theorem State.setSt_keys (b : Byte) : (s.setSt b).keys = s.keys := rfl
@[simp] theorem State.setSt_status (b : Byte) : (s.setSt b).status = s.status := rfl
@[simp] theorem State.setSt_cfg (b : Byte) : (s.setSt b).cfg = s.cfg := rfl
@[simp] theorem State.setSt_out (b : Byte) : (s.setSt b).out = s.out := rfl
@[simp] theorem State.setSt_draws (b : Byte) : (s.setSt b).draws = s.draws := rfl
@[simp] theorem State.reg_setSt (b : Byte) (r' : Reg) : (s.setSt b).reg r' = s.reg r' := rfl
@[simp] theorem State.stackAt_setSt (b : Byte) (k' : BitVec 4) : (s.setSt b).stackAt k' = s.stackAt k' := rfl
@[simp] theorem State.key_setSt (b : Byte) (k' : Reg) : (s.setSt b).key k' = s.key k' := rfl
@[simp] theorem State.pixel_setSt (b : Byte) (x y : Nat) : (s.setSt b).pixel x y = s.pixel x y := rfl
@[simp] theorem State.readByte_setSt (b : Byte) (a' : Addr) : (s.setSt b).readByte a' = s.readByte a' := rfl
@[simp] theorem State.firstBad_setSt (b : Byte) (a' : Addr) (n : Nat) : (s.setSt b).firstBad a' n = s.firstBad a' n := rfl

@[simp] theorem State.setStack_v (k : BitVec 4) (a : Addr) : (s.setStack k a).v = s.v := rfl
@[simp] theorem State.setStack_pc (k : BitVec 4) (a : Addr) : (s.setStack k a).pc = s.pc := rfl
@[simp] theorem State.setStack_i (k : BitVec 4) (a : Addr) : (s.setStack k a).i = s.i := rfl
@[simp] theorem State.setStack_stack (k : BitVec 4) (a : Addr) : (s.setStack k a).stack = s.stack.set k.toNat a k.isLt := rfl
@[simp] theorem State.setStack_sp (k : BitVec 4) (a : Addr) : (s.setStack k a).sp = s.sp := rfl
@[simp] theorem State.setStack_dt (k : BitVec 4) (a : Addr) : (s.setStack k a).dt = s.dt := rfl
@[simp] theorem State.setStack_st (k : BitVec 4) (a : Addr) : (s.setStack k a).st = s.st := rfl
@[simp] theorem State.setStack_mem (k : BitVec 4) (a : Addr) : (s.setStack k a).mem = s.mem := rfl
@[simp] theorem State.setStack_display (k : BitVec 4) (a : Addr) : (s.setStack k a).display = s.display := rfl
@[simp] theorem State.setStack_keys (k : BitVec 4) (a : Addr) : (s.setStack k a).keys = s.keys := rfl
@[simp] theorem State.setStack_status (k : BitVec 4) (a : Addr) : (s.setStack k a).status = s.status := rfl
@[simp] theorem State.setStack_cfg (k : BitVec 4) (a : Addr) : (s.setStack k a).cfg = s.cfg := rfl
@[simp] theorem State.setStack_out (k : BitVec 4) (a : Addr) : (s.setStack k a).out = s.out := rfl
@[simp] theorem State.setStack_draws (k : BitVec 4) (a : Addr) : (s.setStack k a).draws = s.draws := rfl
@[simp] theorem State.reg_setStack (k : BitVec 4) (a : Addr) (r' : Reg) : (s.setStack k a).reg r' = s.reg r' := rfl
@[simp] theorem State.key_setStack (k : BitVec 4) (a : Addr) (k' : Reg) : (s.setStack k a).key k' = s.key k' := rfl
@[simp] theorem State.pixel_setStack (k : BitVec 4) (a : Addr) (x y : Nat) : (s.setStack k a).pixel x y = s.pixel x y := rfl
@[simp] theorem State.readByte_setStack (k : BitVec 4) (a : Addr) (a' : Addr) : (s.setStack k a).readByte a' = s.readByte a' := rfl
@[simp] theorem State.firstBad_setStack (k : BitVec 4) (a : Addr) (a' : Addr) (n : Nat) : (s.setStack k a).firstBad a' n = s.firstBad a' n := rfl

@[simp] theorem State.setKey_v (k : Reg) (b : Bool) : (s.setKey k b).v = s.v := rfl
@[simp] theorem State.setKey_pc (k : Reg) (b : Bool) : (s.setKey k b).pc = s.pc := rfl
@[simp] theorem State.setKey_i (k : Reg) (b : Bool) : (s.setKey k b).i = s.i := rfl
@[simp] theorem State.setKey_stack (k : Reg) (b : Bool) : (s.setKey k b).stack = s.stack := rfl
@[simp] theorem State.setKey_sp (k : Reg) (b : Bool) : (s.setKey k b).sp = s.sp := rfl
@[simp] theorem State.setKey_dt (k : Reg) (b : Bool) : (s.setKey k b).dt = s.dt := rfl
@[simp] theorem State.setKey_st (k : Reg) (b : Bool) : (s.setKey k b).st = s.st := rfl
@[simp] theorem State.setKey_mem (k : Reg) (b : Bool) : (s.setKey k b).mem = s.mem := rfl
@[simp] theorem State.setKey_display (k : Reg) (b : Bool) : (s.setKey k b).display = s.display := rfl
@[simp] theorem State.setKey_keys (k : Reg) (b : Bool) : (s.setKey k b).keys = s.keys.set k.val b := rfl
@[simp] theorem State.setKey_status (k : Reg) (b : Bool) : (s.setKey k b).status = s.status := rfl
@[simp] theorem State.setKey_cfg (k : Reg) (b : Bool) : (s.setKey k b).cfg = s.cfg := rfl
@[simp] theorem State.setKey_out (k : Reg) (b : Bool) : (s.setKey k b).out = s.out := rfl
@[simp] theorem State.setKey_draws (k : Reg) (b : Bool) : (s.setKey k b).draws = s.draws := rfl
@[simp] theorem State.reg_setKey (k : Reg) (b : Bool) (r' : Reg) : (s.setKey k b).reg r' = s.reg r' := rfl
@[simp] theorem State.stackAt_setKey (k : Reg) (b : Bool) (k' : BitVec 4) : (s.setKey k b).stackAt k' = s.stackAt k' := rfl
@[simp] theorem State.pixel_setKey (k : Reg) (b : Bool) (x y : Nat) : (s.setKey k b).pixel x y = s.pixel x y := rfl
@[simp] theorem State.readByte_setKey (k : Reg) (b : Bool) (a' : Addr) : (s.setKey k b).readByte a' = s.readByte a' := rfl
@[simp] theorem State.firstBad_setKey (k : Reg) (b : Bool) (a' : Addr) (n : Nat) : (s.setKey k b).firstBad a' n = s.firstBad a' n := rfl

@[simp] theorem State.setDisplay_v (d : Display) : (s.setDisplay d).v = s.v := rfl
@[simp] theorem State.setDisplay_pc (d : Display) : (s.setDisplay d).pc = s.pc := rfl
@[simp] theorem State.setDisplay_i (d : Display) : (s.setDisplay d).i = s.i := rfl
@[simp] theorem State.setDisplay_stack (d : Display) : (s.setDisplay d).stack = s.stack := rfl
@[simp] theorem State.setDisplay_sp (d : Display) : (s.setDisplay d).sp = s.sp := rfl
@[simp] theorem State.setDisplay_dt (d : Display) : (s.setDisplay d).dt = s.dt := rfl
@[simp] theorem State.setDisplay_st (d : Display) : (s.setDisplay d).st = s.st := rfl
@[simp] theorem State.setDisplay_mem (d : Display) : (s.setDisplay d).mem = s.mem := rfl
@[simp] theorem State.setDisplay_display (d : Display) : (s.setDisplay d).display = d := rfl
@[simp] theorem State.setDisplay_keys (d : Display) : (s.setDisplay d).keys = s.keys := rfl
@[simp] theorem State.setDisplay_status (d : Display) : (s.setDisplay d).status = s.status := rfl
@[simp] theorem State.setDisplay_cfg (d : Display) : (s.setDisplay d).cfg = s.cfg := rfl
@[simp] theorem State.setDisplay_out (d : Display) : (s.setDisplay d).out = s.out := rfl
@[simp] theorem State.setDisplay_draws (d : Display) : (s.setDisplay d).draws = s.draws := rfl
@[simp] theorem State.reg_setDisplay (d : Display) (r' : Reg) : (s.setDisplay d).reg r' = s.reg r' := rfl
@[simp] theorem State.stackAt_setDisplay (d : Display) (k' : BitVec 4) : (s.setDisplay d).stackAt k' = s.stackAt k' := rfl
@[simp] theorem State.key_setDisplay (d : Display) (k' : Reg) : (s.setDisplay d).key k' = s.key k' := rfl
@[simp] theorem State.readByte_setDisplay (d : Display) (a' : Addr) : (s.setDisplay d).readByte a' = s.readByte a' := rfl
@[simp] theorem State.firstBad_setDisplay (d : Display) (a' : Addr) (n : Nat) : (s.setDisplay d).firstBad a' n = s.firstBad a' n := rfl

@[simp] theorem State.countDraw_v : (s.countDraw).v = s.v := rfl
@[simp] theorem State.countDraw_pc : (s.countDraw).pc = s.pc := rfl
@[simp] theorem State.countDraw_i : (s.countDraw).i = s.i := rfl
@[simp] theorem State.countDraw_stack : (s.countDraw).stack = s.stack := rfl
@[simp] theorem State.countDraw_sp : (s.countDraw).sp = s.sp := rfl
@[simp] theorem State.countDraw_dt : (s.countDraw).dt = s.dt := rfl
@[simp] theorem State.countDraw_st : (s.countDraw).st = s.st := rfl
@[simp] theorem State.countDraw_mem : (s.countDraw).mem = s.mem := rfl
@[simp] theorem State.countDraw_display : (s.countDraw).display = s.display := rfl
@[simp] theorem State.countDraw_keys : (s.countDraw).keys = s.keys := rfl
@[simp] theorem State.countDraw_status : (s.countDraw).status = s.status := rfl
@[simp] theorem State.countDraw_cfg : (s.countDraw).cfg = s.cfg := rfl
@[simp] theorem State.countDraw_out : (s.countDraw).out = s.out := rfl
@[simp] theorem State.countDraw_draws : (s.countDraw).draws = s.draws + 1 := rfl
@[simp] theorem State.reg_countDraw (r' : Reg) : (s.countDraw).reg r' = s.reg r' := rfl
@[simp] theorem State.stackAt_countDraw (k' : BitVec 4) : (s.countDraw).stackAt k' = s.stackAt k' := rfl
@[simp] theorem State.key_countDraw (k' : Reg) : (s.countDraw).key k' = s.key k' := rfl
@[simp] theorem State.pixel_countDraw (x y : Nat) : (s.countDraw).pixel x y = s.pixel x y := rfl
@[simp] theorem State.readByte_countDraw (a' : Addr) : (s.countDraw).readByte a' = s.readByte a' := rfl
@[simp] theorem State.firstBad_countDraw (a' : Addr) (n : Nat) : (s.countDraw).firstBad a' n = s.firstBad a' n := rfl

@[simp] theorem State.writeByte_v (a : Addr) (b : Byte) : (s.writeByte a b).v = s.v := rfl
@[simp] theorem State.writeByte_pc (a : Addr) (b : Byte) : (s.writeByte a b).pc = s.pc := rfl
@[simp] theorem State.writeByte_i (a : Addr) (b : Byte) : (s.writeByte a b).i = s.i := rfl
@[simp] theorem State.writeByte_stack (a : Addr) (b : Byte) : (s.writeByte a b).stack = s.stack := rfl
@[simp] theorem State.writeByte_sp (a : Addr) (b : Byte) : (s.writeByte a b).sp = s.sp := rfl
@[simp] theorem State.writeByte_dt (a : Addr) (b : Byte) : (s.writeByte a b).dt = s.dt := rfl
@[simp] theorem State.writeByte_st (a : Addr) (b : Byte) : (s.writeByte a b).st = s.st := rfl
@[simp] theorem State.writeByte_mem (a : Addr) (b : Byte) : (s.writeByte a b).mem = s.mem.set s.cfg.font (physAddr a) b := rfl
@[simp] theorem State.writeByte_display (a : Addr) (b : Byte) : (s.writeByte a b).display = s.display := rfl
@[simp] theorem State.writeByte_keys (a : Addr) (b : Byte) : (s.writeByte a b).keys = s.keys := rfl
@[simp] theorem State.writeByte_status (a : Addr) (b : Byte) : (s.writeByte a b).status = s.status := rfl
@[simp] theorem State.writeByte_cfg (a : Addr) (b : Byte) : (s.writeByte a b).cfg = s.cfg := rfl
@[simp] theorem State.writeByte_out (a : Addr) (b : Byte) : (s.writeByte a b).out = s.out := rfl
@[simp] theorem State.writeByte_draws (a : Addr) (b : Byte) : (s.writeByte a b).draws = s.draws := rfl
@[simp] theorem State.reg_writeByte (a : Addr) (b : Byte) (r' : Reg) : (s.writeByte a b).reg r' = s.reg r' := rfl
@[simp] theorem State.stackAt_writeByte (a : Addr) (b : Byte) (k' : BitVec 4) : (s.writeByte a b).stackAt k' = s.stackAt k' := rfl
@[simp] theorem State.key_writeByte (a : Addr) (b : Byte) (k' : Reg) : (s.writeByte a b).key k' = s.key k' := rfl
@[simp] theorem State.pixel_writeByte (a : Addr) (b : Byte) (x y : Nat) : (s.writeByte a b).pixel x y = s.pixel x y := rfl
@[simp] theorem State.firstBad_writeByte (a : Addr) (b : Byte) (a' : Addr) (n : Nat) : (s.writeByte a b).firstBad a' n = s.firstBad a' n := rfl

@[simp] theorem State.withFault_v (f : Fault) : (s.withFault f).v = s.v := rfl
@[simp] theorem State.withFault_pc (f : Fault) : (s.withFault f).pc = s.pc := rfl
@[simp] theorem State.withFault_i (f : Fault) : (s.withFault f).i = s.i := rfl
@[simp] theorem State.withFault_stack (f : Fault) : (s.withFault f).stack = s.stack := rfl
@[simp] theorem State.withFault_sp (f : Fault) : (s.withFault f).sp = s.sp := rfl
@[simp] theorem State.withFault_dt (f : Fault) : (s.withFault f).dt = s.dt := rfl
@[simp] theorem State.withFault_st (f : Fault) : (s.withFault f).st = s.st := rfl
@[simp] theorem State.withFault_mem (f : Fault) : (s.withFault f).mem = s.mem := rfl
@[simp] theorem State.withFault_display (f : Fault) : (s.withFault f).display = s.display := rfl
@[simp] theorem State.withFault_keys (f : Fault) : (s.withFault f).keys = s.keys := rfl
@[simp] theorem State.withFault_status (f : Fault) : (s.withFault f).status = .faulted f := rfl
@[simp] theorem State.withFault_cfg (f : Fault) : (s.withFault f).cfg = s.cfg := rfl
@[simp] theorem State.withFault_out (f : Fault) : (s.withFault f).out = .fault f := rfl
@[simp] theorem State.withFault_draws (f : Fault) : (s.withFault f).draws = s.draws := rfl
@[simp] theorem State.reg_withFault (f : Fault) (r' : Reg) : (s.withFault f).reg r' = s.reg r' := rfl
@[simp] theorem State.stackAt_withFault (f : Fault) (k' : BitVec 4) : (s.withFault f).stackAt k' = s.stackAt k' := rfl
@[simp] theorem State.key_withFault (f : Fault) (k' : Reg) : (s.withFault f).key k' = s.key k' := rfl
@[simp] theorem State.pixel_withFault (f : Fault) (x y : Nat) : (s.withFault f).pixel x y = s.pixel x y := rfl
@[simp] theorem State.readByte_withFault (f : Fault) (a' : Addr) : (s.withFault f).readByte a' = s.readByte a' := rfl
@[simp] theorem State.firstBad_withFault (f : Fault) (a' : Addr) (n : Nat) : (s.withFault f).firstBad a' n = s.firstBad a' n := rfl

@[simp] theorem State.timerStep_v : (s.timerStep).v = s.v := rfl
@[simp] theorem State.timerStep_pc : (s.timerStep).pc = s.pc := rfl
@[simp] theorem State.timerStep_i : (s.timerStep).i = s.i := rfl
@[simp] theorem State.timerStep_stack : (s.timerStep).stack = s.stack := rfl
@[simp] theorem State.timerStep_sp : (s.timerStep).sp = s.sp := rfl
@[simp] theorem State.timerStep_dt : (s.timerStep).dt = countDown s.dt := rfl
@[simp] theorem State.timerStep_st : (s.timerStep).st = countDown s.st := rfl
@[simp] theorem State.timerStep_mem : (s.timerStep).mem = s.mem := rfl
@[simp] theorem State.timerStep_display : (s.timerStep).display = s.display := rfl
@[simp] theorem State.timerStep_keys : (s.timerStep).keys = s.keys := rfl
@[simp] theorem State.timerStep_status : (s.timerStep).status = s.status := rfl
@[simp] theorem State.timerStep_cfg : (s.timerStep).cfg = s.cfg := rfl
@[simp] theorem State.timerStep_out : (s.timerStep).out = .ok (decide (s.st ≠ 0#8)) := rfl
@[simp] theorem State.timerStep_draws : (s.timerStep).draws = s.draws := rfl
@[simp] theorem State.reg_timerStep (r' : Reg) : (s.timerStep).reg r' = s.reg r' := rfl
@[simp] theorem State.stackAt_timerStep (k' : BitVec 4) : (s.timerStep).stackAt k' = s.stackAt k' := rfl
@[simp] theorem State.key_timerStep (k' : Reg) : (s.timerStep).key k' = s.key k' := rfl
@[simp] theorem State.pixel_timerStep (x y : Nat) : (s.timerStep).pixel x y = s.pixel x y := rfl
@[simp] theorem State.readByte_timerStep (a' : Addr) : (s.timerStep).readByte a' = s.readByte a' := rfl
@[simp] theorem State.firstBad_timerStep (a' : Addr) (n : Nat) : (s.timerStep).firstBad a' n = s.firstBad a' n := rfl

@[simp] theorem State.writeKeys_v (ks : Vector Bool 16) : (s.writeKeys ks).v = s.v := rfl
@[simp] theorem State.writeKeys_pc (ks : Vector Bool 16) : (s.writeKeys ks).pc = s.pc := rfl
@[simp] theorem State.writeKeys_i (ks : Vector Bool 16) : (s.writeKeys ks).i = s.i := rfl
@[simp] theorem State.writeKeys_stack (ks : Vector Bool 16) : (s.writeKeys ks).stack = s.stack := rfl
@[simp] theorem State.writeKeys_sp (ks : Vector Bool 16) : (s.writeKeys ks).sp = s.sp := rfl
@[simp] theorem State.writeKeys_dt (ks : Vector Bool 16) : (s.writeKeys ks).dt = s.dt := rfl
@[simp] theorem State.writeKeys_st (ks : Vector Bool 16) : (s.writeKeys ks).st = s.st := rfl
@[simp] theorem State.writeKeys_mem (ks : Vector Bool 16) : (s.writeKeys ks).mem = s.mem := rfl
@[simp] theorem State.writeKeys_display (ks : Vector Bool 16) : (s.writeKeys ks).display = s.display := rfl
@[simp] theorem State.writeKeys_keys (ks : Vector Bool 16) : (s.writeKeys ks).keys = ks := rfl
@[simp] theorem State.writeKeys_status (ks : Vector Bool 16) : (s.writeKeys ks).status = s.status := rfl
@[simp] theorem State.writeKeys_cfg (ks : Vector Bool 16) : (s.writeKeys ks).cfg = s.cfg := rfl
@[simp] theorem State.writeKeys_out (ks : Vector Bool 16) : (s.writeKeys ks).out = s.out := rfl
@[simp] theorem State.writeKeys_draws (ks : Vector Bool 16) : (s.writeKeys ks).draws = s.draws := rfl
@[simp] theorem State.reg_writeKeys (ks : Vector Bool 16) (r' : Reg) : (s.writeKeys ks).reg r' = s.reg r' := rfl
@[simp] theorem State.stackAt_writeKeys (ks : Vector Bool 16) (k' : BitVec 4) : (s.writeKeys ks).stackAt k' = s.stackAt k' := rfl
@[simp] theorem State.pixel_writeKeys (ks : Vector Bool 16) (x y : Nat) : (s.writeKeys ks).pixel x y = s.pixel x y := rfl
@[simp] theorem State.readByte_writeKeys (ks : Vector Bool 16) (a' : Addr) : (s.writeKeys ks).readByte a' = s.readByte a' := rfl
@[simp] theorem State.firstBad_writeKeys (ks : Vector Bool 16) (a' : Addr) (n : Nat) : (s.writeKeys ks).firstBad a' n = s.firstBad a' n := rfl

end Sys2Proof.Machine
end

