-- ==== Sys2Proof/Laws/Accessors.lean ====
section
/-! SUPPORT. What each accessor reads after its own update: registers, stack, keys, pixels, memory bytes. -/

namespace Sys2Proof.Machine

variable (s : State)

theorem State.reg_setReg (r r' : Reg) (b : Byte) :
    (s.setReg r b).reg r' = if r' = r then b else s.reg r' := by
  simp only [State.reg, State.setReg_v, Vector.getElem_set, Fin.ext_iff, eq_comm]

@[simp] theorem State.reg_setReg_self (r : Reg) (b : Byte) : (s.setReg r b).reg r = b := by
  simp [State.reg_setReg]

theorem State.reg_setReg_of_ne {r r' : Reg} (b : Byte) (h : r' ≠ r) : (s.setReg r b).reg r' = s.reg r' := by
  simp [State.reg_setReg, h]

theorem State.stackAt_setStack (k k' : BitVec 4) (a : Addr) :
    (s.setStack k a).stackAt k' = if k' = k then a else s.stackAt k' := by
  simp only [State.stackAt, State.setStack_stack, Vector.getElem_set, BitVec.toNat_eq, eq_comm]

theorem State.key_setKey (k k' : Reg) (b : Bool) :
    (s.setKey k b).key k' = if k' = k then b else s.key k' := by
  simp only [State.key, State.setKey_keys, Vector.getElem_set, Fin.ext_iff, eq_comm]

theorem State.key_writeKeys (ks : Vector Bool 16) (k : Reg) : (s.writeKeys ks).key k = ks[k.val] := rfl

/-- Two coordinates name the same pixel when they agree modulo 64 and 32 (41_display.md R111). -/
theorem Display.pixel_setPixel (d : Display) (x y x' y' : Nat) (b : Bool) :
    (d.setPixel x y b).pixel x' y' = if x' % 64 = x % 64 ∧ y' % 32 = y % 32 then b else d.pixel x' y' := by
  simp only [Display.pixel, Display.setPixel, Vector.getElem_set]
  by_cases hy : y % 32 = y' % 32
  · by_cases hx : x % 64 = x' % 64
    · simp [hx, hy]
    · simp [hx, hy, Ne.symm hx]
  · simp [hy, Ne.symm hy]

theorem Display.pixel_mod (d : Display) (x y : Nat) : d.pixel (x % 64) (y % 32) = d.pixel x y := by
  simp [Display.pixel]

@[simp] theorem Display.pixel_blank (x y : Nat) : blankDisplay.pixel x y = false := by
  simp [Display.pixel, blankDisplay]

@[simp] theorem State.pixel_setDisplay (d : Display) (x y : Nat) : (s.setDisplay d).pixel x y = d.pixel x y := rfl

theorem State.readByte_writeByte (a a' : Addr) (b : Byte) :
    (s.writeByte a b).readByte a' = if physAddr a' = physAddr a then b else s.readByte a' := by
  simp [State.readByte, Memory.get_set]

theorem physAddr_lt (a : Addr) : physAddr a < memSize := Nat.mod_lt _ (by decide)

/-- Writing a byte keeps memory canonical. -/
theorem State.writeByte_wf (a : Addr) (b : Byte) (h : s.mem.wf s.cfg.font = true) :
    (s.writeByte a b).mem.wf s.cfg.font = true :=
  Memory.wf_set s.cfg.font b h (physAddr_lt a)

end Sys2Proof.Machine
end

