-- ==== Sys2Proof/Laws/Ops.lean ====
section
/-! SUPPORT. One lemma per shared operation of Machine/Ops.lean and Machine/Operands.lean that says what it can do, so
that callers cite it and do not unfold it. -/

namespace Sys2Proof.Machine

open Sys2Proof.Safety

variable (s : State)

/-! ### Addresses and their checks -/

theorem byteAddr_zero (a : Addr) : byteAddr a 0 = a := by simp [byteAddr]

theorem byteAddr_toNat (a : Addr) (k : Nat) : (byteAddr a k).toNat = (a.toNat + k) % 65536 := by
  simp [byteAddr, BitVec.toNat_add]

/-- Two offsets of one access below 0x1000 reach different bytes, under WRAP too. -/
theorem physAddr_byteAddr_inj (a : Addr) {j k : Nat} (hj : j < memSize) (hk : k < memSize)
    (h : physAddr (byteAddr a j) = physAddr (byteAddr a k)) : j = k := by
  simp only [physAddr, byteAddr_toNat, memSize] at *
  omega

theorem checkAddr_iff (p : MemOobPolicy) (a : Addr) :
    checkAddr p a = true ↔ p = .wrap ∨ a.toNat ≤ 0xFFF := by
  cases p <;> simp [checkAddr]

/-- All checks pass exactly when every address of the access is allowed. -/
theorem firstBadFrom_none (p : MemOobPolicy) (a : Addr) (n : Nat) : ∀ k0 : Nat,
    firstBadFrom p a k0 n = none ↔ ∀ k, k < n → checkAddr p (byteAddr a (k0 + k)) = true := by
  induction n with
  | zero => intro k0; simp [firstBadFrom]
  | succ n ih =>
    intro k0
    simp only [firstBadFrom]
    split
    · rename_i h
      rw [ih]
      constructor
      · intro hk k hlt
        cases k with
        | zero => exact h
        | succ k => have := hk k (by omega); rwa [Nat.add_assoc, Nat.add_comm 1 k] at this
      · intro hk k hlt
        have := hk (k + 1) (by omega)
        rwa [show k0 + 1 + k = k0 + (k + 1) by omega]
    · rename_i h
      constructor
      · intro h'; exact absurd h' (by simp)
      · intro hk; exact absurd (hk 0 (by omega)) h

/-- The address a failed access names is the one at the lowest offset whose check fails. -/
theorem firstBadFrom_some (p : MemOobPolicy) (a b : Addr) (n : Nat) : ∀ k0 : Nat,
    firstBadFrom p a k0 n = some b ↔ ∃ k, k < n ∧ b = byteAddr a (k0 + k) ∧ ¬ checkAddr p b = true ∧
      ∀ j, j < k → checkAddr p (byteAddr a (k0 + j)) = true := by
  induction n with
  | zero => intro k0; simp [firstBadFrom]
  | succ n ih =>
    intro k0
    simp only [firstBadFrom]
    split
    · rename_i h
      rw [ih]
      constructor
      · rintro ⟨k, hk, hb, hc, hj⟩
        refine ⟨k + 1, by omega, by rw [hb]; congr 1; omega, hc, fun j hlt => ?_⟩
        cases j with
        | zero => exact h
        | succ j => have := hj j (by omega); rwa [Nat.add_assoc, Nat.add_comm 1 j] at this
      · rintro ⟨k, hk, hb, hc, hj⟩
        cases k with
        | zero => exact absurd (by rw [hb]; exact h) hc
        | succ k =>
          refine ⟨k, by omega, by rw [hb]; congr 1; omega, hc, fun j hlt => ?_⟩
          have := hj (j + 1) (by omega)
          rwa [show k0 + 1 + j = k0 + (j + 1) by omega]
    · rename_i h
      constructor
      · intro h'
        have hb : byteAddr a k0 = b := by simpa using h'
        subst hb
        exact ⟨0, by omega, by simp, h, fun j hj => absurd hj (by omega)⟩
      · rintro ⟨k, hk, hb, hc, hj⟩
        cases k with
        | zero => rw [hb]; simp
        | succ k => exact absurd (hj 0 (by omega)) h

/-- The checks of an access pass exactly when it is `AccessOk`. -/
theorem State.firstBad_none_iff (a : Addr) (n : Nat) : s.firstBad a n = none ↔ AccessOk s a n := by
  simp only [State.firstBad, firstBadFrom_none, checkAddr_iff, AccessOk, byteAddr, Nat.zero_add]
  constructor
  · intro h
    by_cases hp : s.cfg.memOob = .wrap
    · exact .inl hp
    · exact .inr fun k hk => (h k hk).resolve_left hp
  · rintro (h | h) k hk
    · exact .inl h
    · exact .inr (h k hk)

/-- The checks of an access fail with `b` exactly when `b` is the lowest bad address. -/
theorem State.firstBad_some_iff (a b : Addr) (n : Nat) : s.firstBad a n = some b ↔ LowestBad s a n b := by
  simp only [State.firstBad, firstBadFrom_some, checkAddr_iff, LowestBad, byteAddr, Nat.zero_add]
  cases hp : s.cfg.memOob <;> simp

theorem State.firstBad_zero (a : Addr) : s.firstBad a 0 = none := rfl

/-- A checked access either raises MemoryOutOfRange at the lowest bad address or runs its body. -/
theorem withChecked_cases (a : Addr) (n : Nat) (body : State → Host.Outcome State Fault Refusal) :
    (∃ b, LowestBad s a n b ∧ withChecked a n body s = .next (s.withFault (.memoryOutOfRange s.pc b))) ∨
      (AccessOk s a n ∧ withChecked a n body s = body s) := by
  cases h : s.firstBad a n with
  | some b => exact .inl ⟨b, (s.firstBad_some_iff a b n).1 h, by simp [withChecked, h, raise]⟩
  | none => exact .inr ⟨(s.firstBad_none_iff a n).1 h, by simp [withChecked, h]⟩

theorem withChecked_ok {s : State} {a : Addr} {n : Nat} (body : State → Host.Outcome State Fault Refusal)
    (h : AccessOk s a n) : withChecked a n body s = body s := by
  simp [withChecked, (s.firstBad_none_iff a n).2 h]

theorem withChecked_bad {s : State} {a b : Addr} {n : Nat} (body : State → Host.Outcome State Fault Refusal)
    (h : LowestBad s a n b) : withChecked a n body s = .next (s.withFault (.memoryOutOfRange s.pc b)) := by
  simp [withChecked, (s.firstBad_some_iff a b n).2 h, raise]

/-! ### Runs of bytes -/

/-- A run of writes changes memory only: every other field is kept. -/
theorem State.writeBytesFrom_eq (a : Addr) (bs : List Byte) : ∀ (s : State) (k : Nat),
    s.writeBytesFrom a k bs = { s with mem := (s.writeBytesFrom a k bs).mem } := by
  induction bs with
  | nil => intro s k; rfl
  | cons b bs ih =>
    intro s k
    simp only [State.writeBytesFrom]
    rw [ih]
    rfl

theorem State.writeBytes_eq (a : Addr) (bs : List Byte) :
    s.writeBytes a bs = { s with mem := (s.writeBytes a bs).mem } := s.writeBytesFrom_eq a bs 0

/-- A run of writes leaves every byte it does not reach. -/
theorem State.readByte_writeBytesFrom_of_ne (a a' : Addr) (bs : List Byte) : ∀ (s : State) (k : Nat),
    (∀ j, j < bs.length → physAddr a' ≠ physAddr (byteAddr a (k + j))) →
    (s.writeBytesFrom a k bs).readByte a' = s.readByte a' := by
  induction bs with
  | nil => intro s k _; rfl
  | cons b bs ih =>
    intro s k h
    simp only [State.writeBytesFrom]
    rw [ih, State.readByte_writeByte, if_neg]
    · exact h 0 (by simp)
    · intro j hj
      have := h (j + 1) (by simpa using hj)
      rwa [show k + 1 + j = k + (j + 1) by omega]

/-- A run of at most 0x1000 writes leaves its own byte at each address it reaches. -/
theorem State.readByte_writeBytesFrom (a : Addr) (bs : List Byte) : ∀ (s : State) (k j : Nat) (hj : j < bs.length),
    k + bs.length ≤ memSize → (s.writeBytesFrom a k bs).readByte (byteAddr a (k + j)) = bs[j] := by
  induction bs with
  | nil => intro s k j hj; exact absurd hj (by simp)
  | cons b bs ih =>
    intro s k j hj hl
    simp only [List.length_cons] at hj hl
    simp only [State.writeBytesFrom]
    cases j with
    | zero =>
      rw [State.readByte_writeBytesFrom_of_ne, Nat.add_zero, State.readByte_writeByte, if_pos rfl]
      · rfl
      · intro i hi he
        have := physAddr_byteAddr_inj a (by omega) (by omega) he
        omega
    | succ j =>
      rw [show k + (j + 1) = k + 1 + j by omega]
      exact ih _ _ _ (by omega) (by omega)

theorem State.writeBytesFrom_wf (a : Addr) (bs : List Byte) : ∀ (s : State) (k : Nat),
    s.mem.wf s.cfg.font = true → (s.writeBytesFrom a k bs).mem.wf s.cfg.font = true := by
  induction bs with
  | nil => intro s k h; exact h
  | cons b bs ih =>
    intro s k h
    exact ih _ _ (s.writeByte_wf _ b h)

/-- A run of writes keeps memory canonical. -/
theorem State.writeBytes_wf (a : Addr) (bs : List Byte) (h : s.mem.wf s.cfg.font = true) :
    (s.writeBytes a bs).mem.wf s.cfg.font = true := State.writeBytesFrom_wf a bs s 0 h

theorem State.readBytes_length (a : Addr) (n : Nat) : (s.readBytes a n).length = n := by
  simp [State.readBytes]

theorem State.readBytes_getElem (a : Addr) (n k : Nat) (h : k < (s.readBytes a n).length) :
    (s.readBytes a n)[k] = s.readByte (byteAddr a k) := by
  simp [State.readBytes]

/-! ### The PC step, the timer step, faults -/

/-- An instruction that completes changes PC and nothing else after its writes. -/
theorem complete_eq (sel : Selector) : complete sel s = .next { s with pc := nextPc s.pc sel } := rfl

@[simp] theorem nextPc_seq (pc : Addr) : nextPc pc .seq = pc + 2#16 := rfl
@[simp] theorem nextPc_skip (pc : Addr) (c : Bool) :
    nextPc pc (.skip c) = if c then pc + 4#16 else pc + 2#16 := rfl
@[simp] theorem nextPc_target (pc t : Addr) : nextPc pc (.target t) = t := rfl
@[simp] theorem nextPc_hold (pc : Addr) : nextPc pc .hold = pc := rfl

theorem raise_eq (f : Fault) : raise f s = .next { s with status := .faulted f, out := .fault f } := rfl

theorem countDown_toNat (b : Byte) : (countDown b).toNat = b.toNat - 1 := by
  simp only [countDown]
  split
  · rename_i h; simp [h]
  · rename_i h
    have : 0 < b.toNat := by
      rcases Nat.eq_zero_or_pos b.toNat with h0 | h0
      · exact absurd (BitVec.eq_of_toNat_eq (by simpa using h0)) h
      · exact h0
    rw [BitVec.toNat_sub]
    simp
    omega

theorem countDown_eq_counted (b : Byte) : countDown b = counted b := by
  apply BitVec.eq_of_toNat_eq
  rw [countDown_toNat, counted, BitVec.toNat_ofNat]
  omega

theorem endCycle_running {t : State} (h : t.status = .running) : endCycle (.next t) = .next t.timerStep := by
  simp [endCycle, h]

theorem endCycle_faulted {t : State} {f : Fault} (h : t.status = .faulted f) : endCycle (.next t) = .next t := by
  simp [endCycle, h]

/-! ### Fetch and step -/

/-- Fetch gives the big-endian word of the two bytes at PC, or the lowest bad address. -/
theorem State.fetch_cases :
    (AccessOk s s.pc 2 ∧ s.fetch = .word (wordOfBytes (s.readByte s.pc) (s.readByte (byteAddr s.pc 1)))) ∨
      ∃ a, LowestBad s s.pc 2 a ∧ s.fetch = .outOfRange a := by
  cases h : s.firstBad s.pc 2 with
  | none => exact .inl ⟨(s.firstBad_none_iff _ _).1 h, by simp [State.fetch, h, byteAddr_zero]⟩
  | some a => exact .inr ⟨a, (s.firstBad_some_iff _ _ _).1 h, by simp [State.fetch, h]⟩

/-- Everything one cycle can do: return the old fault, raise a fetch fault, raise UnsupportedInstruction, or run the
instruction at PC and end the cycle. -/
theorem step_cases :
    (∃ f, s.status = .faulted f ∧ step s = .fault f) ∨
      (s.status = .running ∧ ∃ a, s.fetch = .outOfRange a ∧
        step s = .next (s.withFault (.memoryOutOfRange s.pc a))) ∨
      (s.status = .running ∧ ∃ w, s.fetch = .word w ∧ decodeWord w = none ∧
        step s = .next (s.withFault (.unsupportedInstruction s.pc w))) ∨
      (s.status = .running ∧ ∃ w i, s.fetch = .word w ∧ decodeWord w = some i ∧ step s = endCycle (exec i s)) := by
  unfold step
  cases hs : s.status with
  | faulted f => exact .inl ⟨f, rfl, rfl⟩
  | running =>
    right
    cases hf : s.fetch with
    | outOfRange a => exact .inl ⟨rfl, a, rfl, rfl⟩
    | word w =>
      right
      simp only [runWord]
      cases hd : decodeWord w with
      | none => exact .inl ⟨trivial, w, rfl, hd, rfl⟩
      | some i => exact .inr ⟨trivial, w, i, rfl, hd, rfl⟩

/-! ### Operand forms -/

theorem addrOfNNN_toNat (nnn : BitVec 12) : (addrOfNNN nnn).toNat = nnn.toNat := by
  have := nnn.isLt
  simp only [addrOfNNN, BitVec.toNat_setWidth]
  omega

theorem addrOfByte_toNat (b : Byte) : (addrOfByte b).toNat = b.toNat := by
  have := b.isLt
  simp only [addrOfByte, BitVec.toNat_setWidth]
  omega

theorem mem_allRegs (k : Reg) : k ∈ allRegs := by revert k; decide

theorem mem_regsUpTo (x k : Reg) : k ∈ regsUpTo x ↔ k ≤ x := by simp [regsUpTo, mem_allRegs]

/-- V0..VX are registers 0 to X in order, so the k-th is k. -/
theorem regsUpTo_getElem (x : Reg) : (regsUpTo x).length = x.val + 1 ∧
    ∀ k : Fin 16, k ≤ x → (regsUpTo x)[k.val]? = some k := by revert x; decide

theorem State.regValues_length (x : Reg) : (s.regValues x).length = x.val + 1 := by
  simp [State.regValues, (regsUpTo_getElem x).1]

theorem State.regValues_getElem (x k : Reg) (h : k ≤ x) :
    (s.regValues x)[k.val]? = some (s.reg k) := by
  simp [State.regValues, (regsUpTo_getElem x).2 k h]

/-- Loading registers from memory writes each register of the list and nothing else. -/
theorem loadRegs_eq (src : State) (rs : List Reg) : ∀ s : State,
    loadRegs src rs s = { s with v := (loadRegs src rs s).v } ∧
      ∀ k, (loadRegs src rs s).reg k = if k ∈ rs then src.readByte (byteAddr src.i k.val) else s.reg k := by
  induction rs with
  | nil => intro s; exact ⟨rfl, fun k => by simp [loadRegs]⟩
  | cons r rs ih =>
    intro s
    have h := ih (s.setReg r (src.readByte (byteAddr src.i r.val)))
    refine ⟨?_, fun k => ?_⟩
    · show loadRegs src rs _ = _
      rw [h.1]
      rfl
    · show (loadRegs src rs _).reg k = _
      rw [h.2, State.reg_setReg]
      by_cases hk : k ∈ rs
      · simp [hk]
      · by_cases hr : k = r <;> simp [hk, hr]

theorem keyIndex_none_iff (b : Byte) : keyIndex b = none ↔ b.toNat > 0xF := by
  simp only [keyIndex]
  split
  · rename_i h; simp; omega
  · rename_i h; simp; omega

theorem keyIndex_some_iff (b : Byte) (k : Reg) : keyIndex b = some k ↔ b = byteOfReg k := by
  simp only [keyIndex, byteOfReg]
  split
  · rename_i h
    simp only [Option.some.injEq, Fin.ext_iff]
    constructor
    · intro he; apply BitVec.eq_of_toNat_eq; simp only [BitVec.toNat_ofNat]; omega
    · intro he; rw [he, BitVec.toNat_ofNat]; omega
  · rename_i h
    simp only [reduceCtorEq, false_iff]
    intro he
    rw [he, BitVec.toNat_ofNat] at h
    omega

/-- The accepted key is the least pressed one; there is none exactly when no key is pressed. -/
theorem State.firstPressed_cases :
    (∃ k, s.firstPressed = some k ∧ s.key k = true ∧ ∀ j, j < k → s.key j = false) ∨
      (s.firstPressed = none ∧ ∀ k, s.key k = false) := by
  have hall : ∀ p : Reg → Bool, (∃ k, allRegs.find? p = some k ∧ p k = true ∧ ∀ j, j < k → p j = false) ∨
      (allRegs.find? p = none ∧ ∀ k, p k = false) := by
    intro p
    cases h : allRegs.find? p with
    | none =>
      right
      refine ⟨rfl, fun k => ?_⟩
      have := List.find?_eq_none.1 h k (mem_allRegs k)
      simpa using this
    | some k =>
      left
      refine ⟨k, rfl, List.find?_some h, fun j hj => ?_⟩
      obtain ⟨_, as, bs, hsplit, hno⟩ := List.find?_eq_some_iff_append.1 h
      have hmem : j ∈ as := by
        have hlt : as.length < 16 := by
          have := congrArg List.length hsplit
          simp [allRegs] at this
          omega
        have hget : ∀ n : Fin 16, allRegs[n.val]? = some n := by decide
        have hk := hget ⟨as.length, hlt⟩
        rw [hsplit] at hk
        simp at hk
        have hjk : j.val < as.length := by rw [hk] at hj; exact hj
        have hjget := hget j
        rw [hsplit, List.getElem?_append_left hjk] at hjget
        exact List.mem_of_getElem? hjget
      simpa using hno j hmem
  exact hall s.key

end Sys2Proof.Machine
end

