-- ==== Sys2Proof/Laws/Blitter.lean ====
section
/-! SUPPORT. What the sprite loop does to one pixel and to the collision flag. The two nested loops are one list of
sprite bits with their places (`spriteBits`); no two of them fall on one pixel (41_display.md R117), so each pixel sees at
most one bit. -/

namespace Sys2Proof.Machine

/-- A drawn bit flips its pixel when it is 1, and leaves every other pixel. -/
theorem drawBit_pixel (bit : Bool) (px py x y : Nat) (a : Drawn) :
    (drawBit bit px py a).1.pixel x y =
      if bit = true ∧ x % 64 = px % 64 ∧ y % 32 = py % 32 then !a.1.pixel x y else a.1.pixel x y := by
  cases bit with
  | false => simp [drawBit]
  | true =>
    simp only [drawBit, if_true, Display.pixel_setPixel, true_and]
    split
    · rename_i h
      rw [← Display.pixel_mod a.1 px py, ← Display.pixel_mod a.1 x y, h.1, h.2]
    · rfl

/-- A drawn bit collides when it is 1 and its pixel was 1. -/
theorem drawBit_collide (bit : Bool) (px py : Nat) (a : Drawn) :
    (drawBit bit px py a).2 = (a.2 || (bit && a.1.pixel px py)) := by
  cases bit <;> simp [drawBit]

/-- The blitter changes the display and the collision flag only, so a drawn state differs from its source in the
display and in V. -/
theorem drawSprite_eq (x y : Reg) (n : BitVec 4) (s : State) :
    drawSprite x y n s =
      { s with v := (drawSprite x y n s).v, display := (drawSprite x y n s).display } := rfl

theorem drawRows_cons (x0 y : Nat) (row : Byte) (rows : List Byte) (a : Drawn) :
    drawRows x0 y (row :: rows) a = drawRows x0 (y + 1) rows (drawColumns x0 y row spriteColumns a) := rfl

/-- VF after DRW is the collision flag as 0 or 1; no other register is written. -/
theorem drawSprite_reg (x y : Reg) (n : BitVec 4) (s : State) (r : Reg) :
    (drawSprite x y n s).reg r = if r = vf then
      boolByte (drawRows ((s.reg x).toNat % 64) ((s.reg y).toNat % 32) (s.readBytes s.i n.toNat) (s.display, false)).2
      else s.reg r := by
  simp only [drawSprite, State.reg_setReg]
  split <;> simp [State.reg]

/-! ### The loops as one list of placed bits -/

/-- A sprite bit with the column and the row it is drawn at. -/
abbrev PlacedBit := Bool × Nat × Nat

/-- Two placed bits fall on different pixels. -/
def PlacedBit.Apart (t u : PlacedBit) : Prop := ¬ (t.2.1 % 64 = u.2.1 % 64 ∧ t.2.2 % 32 = u.2.2 % 32)

/-- A placed bit is 1 and falls on the pixel (px, py). -/
def PlacedBit.Hits (t : PlacedBit) (px py : Nat) : Prop := t.1 = true ∧ px % 64 = t.2.1 % 64 ∧ py % 32 = t.2.2 % 32

/-- Draw placed bits one after the other. -/
def drawBits (L : List PlacedBit) (a : Drawn) : Drawn := L.foldl (fun a t => drawBit t.1 t.2.1 t.2.2 a) a

/-- The bits of a sprite with rows `rows` whose top left corner is (x0, y), in the order the loops draw them. -/
def spriteBits (x0 : Nat) : Nat → List Byte → List PlacedBit
  | _, [] => []
  | y, row :: rows => spriteColumns.map (fun c => (spriteBit row c, x0 + c, y)) ++ spriteBits x0 (y + 1) rows

theorem drawRows_eq_drawBits (x0 : Nat) (rows : List Byte) : ∀ (y : Nat) (a : Drawn),
    drawRows x0 y rows a = drawBits (spriteBits x0 y rows) a := by
  induction rows with
  | nil => intro y a; rfl
  | cons r rs ih =>
    intro y a
    rw [drawRows_cons, ih]
    simp only [spriteBits, drawBits, List.foldl_append, List.foldl_map, drawColumns]

/-- The placed bits are bit 7 - c of row r at (x0 + c, y + r) (R114). -/
theorem mem_spriteBits (x0 : Nat) (rows : List Byte) : ∀ (y : Nat) (t : PlacedBit),
    t ∈ spriteBits x0 y rows ↔
      ∃ r c, ∃ h : r < rows.length, c < 8 ∧ t = (spriteBit rows[r] c, x0 + c, y + r) := by
  have hc : ∀ c, c ∈ spriteColumns ↔ c < 8 := by intro c; simp [spriteColumns]; omega
  induction rows with
  | nil => intro y t; simp [spriteBits]
  | cons b bs ih =>
    intro y t
    simp only [spriteBits, List.mem_append, List.mem_map, ih]
    constructor
    · rintro (⟨c, h, rfl⟩ | ⟨r, c, h, h8, rfl⟩)
      · exact ⟨0, c, by simp, (hc c).1 h, rfl⟩
      · exact ⟨r + 1, c, by simpa using h, h8, by simp; omega⟩
    · rintro ⟨r, c, h, h8, rfl⟩
      cases r with
      | zero => exact .inl ⟨c, (hc c).2 h8, rfl⟩
      | succ r => exact .inr ⟨r, c, by simpa using h, h8, by simp; omega⟩

/-- No two bits of a sprite of at most 32 rows fall on one pixel (R117). -/
theorem spriteBits_apart (x0 : Nat) (rows : List Byte) : ∀ y : Nat, rows.length ≤ 32 →
    (spriteBits x0 y rows).Pairwise PlacedBit.Apart := by
  induction rows with
  | nil => intro y _; simp [spriteBits]
  | cons b bs ih =>
    intro y hl
    simp only [List.length_cons] at hl
    rw [spriteBits, List.pairwise_append]
    refine ⟨?_, ih _ (by omega), ?_⟩
    · simp [spriteColumns, PlacedBit.Apart]; omega
    · intro t ht u hu
      obtain ⟨r, c, h, h8, rfl⟩ := (mem_spriteBits x0 bs (y + 1) u).1 hu
      obtain ⟨c', -, rfl⟩ := List.mem_map.1 ht
      simp only [PlacedBit.Apart]
      omega

/-- Bits that fall on different pixels flip exactly the pixels they hit. -/
theorem drawBits_pixel (px py : Nat) (L : List PlacedBit) : ∀ a : Drawn, L.Pairwise PlacedBit.Apart →
    ((∃ t ∈ L, t.Hits px py) → (drawBits L a).1.pixel px py = !a.1.pixel px py) ∧
      ((¬ ∃ t ∈ L, t.Hits px py) → (drawBits L a).1.pixel px py = a.1.pixel px py) := by
  induction L with
  | nil => intro a _; simp [drawBits]
  | cons t L ih =>
    intro a hp
    rw [List.pairwise_cons] at hp
    have ih := ih (drawBit t.1 t.2.1 t.2.2 a) hp.2
    have hb := drawBit_pixel t.1 t.2.1 t.2.2 px py a
    rw [show drawBits (t :: L) a = drawBits L (drawBit t.1 t.2.1 t.2.2 a) from rfl]
    have apart : ∀ u ∈ L, u.Hits px py → ¬ t.Hits px py := by
      rintro u hu ⟨-, h3, h4⟩ ⟨-, h1, h2⟩
      exact hp.1 u hu ⟨h1.symm.trans h3, h2.symm.trans h4⟩
    constructor
    · rintro ⟨u, hu, hh⟩
      rcases List.mem_cons.1 hu with rfl | hu
      · rw [ih.2 fun ⟨v, hv, hv'⟩ => apart v hv hv' hh, hb]
        exact if_pos hh
      · rw [ih.1 ⟨u, hu, hh⟩, hb]
        exact congrArg _ (if_neg (apart u hu hh))
    · intro h
      rw [ih.2 fun ⟨u, hu, hh⟩ => h ⟨u, List.mem_cons_of_mem _ hu, hh⟩, hb]
      exact if_neg fun hh => h ⟨t, List.mem_cons_self, hh⟩

/-- The collision flag of bits that fall on different pixels: some bit is 1 and its pixel was 1 (R115). -/
theorem drawBits_collide (L : List PlacedBit) : ∀ a : Drawn, L.Pairwise PlacedBit.Apart →
    ((drawBits L a).2 = true ↔ a.2 = true ∨ ∃ t ∈ L, t.1 = true ∧ a.1.pixel t.2.1 t.2.2 = true) := by
  induction L with
  | nil => intro a _; simp [drawBits]
  | cons t L ih =>
    intro a hp
    rw [List.pairwise_cons] at hp
    have ih := ih (drawBit t.1 t.2.1 t.2.2 a) hp.2
    rw [show drawBits (t :: L) a = drawBits L (drawBit t.1 t.2.1 t.2.2 a) from rfl, ih, drawBit_collide]
    have same : ∀ u ∈ L, (drawBit t.1 t.2.1 t.2.2 a).1.pixel u.2.1 u.2.2 = a.1.pixel u.2.1 u.2.2 := by
      intro u hu
      rw [drawBit_pixel, if_neg]
      rintro ⟨-, h1, h2⟩
      exact hp.1 u hu ⟨h1.symm, h2.symm⟩
    constructor
    · rintro (h | ⟨u, hu, h1, h2⟩)
      · rw [Bool.or_eq_true, Bool.and_eq_true] at h
        rcases h with h | h
        · exact .inl h
        · exact .inr ⟨t, List.mem_cons_self, h⟩
      · exact .inr ⟨u, List.mem_cons_of_mem _ hu, h1, same u hu ▸ h2⟩
    · rintro (h | ⟨u, hu, h1, h2⟩)
      · left; simp [h]
      · rcases List.mem_cons.1 hu with rfl | hu
        · left; simp [h1, h2]
        · right; exact ⟨u, hu, h1, (same u hu).symm ▸ h2⟩

end Sys2Proof.Machine
end

