-- ==== Sys2Proof/Laws/Decode.lean ====
section
/-! SUPPORT. The fields of a word as numbers, the fields of an assembled word, the fields a mask of the opcode map
looks at, and the bytes of a word. -/

namespace Sys2Proof

/-! ### Fields as numbers (30_encoding.md R71) -/

theorem familyOf_toNat (w : Word) : (familyOf w).toNat = w.toNat / 0x1000 := by
  have := w.isLt
  simp only [familyOf, BitVec.extractLsb'_toNat, Nat.shiftRight_eq_div_pow]
  omega

theorem xOf_val (w : Word) : (xOf w).val = w.toNat / 0x100 % 0x10 := by
  simp [xOf, nibbleReg, BitVec.extractLsb'_toNat, Nat.shiftRight_eq_div_pow]

theorem yOf_val (w : Word) : (yOf w).val = w.toNat / 0x10 % 0x10 := by
  simp [yOf, nibbleReg, BitVec.extractLsb'_toNat, Nat.shiftRight_eq_div_pow]

theorem nOf_toNat (w : Word) : (nOf w).toNat = w.toNat % 0x10 := by
  simp [nOf, BitVec.extractLsb'_toNat]

theorem nnOf_toNat (w : Word) : (nnOf w).toNat = w.toNat % 0x100 := by
  simp [nnOf, BitVec.extractLsb'_toNat]

theorem nnnOf_toNat (w : Word) : (nnnOf w).toNat = w.toNat % 0x1000 := by
  simp [nnnOf, BitVec.extractLsb'_toNat]

/-! ### Assembled words -/

theorem wordXNN_toNat (f : BitVec 4) (x : Reg) (nn : Byte) :
    (wordXNN f x nn).toNat = 0x1000 * f.toNat + 0x100 * x.val + nn.toNat := by
  have := f.isLt; have := x.isLt; have := nn.isLt
  simp only [wordXNN, BitVec.toNat_ofNat]
  omega

theorem wordNNN_toNat (f : BitVec 4) (nnn : BitVec 12) :
    (wordNNN f nnn).toNat = 0x1000 * f.toNat + nnn.toNat := by
  have := f.isLt; have := nnn.isLt
  simp only [wordNNN, BitVec.toNat_ofNat]
  omega

theorem wordXYN_toNat (f : BitVec 4) (x y : Reg) (n : BitVec 4) :
    (wordXYN f x y n).toNat = 0x1000 * f.toNat + 0x100 * x.val + 0x10 * y.val + n.toNat := by
  have := f.isLt; have := x.isLt; have := y.isLt; have := n.isLt
  simp only [wordXYN, BitVec.toNat_ofNat]
  omega

section fields
variable (f n : BitVec 4) (x y : Reg) (nn : Byte) (nnn : BitVec 12)

@[simp] theorem familyOf_wordXNN : familyOf (wordXNN f x nn) = f := by
  have := x.isLt; have := nn.isLt
  apply BitVec.eq_of_toNat_eq; rw [familyOf_toNat, wordXNN_toNat]; omega

@[simp] theorem xOf_wordXNN : xOf (wordXNN f x nn) = x := by
  have := x.isLt; have := nn.isLt
  apply Fin.ext; rw [xOf_val, wordXNN_toNat]; omega

@[simp] theorem nnOf_wordXNN : nnOf (wordXNN f x nn) = nn := by
  have := nn.isLt
  apply BitVec.eq_of_toNat_eq; rw [nnOf_toNat, wordXNN_toNat]; omega

@[simp] theorem familyOf_wordNNN : familyOf (wordNNN f nnn) = f := by
  have := nnn.isLt
  apply BitVec.eq_of_toNat_eq; rw [familyOf_toNat, wordNNN_toNat]; omega

@[simp] theorem nnnOf_wordNNN : nnnOf (wordNNN f nnn) = nnn := by
  have := nnn.isLt
  apply BitVec.eq_of_toNat_eq; rw [nnnOf_toNat, wordNNN_toNat]; omega

@[simp] theorem familyOf_wordXYN : familyOf (wordXYN f x y n) = f := by
  have := x.isLt; have := y.isLt; have := n.isLt
  apply BitVec.eq_of_toNat_eq; rw [familyOf_toNat, wordXYN_toNat]; omega

@[simp] theorem xOf_wordXYN : xOf (wordXYN f x y n) = x := by
  have := x.isLt; have := y.isLt; have := n.isLt
  apply Fin.ext; rw [xOf_val, wordXYN_toNat]; omega

@[simp] theorem yOf_wordXYN : yOf (wordXYN f x y n) = y := by
  have := y.isLt; have := n.isLt
  apply Fin.ext; rw [yOf_val, wordXYN_toNat]; omega

@[simp] theorem nOf_wordXYN : nOf (wordXYN f x y n) = n := by
  have := n.isLt
  apply BitVec.eq_of_toNat_eq; rw [nOf_toNat, wordXYN_toNat]; omega

end fields

/-! ### The dispatch, family by family (R75) -/

section families
variable {w : Word}

theorem decodeWord_family0 (h : familyOf w = 0x0#4) : decodeWord w = decodeFamily0 w := by
  simp [decodeWord, h]

theorem decodeWord_family1 (h : familyOf w = 0x1#4) : decodeWord w = some (.jp (nnnOf w)) := by
  simp [decodeWord, h]

theorem decodeWord_family2 (h : familyOf w = 0x2#4) : decodeWord w = some (.call (nnnOf w)) := by
  simp [decodeWord, h]

theorem decodeWord_family3 (h : familyOf w = 0x3#4) : decodeWord w = some (.seVxNn (xOf w) (nnOf w)) := by
  simp [decodeWord, h]

theorem decodeWord_family4 (h : familyOf w = 0x4#4) : decodeWord w = some (.sneVxNn (xOf w) (nnOf w)) := by
  simp [decodeWord, h]

theorem decodeWord_family5 (h : familyOf w = 0x5#4) : decodeWord w = if nOf w = 0x0#4 then some (.seVxVy (xOf w) (yOf w)) else none := by
  simp [decodeWord, h]

theorem decodeWord_family6 (h : familyOf w = 0x6#4) : decodeWord w = some (.ldVxNn (xOf w) (nnOf w)) := by
  simp [decodeWord, h]

theorem decodeWord_family7 (h : familyOf w = 0x7#4) : decodeWord w = some (.addVxNn (xOf w) (nnOf w)) := by
  simp [decodeWord, h]

theorem decodeWord_family8 (h : familyOf w = 0x8#4) : decodeWord w = decodeFamily8 w := by
  simp [decodeWord, h]

theorem decodeWord_family9 (h : familyOf w = 0x9#4) : decodeWord w = if nOf w = 0x0#4 then some (.sneVxVy (xOf w) (yOf w)) else none := by
  simp [decodeWord, h]

theorem decodeWord_familyA (h : familyOf w = 0xA#4) : decodeWord w = some (.ldINnn (nnnOf w)) := by
  simp [decodeWord, h]

theorem decodeWord_familyB (h : familyOf w = 0xB#4) : decodeWord w = some (.jpV0Nnn (nnnOf w)) := by
  simp [decodeWord, h]

theorem decodeWord_familyC (h : familyOf w = 0xC#4) : decodeWord w = some (.rnd (xOf w) (nnOf w)) := by
  simp [decodeWord, h]

theorem decodeWord_familyD (h : familyOf w = 0xD#4) : decodeWord w = some (.drw (xOf w) (yOf w) (nOf w)) := by
  simp [decodeWord, h]

theorem decodeWord_familyE (h : familyOf w = 0xE#4) : decodeWord w = decodeFamilyE w := by
  simp [decodeWord, h]

theorem decodeWord_familyF (h : familyOf w = 0xF#4) : decodeWord w = decodeFamilyF w := by
  simp [decodeWord, h]

/-- A word is of one of the sixteen families. -/
theorem familyOf_cases (w : Word) : ∃ k : Fin 16, familyOf w = BitVec.ofNat 4 k.val :=
  ⟨⟨(familyOf w).toNat, (familyOf w).isLt⟩, by simp⟩

/-- What family 0 decodes to (R76). -/
theorem decodeFamily0_cases {i : Instr} (h : decodeFamily0 w = some i) :
    (w = 0x00E0#16 ∧ i = .cls) ∨ (w = 0x00EE#16 ∧ i = .ret) := by
  unfold decodeFamily0 at h
  split_ifs at h <;> simp_all

/-- What family 8 decodes to. -/
theorem decodeFamily8_cases {i : Instr} (h : decodeFamily8 w = some i) :
    (nOf w = 0x0#4 ∧ i = .ldVxVy (xOf w) (yOf w)) ∨
    (nOf w = 0x1#4 ∧ i = .orVxVy (xOf w) (yOf w)) ∨
    (nOf w = 0x2#4 ∧ i = .andVxVy (xOf w) (yOf w)) ∨
    (nOf w = 0x3#4 ∧ i = .xorVxVy (xOf w) (yOf w)) ∨
    (nOf w = 0x4#4 ∧ i = .addVxVy (xOf w) (yOf w)) ∨
    (nOf w = 0x5#4 ∧ i = .sub (xOf w) (yOf w)) ∨
    (nOf w = 0x6#4 ∧ i = .shr (xOf w) (yOf w)) ∨
    (nOf w = 0x7#4 ∧ i = .subn (xOf w) (yOf w)) ∨
    (nOf w = 0xe#4 ∧ i = .shl (xOf w) (yOf w)) := by
  unfold decodeFamily8 at h
  split_ifs at h <;> simp_all

/-- What family E decodes to. -/
theorem decodeFamilyE_cases {i : Instr} (h : decodeFamilyE w = some i) :
    (nnOf w = 0x9E#8 ∧ i = .skp (xOf w)) ∨
    (nnOf w = 0xA1#8 ∧ i = .sknp (xOf w)) := by
  unfold decodeFamilyE at h
  split_ifs at h <;> simp_all

/-- What family F decodes to. -/
theorem decodeFamilyF_cases {i : Instr} (h : decodeFamilyF w = some i) :
    (nnOf w = 0x07#8 ∧ i = .ldVxDt (xOf w)) ∨
    (nnOf w = 0x0A#8 ∧ i = .ldVxK (xOf w)) ∨
    (nnOf w = 0x15#8 ∧ i = .ldDtVx (xOf w)) ∨
    (nnOf w = 0x18#8 ∧ i = .ldStVx (xOf w)) ∨
    (nnOf w = 0x1E#8 ∧ i = .addIVx (xOf w)) ∨
    (nnOf w = 0x29#8 ∧ i = .ldFVx (xOf w)) ∨
    (nnOf w = 0x33#8 ∧ i = .ldBVx (xOf w)) ∨
    (nnOf w = 0x55#8 ∧ i = .ldMiVx (xOf w)) ∨
    (nnOf w = 0x65#8 ∧ i = .ldVxMi (xOf w)) := by
  unfold decodeFamilyF at h
  split_ifs at h <;> simp_all

end families

/-! ### What the masks of the opcode map look at (R74) -/

theorem and_mask_toNat (w m : Word) : (w &&& m).toNat = w.toNat &&& m.toNat := BitVec.toNat_and w m

/-- Mask 0xF000 keeps the family. -/
theorem and_F000 (w : Word) : (w &&& 0xF000#16).toNat = 0x1000 * (w.toNat / 0x1000) := by
  have h : w &&& 0xF000#16 = (w >>> 12) <<< 12 := by
    ext i hi
    interval_cases i <;> simp
  have := w.isLt
  rw [h]
  simp only [BitVec.toNat_shiftLeft, BitVec.toNat_ushiftRight, Nat.shiftLeft_eq, Nat.shiftRight_eq_div_pow]
  omega

/-- Mask 0xF00F keeps the family and N. -/
theorem and_F00F (w : Word) : (w &&& 0xF00F#16).toNat = 0x1000 * (w.toNat / 0x1000) + w.toNat % 0x10 := by
  have h : w &&& 0xF00F#16 = ((w >>> 12) <<< 12) ||| ((w <<< 12) >>> 12) := by
    ext i hi
    interval_cases i <;> simp
  have := w.isLt
  have hd : (w >>> 12) <<< 12 &&& ((w <<< 12) >>> 12) = 0#16 := by
    ext i hi
    interval_cases i <;> simp
  rw [h, ← BitVec.add_eq_or_of_and_eq_zero _ _ hd]
  simp only [BitVec.toNat_add, BitVec.toNat_shiftLeft, BitVec.toNat_ushiftRight, Nat.shiftLeft_eq,
    Nat.shiftRight_eq_div_pow]
  omega

/-- Mask 0xF0FF keeps the family and NN. -/
theorem and_F0FF (w : Word) : (w &&& 0xF0FF#16).toNat = 0x1000 * (w.toNat / 0x1000) + w.toNat % 0x100 := by
  have h : w &&& 0xF0FF#16 = ((w >>> 12) <<< 12) ||| ((w <<< 8) >>> 8) := by
    ext i hi
    interval_cases i <;> simp
  have := w.isLt
  have hd : (w >>> 12) <<< 12 &&& ((w <<< 8) >>> 8) = 0#16 := by
    ext i hi
    interval_cases i <;> simp
  rw [h, ← BitVec.add_eq_or_of_and_eq_zero _ _ hd]
  simp only [BitVec.toNat_add, BitVec.toNat_shiftLeft, BitVec.toNat_ushiftRight, Nat.shiftLeft_eq,
    Nat.shiftRight_eq_div_pow]
  omega

/-- Mask 0xFFFF keeps the whole word. -/
theorem and_FFFF (w : Word) : w &&& 0xFFFF#16 = w := by
  ext i hi
  interval_cases i <;> simp

/-! ### Bytes of a word (20_memory.md R53) -/

theorem wordOfBytes_toNat (b0 b1 : Byte) : (wordOfBytes b0 b1).toNat = 0x100 * b0.toNat + b1.toNat := by
  have := b0.isLt; have := b1.isLt
  simp only [wordOfBytes, BitVec.toNat_ofNat]
  omega

theorem highByte_toNat (w : Word) : (highByte w).toNat = w.toNat / 0x100 := by
  have := w.isLt
  simp only [highByte, BitVec.extractLsb'_toNat, Nat.shiftRight_eq_div_pow]
  omega

theorem lowByte_toNat (w : Word) : (lowByte w).toNat = w.toNat % 0x100 := by
  simp [lowByte, BitVec.extractLsb'_toNat]

/-- A word's two bytes, read back big-endian, give the word. -/
@[simp] theorem wordOfBytes_bytes (w : Word) : wordOfBytes (highByte w) (lowByte w) = w := by
  apply BitVec.eq_of_toNat_eq
  rw [wordOfBytes_toNat, highByte_toNat, lowByte_toNat]
  omega

end Sys2Proof
end

