-- ==== Sys2Proof/Laws/Flags.lean ====
section
/-! SUPPORT. The flag and result computations as numbers, and what the two writes of a flag-writing ALU instruction
leave under each ALU_FLAG_ORDER. -/

namespace Sys2Proof.Machine

theorem boolByte_toNat (c : Bool) : (boolByte c).toNat = if c then 1 else 0 := by cases c <;> rfl

theorem addResult_toNat (a b : Byte) : (addResult a b).toNat = (a.toNat + b.toNat) % 256 := by
  simp [addResult, addWide]

theorem addResult_eq (a b : Byte) : addResult a b = a + b := by
  apply BitVec.eq_of_toNat_eq
  rw [addResult_toNat, BitVec.toNat_add]

theorem subResult_toNat (a b : Byte) : (subResult a b).toNat = (256 - b.toNat + a.toNat) % 256 := by
  simp [subResult, BitVec.toNat_sub]

theorem shrResult_toNat (a : Byte) : (shrResult a).toNat = a.toNat / 2 := by
  simp [shrResult, Nat.shiftRight_eq_div_pow]

theorem shlResult_toNat (a : Byte) : (shlResult a).toNat = a.toNat * 2 % 256 := by
  simp [shlResult, Nat.shiftLeft_eq]

theorem lsbFlag_toNat (a : Byte) : (lsbFlag a).toNat = a.toNat % 2 := by revert a; decide

theorem msbFlag_toNat (a : Byte) : (msbFlag a).toNat = a.toNat / 128 := by revert a; decide

/-- The flag first: every register but X and VF is kept; X ends as the result, VF as the flag unless X is VF. -/
theorem writeFlagThenResult_reg (x : Reg) (f r : Byte) (s : State) (k : Reg) :
    (writeFlagThenResult x f r s).reg k = if k = x then r else if k = vf then f else s.reg k := by
  simp only [writeFlagThenResult, State.reg_setReg]

/-- The result first: VF ends as the flag, X as the result unless X is VF. -/
theorem writeResultThenFlag_reg (x : Reg) (f r : Byte) (s : State) (k : Reg) :
    (writeResultThenFlag x f r s).reg k = if k = vf then f else if k = x then r else s.reg k := by
  simp only [writeResultThenFlag, State.reg_setReg]

theorem writeFlagThenResult_eq (x : Reg) (f r : Byte) (s : State) :
    writeFlagThenResult x f r s = { s with v := (writeFlagThenResult x f r s).v } := rfl

theorem writeResultThenFlag_eq (x : Reg) (f r : Byte) (s : State) :
    writeResultThenFlag x f r s = { s with v := (writeResultThenFlag x f r s).v } := rfl

/-- The latched writes of 8XY4: one of the two orders. -/
theorem writeLatched_cases (x : Reg) (f r : Byte) (s : State) :
    (s.cfg.aluFlagOrder = .latchedFlagLast ∧ writeLatched x f r s = writeResultThenFlag x f r s) ∨
      (s.cfg.aluFlagOrder ≠ .latchedFlagLast ∧ writeLatched x f r s = writeFlagThenResult x f r s) := by
  unfold writeLatched
  cases h : s.cfg.aluFlagOrder <;> simp

theorem writeLatched_eq (x : Reg) (f r : Byte) (s : State) :
    writeLatched x f r s = { s with v := (writeLatched x f r s).v } := by
  obtain ⟨-, h⟩ | ⟨-, h⟩ := writeLatched_cases x f r s <;> rw [h]
  · exact writeResultThenFlag_eq x f r s
  · exact writeFlagThenResult_eq x f r s

/-- The re-reading writes change V only. -/
theorem writeReread_eq (x y : Reg) (flag result : Byte → Byte → Byte) (s : State) :
    writeReread x y flag result s = { s with v := (writeReread x y flag result s).v } := by
  unfold writeReread
  cases h : s.cfg.aluFlagOrder <;> rfl

/-- What the re-reading writes leave in each register under each order (43_alu.md R151). -/
theorem writeReread_reg (x y : Reg) (flag result : Byte → Byte → Byte) (s : State) (k : Reg) :
    (writeReread x y flag result s).reg k =
      match s.cfg.aluFlagOrder with
      | .latchedResultLast =>
        if k = x then result (s.reg x) (s.reg y) else if k = vf then flag (s.reg x) (s.reg y) else s.reg k
      | .latchedFlagLast =>
        if k = vf then flag (s.reg x) (s.reg y) else if k = x then result (s.reg x) (s.reg y) else s.reg k
      | .sequential =>
        if k = x then
          result (if x = vf then flag (s.reg x) (s.reg y) else s.reg x)
            (if y = vf then flag (s.reg x) (s.reg y) else s.reg y)
        else if k = vf then flag (s.reg x) (s.reg y) else s.reg k := by
  unfold writeReread
  cases h : s.cfg.aluFlagOrder with
  | latchedResultLast => exact writeFlagThenResult_reg ..
  | latchedFlagLast => exact writeResultThenFlag_reg ..
  | sequential => simp only [State.reg_setReg]

end Sys2Proof.Machine
end

