-- ==== Sys2Proof/Laws/Exec.lean ====
section
/-! SUPPORT. What `exec` can do, said once: the four memory instructions by the outcome of their check, and the shape of
every instruction's answer. -/

namespace Sys2Proof.Machine

open Sys2Proof.Safety

variable (s : State)

/-! ### The memory instructions -/

theorem exec_drw_of_ok (x y : Reg) (n : BitVec 4) (h : AccessOk s s.i n.toNat) :
    exec (.drw x y n) s = .next ((drawSprite x y n s).setPc (s.pc + 2#16)) := by
  simp only [exec, execDrw]; rw [withChecked_ok _ h]; rfl

theorem exec_ldBVx_of_ok (x : Reg) (h : AccessOk s s.i 3) :
    exec (.ldBVx x) s = .next ((s.writeBytes s.i (decimalDigits (s.reg x))).setPc (s.pc + 2#16)) := by
  simp only [exec, execLdBVx]; rw [withChecked_ok _ h, complete_eq, State.writeBytes_eq]; rfl

theorem exec_ldMiVx_of_ok (x : Reg) (h : AccessOk s s.i (x.val + 1)) :
    exec (.ldMiVx x) s = .next ((s.writeBytes s.i (s.regValues x)).setPc (s.pc + 2#16)) := by
  simp only [exec, execLdMiVx]; rw [withChecked_ok _ h, complete_eq, State.writeBytes_eq]; rfl

theorem exec_ldVxMi_of_ok (x : Reg) (h : AccessOk s s.i (x.val + 1)) :
    exec (.ldVxMi x) s = .next ((loadRegs s (regsUpTo x) s).setPc (s.pc + 2#16)) := by
  simp only [exec, execLdVxMi]; rw [withChecked_ok _ h, complete_eq, (loadRegs_eq s _ s).1]; rfl

/-- A data access whose check fails raises MemoryOutOfRange at the lowest bad address. -/
theorem exec_of_lowestBad {i : Instr} {n : Nat} {a : Addr} (hi : dataBytes i = some n) (h : LowestBad s s.i n a) :
    exec i s = .next (s.withFault (.memoryOutOfRange s.pc a)) := by
  cases i <;> simp only [dataBytes, reduceCtorEq, Option.some.injEq] at hi <;> subst hi <;>
    simp only [exec, execDrw, execLdBVx, execLdMiVx, execLdVxMi] <;> exact withChecked_bad _ h

/-! ### Every instruction -/

/-- A checked access either raises a fault of its own PC or completes with a body that keeps PC, the fault status, the
parameters and the output. -/
theorem withChecked_shape (n : Nat) (body : State → State)
    (hb : ∀ s, (body s).pc = s.pc ∧ (body s).status = s.status ∧ (body s).cfg = s.cfg ∧ (body s).out = s.out) :
    (∃ f : Fault, withChecked s.i n (fun s => complete .seq (body s)) s = .next (s.withFault f) ∧ f.pc = s.pc) ∨
      ∃ u sel, withChecked s.i n (fun s => complete .seq (body s)) s = complete sel u ∧ u.pc = s.pc ∧
        u.status = s.status ∧ u.cfg = s.cfg ∧ u.out = s.out := by
  rcases withChecked_cases s s.i n (fun s => complete .seq (body s)) with ⟨b, -, h⟩ | ⟨-, h⟩
  · exact .inl ⟨_, h, rfl⟩
  · exact .inr ⟨body s, .seq, h, hb s⟩

/-- Every instruction either raises one fault, whose record names its PC and which changes nothing else, or completes:
its writes (`u`) keep PC, the fault status, the parameters and the output, and PC follows from a selector. -/
theorem exec_cases (i : Instr) :
    (∃ f : Fault, exec i s = .next (s.withFault f) ∧ f.pc = s.pc) ∨
      ∃ u sel, exec i s = complete sel u ∧ u.pc = s.pc ∧ u.status = s.status ∧ u.cfg = s.cfg ∧ u.out = s.out := by
  cases i
  case drw x y n => exact withChecked_shape s _ (drawSprite x y n) fun s => ⟨rfl, rfl, rfl, rfl⟩
  case ldBVx x =>
    exact withChecked_shape s _ (fun s => s.writeBytes s.i (decimalDigits (s.reg x))) fun s => by
      rw [s.writeBytes_eq]; exact ⟨rfl, rfl, rfl, rfl⟩
  case ldMiVx x =>
    exact withChecked_shape s _ (fun s => s.writeBytes s.i (s.regValues x)) fun s => by
      rw [s.writeBytes_eq]; exact ⟨rfl, rfl, rfl, rfl⟩
  case ldVxMi x =>
    exact withChecked_shape s _ (fun s => loadRegs s (regsUpTo x) s) fun s => by
      rw [(loadRegs_eq s _ s).1]; exact ⟨rfl, rfl, rfl, rfl⟩
  case ret =>
    simp only [exec, execRet]; split
    · exact .inl ⟨_, rfl, rfl⟩
    · exact .inr ⟨_, _, rfl, rfl, rfl, rfl, rfl⟩
  case call =>
    simp only [exec, execCall]; split
    · exact .inl ⟨_, rfl, rfl⟩
    · exact .inr ⟨_, _, rfl, rfl, rfl, rfl, rfl⟩
  case skp =>
    simp only [exec, execSkp]; split
    · exact .inl ⟨_, rfl, rfl⟩
    · exact .inr ⟨_, _, rfl, rfl, rfl, rfl, rfl⟩
  case sknp =>
    simp only [exec, execSknp]; split
    · exact .inl ⟨_, rfl, rfl⟩
    · exact .inr ⟨_, _, rfl, rfl, rfl, rfl, rfl⟩
  case ldVxK =>
    simp only [exec, execLdVxK]; split <;> exact .inr ⟨_, _, rfl, rfl, rfl, rfl, rfl⟩
  case addVxVy => exact .inr ⟨_, _, rfl, by rw [writeLatched_eq]; exact ⟨rfl, rfl, rfl, rfl⟩⟩
  case addIVx => refine .inr ⟨_, _, rfl, ?_⟩; simp only [addToI]; split <;> exact ⟨rfl, rfl, rfl, rfl⟩
  case sub => exact .inr ⟨_, _, rfl, by rw [writeReread_eq]; exact ⟨rfl, rfl, rfl, rfl⟩⟩
  case subn => exact .inr ⟨_, _, rfl, by rw [writeReread_eq]; exact ⟨rfl, rfl, rfl, rfl⟩⟩
  case shr => exact .inr ⟨_, _, rfl, by rw [writeReread_eq]; exact ⟨rfl, rfl, rfl, rfl⟩⟩
  case shl => exact .inr ⟨_, _, rfl, by rw [writeReread_eq]; exact ⟨rfl, rfl, rfl, rfl⟩⟩
  all_goals exact .inr ⟨_, _, rfl, rfl, rfl, rfl, rfl⟩

/-- The words at PC and the parameters decide a fetch: states that agree on PC, memory and parameters fetch alike. -/
theorem State.fetch_congr {s t : State} (hp : t.pc = s.pc) (hc : t.cfg = s.cfg) (hm : t.mem = s.mem) :
    t.fetch = s.fetch := by
  simp [State.fetch, State.firstBad, State.readByte, hp, hc, hm]

end Sys2Proof.Machine
end

