-- ==== Sys2Proof/Laws/PerInstr.lean ====
section
/-! SUPPORT. The per-instruction family EncodedRow: the word of each instruction is covered by the instruction's own row
of 30_encoding.md R74, and that row is in the table. One lemma per constructor. -/

namespace Sys2Proof.Laws.EncodedRow

/-- The encoder's word matches the row the instruction stands for, and the row is one of the 34. -/
def Statement (i : Instr) : Prop := i.row ∈ opcodeTable ∧ i.row.covers (encode i) = true

theorem covers_F000 {w : Word} {p : Word} {name : String} (h : 0x1000 * (w.toNat / 0x1000) = p.toNat) :
    Row.covers ⟨name, p, 0xF000#16⟩ w = true := by
  simp only [Row.covers, beq_iff_eq]
  exact BitVec.eq_of_toNat_eq (by rw [and_F000, h])

theorem covers_F00F {w : Word} {p : Word} {name : String}
    (h : 0x1000 * (w.toNat / 0x1000) + w.toNat % 0x10 = p.toNat) :
    Row.covers ⟨name, p, 0xF00F#16⟩ w = true := by
  simp only [Row.covers, beq_iff_eq]
  exact BitVec.eq_of_toNat_eq (by rw [and_F00F, h])

theorem covers_F0FF {w : Word} {p : Word} {name : String}
    (h : 0x1000 * (w.toNat / 0x1000) + w.toNat % 0x100 = p.toNat) :
    Row.covers ⟨name, p, 0xF0FF#16⟩ w = true := by
  simp only [Row.covers, beq_iff_eq]
  exact BitVec.eq_of_toNat_eq (by rw [and_F0FF, h])

/-- A word `fXNN` under mask 0xF000. -/
theorem xnn_covered (f : BitVec 4) (x : Reg) (nn : Byte) (p : Word) (name : String) (h : p.toNat = 0x1000 * f.toNat) :
    Row.covers ⟨name, p, 0xF000#16⟩ (wordXNN f x nn) = true :=
  covers_F000 (by have := x.isLt; have := nn.isLt; rw [wordXNN_toNat, h]; omega)

/-- A word `fXNN` under mask 0xF0FF. -/
theorem x_covered (f : BitVec 4) (x : Reg) (nn : Byte) (p : Word) (name : String)
    (h : p.toNat = 0x1000 * f.toNat + nn.toNat) :
    Row.covers ⟨name, p, 0xF0FF#16⟩ (wordXNN f x nn) = true :=
  covers_F0FF (by have := x.isLt; have := nn.isLt; rw [wordXNN_toNat, h]; omega)

/-- A word `fNNN` under mask 0xF000. -/
theorem nnn_covered (f : BitVec 4) (nnn : BitVec 12) (p : Word) (name : String) (h : p.toNat = 0x1000 * f.toNat) :
    Row.covers ⟨name, p, 0xF000#16⟩ (wordNNN f nnn) = true :=
  covers_F000 (by have := nnn.isLt; rw [wordNNN_toNat, h]; omega)

/-- A word `fXYn` under mask 0xF00F. -/
theorem xy_covered (f : BitVec 4) (x y : Reg) (n : BitVec 4) (p : Word) (name : String)
    (h : p.toNat = 0x1000 * f.toNat + n.toNat) :
    Row.covers ⟨name, p, 0xF00F#16⟩ (wordXYN f x y n) = true :=
  covers_F00F (by have := x.isLt; have := y.isLt; have := n.isLt; rw [wordXYN_toNat, h]; omega)

/-- A word `fXYN` under mask 0xF000. -/
theorem xyn_covered (f : BitVec 4) (x y : Reg) (n : BitVec 4) (p : Word) (name : String)
    (h : p.toNat = 0x1000 * f.toNat) :
    Row.covers ⟨name, p, 0xF000#16⟩ (wordXYN f x y n) = true :=
  covers_F000 (by have := x.isLt; have := y.isLt; have := n.isLt; rw [wordXYN_toNat, h]; omega)

theorem cls : Statement .cls :=
  ⟨by simp [opcodeTable, opcodeRows0to7, opcodeRows8, opcodeRows9toE, opcodeRowsF, Instr.row], by decide⟩

theorem ret : Statement .ret :=
  ⟨by simp [opcodeTable, opcodeRows0to7, opcodeRows8, opcodeRows9toE, opcodeRowsF, Instr.row], by decide⟩

theorem jp (nnn : BitVec 12) : Statement (.jp nnn) :=
  ⟨by simp [opcodeTable, opcodeRows0to7, opcodeRows8, opcodeRows9toE, opcodeRowsF, Instr.row], nnn_covered _ nnn _ _ rfl⟩

theorem call (nnn : BitVec 12) : Statement (.call nnn) :=
  ⟨by simp [opcodeTable, opcodeRows0to7, opcodeRows8, opcodeRows9toE, opcodeRowsF, Instr.row], nnn_covered _ nnn _ _ rfl⟩

theorem seVxNn (x : Reg) (nn : Byte) : Statement (.seVxNn x nn) :=
  ⟨by simp [opcodeTable, opcodeRows0to7, opcodeRows8, opcodeRows9toE, opcodeRowsF, Instr.row], xnn_covered _ x nn _ _ rfl⟩

theorem sneVxNn (x : Reg) (nn : Byte) : Statement (.sneVxNn x nn) :=
  ⟨by simp [opcodeTable, opcodeRows0to7, opcodeRows8, opcodeRows9toE, opcodeRowsF, Instr.row], xnn_covered _ x nn _ _ rfl⟩

theorem seVxVy (x y : Reg) : Statement (.seVxVy x y) :=
  ⟨by simp [opcodeTable, opcodeRows0to7, opcodeRows8, opcodeRows9toE, opcodeRowsF, Instr.row], xy_covered _ x y _ _ _ rfl⟩

theorem ldVxNn (x : Reg) (nn : Byte) : Statement (.ldVxNn x nn) :=
  ⟨by simp [opcodeTable, opcodeRows0to7, opcodeRows8, opcodeRows9toE, opcodeRowsF, Instr.row], xnn_covered _ x nn _ _ rfl⟩

theorem addVxNn (x : Reg) (nn : Byte) : Statement (.addVxNn x nn) :=
  ⟨by simp [opcodeTable, opcodeRows0to7, opcodeRows8, opcodeRows9toE, opcodeRowsF, Instr.row], xnn_covered _ x nn _ _ rfl⟩

theorem ldVxVy (x y : Reg) : Statement (.ldVxVy x y) :=
  ⟨by simp [opcodeTable, opcodeRows0to7, opcodeRows8, opcodeRows9toE, opcodeRowsF, Instr.row], xy_covered _ x y _ _ _ rfl⟩

theorem orVxVy (x y : Reg) : Statement (.orVxVy x y) :=
  ⟨by simp [opcodeTable, opcodeRows0to7, opcodeRows8, opcodeRows9toE, opcodeRowsF, Instr.row], xy_covered _ x y _ _ _ rfl⟩

theorem andVxVy (x y : Reg) : Statement (.andVxVy x y) :=
  ⟨by simp [opcodeTable, opcodeRows0to7, opcodeRows8, opcodeRows9toE, opcodeRowsF, Instr.row], xy_covered _ x y _ _ _ rfl⟩

theorem xorVxVy (x y : Reg) : Statement (.xorVxVy x y) :=
  ⟨by simp [opcodeTable, opcodeRows0to7, opcodeRows8, opcodeRows9toE, opcodeRowsF, Instr.row], xy_covered _ x y _ _ _ rfl⟩

theorem addVxVy (x y : Reg) : Statement (.addVxVy x y) :=
  ⟨by simp [opcodeTable, opcodeRows0to7, opcodeRows8, opcodeRows9toE, opcodeRowsF, Instr.row], xy_covered _ x y _ _ _ rfl⟩

theorem sub (x y : Reg) : Statement (.sub x y) :=
  ⟨by simp [opcodeTable, opcodeRows0to7, opcodeRows8, opcodeRows9toE, opcodeRowsF, Instr.row], xy_covered _ x y _ _ _ rfl⟩

theorem shr (x y : Reg) : Statement (.shr x y) :=
  ⟨by simp [opcodeTable, opcodeRows0to7, opcodeRows8, opcodeRows9toE, opcodeRowsF, Instr.row], xy_covered _ x y _ _ _ rfl⟩

theorem subn (x y : Reg) : Statement (.subn x y) :=
  ⟨by simp [opcodeTable, opcodeRows0to7, opcodeRows8, opcodeRows9toE, opcodeRowsF, Instr.row], xy_covered _ x y _ _ _ rfl⟩

theorem shl (x y : Reg) : Statement (.shl x y) :=
  ⟨by simp [opcodeTable, opcodeRows0to7, opcodeRows8, opcodeRows9toE, opcodeRowsF, Instr.row], xy_covered _ x y _ _ _ rfl⟩

theorem sneVxVy (x y : Reg) : Statement (.sneVxVy x y) :=
  ⟨by simp [opcodeTable, opcodeRows0to7, opcodeRows8, opcodeRows9toE, opcodeRowsF, Instr.row], xy_covered _ x y _ _ _ rfl⟩

theorem ldINnn (nnn : BitVec 12) : Statement (.ldINnn nnn) :=
  ⟨by simp [opcodeTable, opcodeRows0to7, opcodeRows8, opcodeRows9toE, opcodeRowsF, Instr.row], nnn_covered _ nnn _ _ rfl⟩

theorem jpV0Nnn (nnn : BitVec 12) : Statement (.jpV0Nnn nnn) :=
  ⟨by simp [opcodeTable, opcodeRows0to7, opcodeRows8, opcodeRows9toE, opcodeRowsF, Instr.row], nnn_covered _ nnn _ _ rfl⟩

theorem rnd (x : Reg) (nn : Byte) : Statement (.rnd x nn) :=
  ⟨by simp [opcodeTable, opcodeRows0to7, opcodeRows8, opcodeRows9toE, opcodeRowsF, Instr.row], xnn_covered _ x nn _ _ rfl⟩

theorem drw (x y : Reg) (n : BitVec 4) : Statement (.drw x y n) :=
  ⟨by simp [opcodeTable, opcodeRows0to7, opcodeRows8, opcodeRows9toE, opcodeRowsF, Instr.row], xyn_covered _ x y n _ _ rfl⟩

theorem skp (x : Reg) : Statement (.skp x) :=
  ⟨by simp [opcodeTable, opcodeRows0to7, opcodeRows8, opcodeRows9toE, opcodeRowsF, Instr.row], x_covered _ x _ _ _ rfl⟩

theorem sknp (x : Reg) : Statement (.sknp x) :=
  ⟨by simp [opcodeTable, opcodeRows0to7, opcodeRows8, opcodeRows9toE, opcodeRowsF, Instr.row], x_covered _ x _ _ _ rfl⟩

theorem ldVxDt (x : Reg) : Statement (.ldVxDt x) :=
  ⟨by simp [opcodeTable, opcodeRows0to7, opcodeRows8, opcodeRows9toE, opcodeRowsF, Instr.row], x_covered _ x _ _ _ rfl⟩

theorem ldVxK (x : Reg) : Statement (.ldVxK x) :=
  ⟨by simp [opcodeTable, opcodeRows0to7, opcodeRows8, opcodeRows9toE, opcodeRowsF, Instr.row], x_covered _ x _ _ _ rfl⟩

theorem ldDtVx (x : Reg) : Statement (.ldDtVx x) :=
  ⟨by simp [opcodeTable, opcodeRows0to7, opcodeRows8, opcodeRows9toE, opcodeRowsF, Instr.row], x_covered _ x _ _ _ rfl⟩

theorem ldStVx (x : Reg) : Statement (.ldStVx x) :=
  ⟨by simp [opcodeTable, opcodeRows0to7, opcodeRows8, opcodeRows9toE, opcodeRowsF, Instr.row], x_covered _ x _ _ _ rfl⟩

theorem addIVx (x : Reg) : Statement (.addIVx x) :=
  ⟨by simp [opcodeTable, opcodeRows0to7, opcodeRows8, opcodeRows9toE, opcodeRowsF, Instr.row], x_covered _ x _ _ _ rfl⟩

theorem ldFVx (x : Reg) : Statement (.ldFVx x) :=
  ⟨by simp [opcodeTable, opcodeRows0to7, opcodeRows8, opcodeRows9toE, opcodeRowsF, Instr.row], x_covered _ x _ _ _ rfl⟩

theorem ldBVx (x : Reg) : Statement (.ldBVx x) :=
  ⟨by simp [opcodeTable, opcodeRows0to7, opcodeRows8, opcodeRows9toE, opcodeRowsF, Instr.row], x_covered _ x _ _ _ rfl⟩

theorem ldMiVx (x : Reg) : Statement (.ldMiVx x) :=
  ⟨by simp [opcodeTable, opcodeRows0to7, opcodeRows8, opcodeRows9toE, opcodeRowsF, Instr.row], x_covered _ x _ _ _ rfl⟩

theorem ldVxMi (x : Reg) : Statement (.ldVxMi x) :=
  ⟨by simp [opcodeTable, opcodeRows0to7, opcodeRows8, opcodeRows9toE, opcodeRowsF, Instr.row], x_covered _ x _ _ _ rfl⟩

end Sys2Proof.Laws.EncodedRow
end

