-- ==== Sys2Proof/Tests/Slice0.lean ====
section
/-! SUPPORT. Tests of the model's author: ill-formed words, decoding of words written out from 30_encoding.md R74, single
steps from the vectors of 95_test_vectors.md, and for each obligation with hypotheses a concrete state that meets them
(`witness_<Obligation>`). -/

namespace Sys2Proof.Tests

open Sys2Proof Sys2Proof.Machine Sys2Proof.Safety

/-! ### Helpers -/

/-- The load state with a word at 0x200. -/
def start (w : Nat) : State := State.reset.withFetchWord 16 w

/-- The load state with a word at 0x200 and some registers set. -/
def startV (w : Nat) (vs : List (Reg × Byte)) : State := vs.foldl (fun s p => s.setReg p.1 p.2) (start w)

/-- Some bytes written at an address. -/
def bytes (s : State) (a : Addr) (bs : List Byte) : State := s.writeBytes a bs

/-- Some keys pressed. -/
def press (s : State) (ks : List Reg) : State := ks.foldl (fun s k => s.setKey k true) s

/-- A parameter set with a memory policy and a flag order. -/
def params (p : MemOobPolicy) (o : AluFlagOrder) : Config := { Config.default with memOob := p, aluFlagOrder := o }

/-- The state under other parameters of the same font. -/
def under (s : State) (p : MemOobPolicy) (o : AluFlagOrder) : State := { s with cfg := params p o }

/-- The next state, or the same one. -/
def nextOf : Host.Outcome State Machine.Fault Refusal → State → State
  | .next t, _ => t
  | .fault _, s => s
  | .refused _, s => s

/-- One cycle answers a next state with a property. -/
def cycles (s : State) (p : State → Bool) : Bool :=
  match step s with
  | .next t => p t
  | .fault _ => false
  | .refused _ => false

/-- One cycle ends with this fault and leaves PC, V, SP, the timers and memory. -/
def faults (s : State) (f : Machine.Fault) : Bool :=
  match step s with
  | .next t => t.status == .faulted f && t.out == .fault f && t.pc == s.pc && t.v == s.v && t.sp == s.sp &&
      t.dt == s.dt && t.st == s.st && t.mem == s.mem
  | .fault _ => false
  | .refused _ => false

/-- These pixels are lit, and those are dark. -/
def shows (s : State) (lit dark : List (Nat × Nat)) : Bool :=
  lit.all (fun p => s.pixel p.1 p.2) && dark.all fun p => !s.pixel p.1 p.2

/-! ### Well-formedness: each kind of mask refuses an ill-formed word (30_encoding.md R76, R77) -/

theorem test_wellformed_refuses_family0_with_other_x : wordWellFormed 0x01E0#16 = false := by decide
theorem test_wellformed_refuses_family0_with_other_byte : wordWellFormed 0x00EF#16 = false := by decide
theorem test_wellformed_refuses_family5_with_n : wordWellFormed 0x5121#16 = false := by decide
theorem test_wellformed_refuses_family8_n8 : wordWellFormed 0x8008#16 = false := by decide
theorem test_wellformed_refuses_family8_nF : wordWellFormed 0x812F#16 = false := by decide
theorem test_wellformed_refuses_family9_with_n : wordWellFormed 0x9AB1#16 = false := by decide
theorem test_wellformed_refuses_familyE_9F : wordWellFormed 0xE19F#16 = false := by decide
theorem test_wellformed_refuses_familyF_66 : wordWellFormed 0xF166#16 = false := by decide
theorem test_wellformed_accepts_a_word_of_each_mask :
    wordWellFormed 0x00E0#16 ∧ wordWellFormed 0x1ABC#16 ∧ wordWellFormed 0x5120#16 ∧ wordWellFormed 0xE19E#16 := by
  decide

/-! ### Decoding: a word of every row, written out from its pattern in 30_encoding.md R74 -/

theorem test_decode_family0 :
    decodeWord 0x00E0#16 = some .cls ∧ decodeWord 0x00EE#16 = some .ret ∧ decodeWord 0x0000#16 = none := by decide

theorem test_decode_families_1_to_7 :
    decodeWord 0x1ABC#16 = some (.jp 0xABC#12) ∧ decodeWord 0x2345#16 = some (.call 0x345#12) ∧
      decodeWord 0x3F01#16 = some (.seVxNn 0xF 0x01#8) ∧ decodeWord 0x4210#16 = some (.sneVxNn 2 0x10#8) ∧
      decodeWord 0x5120#16 = some (.seVxVy 1 2) ∧ decodeWord 0x6A42#16 = some (.ldVxNn 0xA 0x42#8) ∧
      decodeWord 0x75FF#16 = some (.addVxNn 5 0xFF#8) := by decide

theorem test_decode_family8 :
    decodeWord 0x8120#16 = some (.ldVxVy 1 2) ∧ decodeWord 0x8121#16 = some (.orVxVy 1 2) ∧
      decodeWord 0x8122#16 = some (.andVxVy 1 2) ∧ decodeWord 0x8123#16 = some (.xorVxVy 1 2) ∧
      decodeWord 0x8124#16 = some (.addVxVy 1 2) ∧ decodeWord 0x8305#16 = some (.sub 3 0) ∧
      decodeWord 0x81F6#16 = some (.shr 1 0xF) ∧ decodeWord 0x8127#16 = some (.subn 1 2) ∧
      decodeWord 0x810E#16 = some (.shl 1 0) := by decide

theorem test_decode_families_9_to_D :
    decodeWord 0x9AB0#16 = some (.sneVxVy 0xA 0xB) ∧ decodeWord 0xA123#16 = some (.ldINnn 0x123#12) ∧
      decodeWord 0xB123#16 = some (.jpV0Nnn 0x123#12) ∧ decodeWord 0xC30F#16 = some (.rnd 3 0x0F#8) ∧
      decodeWord 0xD12F#16 = some (.drw 1 2 0xF#4) := by decide

theorem test_decode_families_E_and_F :
    decodeWord 0xE19E#16 = some (.skp 1) ∧ decodeWord 0xE1A1#16 = some (.sknp 1) ∧
      decodeWord 0xF307#16 = some (.ldVxDt 3) ∧ decodeWord 0xF20A#16 = some (.ldVxK 2) ∧
      decodeWord 0xF115#16 = some (.ldDtVx 1) ∧ decodeWord 0xF118#16 = some (.ldStVx 1) ∧
      decodeWord 0xF11E#16 = some (.addIVx 1) ∧ decodeWord 0xF129#16 = some (.ldFVx 1) ∧
      decodeWord 0xF533#16 = some (.ldBVx 5) ∧ decodeWord 0xF255#16 = some (.ldMiVx 2) ∧
      decodeWord 0xF165#16 = some (.ldVxMi 1) := by decide

theorem test_encode_writes_the_pattern :
    encode (.drw 1 2 0xF#4) = 0xD12F#16 ∧ encode (.jpV0Nnn 0x123#12) = 0xB123#16 ∧
      encode (.shl 1 0) = 0x810E#16 ∧ encode (.ldVxMi 1) = 0xF165#16 ∧ encode .ret = 0x00EE#16 := by decide

theorem test_decode_table_word_is_big_endian :
    decodeTableWord 16 0xF165 = some (.ldVxMi 1) ∧ decodeTableWord 16 0x65F1 = some (.ldVxNn 5 0xF1#8) := by decide

/-! ### The engine (95_test_vectors.md "Engine: fetch, PC step, faults") -/

theorem test_fetch_is_big_endian : (start 0x1234).fetch = .word 0x1234#16 := by decide

theorem test_cycle_at_an_odd_pc :
    cycles (bytes (State.reset.setPc 0x201#16) 0x201#16 [0x60#8, 0x05#8])
      (fun t => t.reg 0 == 5#8 && t.pc == 0x203#16) = true := by decide

theorem test_cycle_at_the_last_word :
    cycles (bytes (State.reset.setPc 0xFFE#16) 0xFFE#16 [0x60#8, 0x01#8])
      (fun t => t.reg 0 == 1#8 && t.pc == 0x1000#16) = true := by decide

theorem test_fetch_faults_at_FFF :
    faults (State.reset.setPc 0xFFF#16) (.memoryOutOfRange 0xFFF#16 0x1000#16) = true := by decide

theorem test_fetch_wraps_at_FFF :
    cycles (under (bytes (State.reset.setPc 0xFFF#16) 0xFFF#16 [0x60#8]) .wrap .latchedResultLast)
      (fun t => t.reg 0 == 0xF0#8 && t.pc == 0x1001#16) = true := by decide

theorem test_cycle_steps_the_timers_and_sounds :
    cycles (((start 0x6AFF).setDt 3#8).setSt 1#8)
      (fun t => t.reg 0xA == 0xFF#8 && t.dt == 2#8 && t.st == 0#8 && t.out == .ok true) = true := by decide

theorem test_unsupported_word_leaves_the_timers :
    faults (((start 0xFFFF).setDt 3#8).setSt 1#8) (.unsupportedInstruction 0x200#16 0xFFFF#16) = true := by decide

theorem test_a_faulted_block_returns_its_fault :
    step ((start 0x00EE).withFault (.stackUnderflow 0x200#16)) = .fault (.stackUnderflow 0x200#16) := rfl

/-! ### Display -/

theorem test_cls : cycles ((startV 0x00E0 [(0xF, 7#8)]).setDisplay
    ((blankDisplay.setPixel 0 0 true).setPixel 63 31 true))
    (fun t => shows t [] [(0, 0), (63, 31), (31, 16)] && t.pc == 0x202#16 && t.reg 0xF == 7#8) = true := by decide

/-- W11: from x = 63, y = 31 the sprite wraps in both directions. -/
theorem test_drw_wraps :
    cycles ((bytes (startV 0xD012 [(0, 63#8), (1, 31#8)]) 0x300#16 [0xC0#8, 0x80#8]).setI 0x300#16)
      (fun t => shows t [(63, 31), (0, 31), (63, 0)] [(0, 0), (1, 31), (62, 31), (63, 1)] && t.reg 0xF == 0#8) = true := by decide

/-- DF11 with VF = 5: the old VF is the x coordinate; a lit pixel there is erased. -/
theorem test_drw_reads_vf_first_and_collides :
    cycles (((bytes (startV 0xDF11 [(0xF, 5#8)]) 0x300#16 [0xC0#8]).setI 0x300#16).setDisplay
      (blankDisplay.setPixel 6 0 true)) (fun t => shows t [(5, 0)] [(6, 0), (4, 0), (7, 0), (0, 0), (5, 1)] && t.reg 0xF == 1#8) = true := by decide

/-! ### Control transfer -/

theorem test_ret : cycles (((start 0x00EE).setSp 2#4).setStack 2#4 0x456#16)
    (fun t => t.pc == 0x456#16 && t.sp == 1#4 && t.stackAt 2#4 == 0x456#16) = true := by decide
theorem test_ret_underflow : faults (start 0x00EE) (.stackUnderflow 0x200#16) = true := by decide
theorem test_jp : cycles (start 0x1ABC) (fun t => t.pc == 0xABC#16) = true := by decide
theorem test_call : cycles ((start 0x2300).setSp 14#4)
    (fun t => t.sp == 15#4 && t.stackAt 15#4 == 0x202#16 && t.pc == 0x300#16) = true := by decide
theorem test_call_overflow : faults ((start 0x2300).setSp 15#4) (.stackOverflow 0x200#16) = true := by decide
theorem test_se_imm : cycles (startV 0x3F01 [(0xF, 1#8)]) (fun t => t.pc == 0x204#16) = true ∧
    cycles (startV 0x3343 [(3, 0x42#8)]) (fun t => t.pc == 0x202#16) = true := by decide
theorem test_sne_imm : cycles (startV 0x4342 [(3, 0x42#8)]) (fun t => t.pc == 0x202#16) = true ∧
    cycles (startV 0x4343 [(3, 0x42#8)]) (fun t => t.pc == 0x204#16) = true := by decide
theorem test_se_reg : cycles (startV 0x5120 [(1, 9#8), (2, 9#8)]) (fun t => t.pc == 0x204#16) = true ∧
    cycles (startV 0x5120 [(1, 9#8), (2, 8#8)]) (fun t => t.pc == 0x202#16) = true := by decide
theorem test_sne_reg : cycles (startV 0x9120 [(1, 9#8), (2, 9#8)]) (fun t => t.pc == 0x202#16) = true ∧
    cycles (startV 0x9120 [(1, 9#8), (2, 8#8)]) (fun t => t.pc == 0x204#16) = true := by decide
theorem test_jp_v0 : cycles (startV 0xBFFF [(0, 0xFF#8)]) (fun t => t.pc == 0x10FE#16) = true := by decide

/-! ### ALU -/

theorem test_ld_imm : cycles (start 0x6A42) (fun t => t.reg 0xA == 0x42#8) = true := by decide
theorem test_add_imm_writes_no_flag : cycles (startV 0x7A01 [(0xA, 0xFF#8), (0xF, 0x55#8)])
    (fun t => t.reg 0xA == 0#8 && t.reg 0xF == 0x55#8) = true := by decide
theorem test_ld_reg : cycles (startV 0x8120 [(2, 0x99#8)]) (fun t => t.reg 1 == 0x99#8) = true := by decide
theorem test_or : cycles (startV 0x8121 [(1, 0xF0#8), (2, 0x0F#8), (0xF, 7#8)])
    (fun t => t.reg 1 == 0xFF#8 && t.reg 0xF == 7#8) = true := by decide
theorem test_and : cycles (startV 0x8122 [(1, 0xF0#8), (2, 0x3C#8), (0xF, 7#8)])
    (fun t => t.reg 1 == 0x30#8 && t.reg 0xF == 7#8) = true := by decide
theorem test_xor : cycles (startV 0x8123 [(1, 0xFF#8), (2, 0x0F#8), (0xF, 7#8)])
    (fun t => t.reg 1 == 0xF0#8 && t.reg 0xF == 7#8) = true := by decide
theorem test_add_carry : cycles (startV 0x8124 [(1, 0xFA#8), (2, 0x0A#8)])
    (fun t => t.reg 1 == 4#8 && t.reg 0xF == 1#8 && t.reg 2 == 0x0A#8) = true := by decide
theorem test_add_no_carry : cycles (startV 0x8124 [(1, 0x80#8), (2, 0x7F#8), (0xF, 9#8)])
    (fun t => t.reg 1 == 0xFF#8 && t.reg 0xF == 0#8) = true := by decide
theorem test_sub_borrow : cycles (startV 0x8125 [(1, 3#8), (2, 5#8)])
    (fun t => t.reg 1 == 0xFE#8 && t.reg 0xF == 0#8) = true := by decide
theorem test_sub_is_strict : cycles (startV 0x8125 [(1, 7#8), (2, 7#8), (0xF, 1#8)])
    (fun t => t.reg 1 == 0#8 && t.reg 0xF == 0#8) = true := by decide
theorem test_shr : cycles (startV 0x8126 [(1, 0x03#8), (2, 0xFF#8)])
    (fun t => t.reg 1 == 1#8 && t.reg 0xF == 1#8) = true := by decide
theorem test_subn : cycles (startV 0x8127 [(1, 2#8), (2, 3#8)])
    (fun t => t.reg 1 == 1#8 && t.reg 0xF == 1#8) = true := by decide
theorem test_subn_borrow : cycles (startV 0x8127 [(1, 5#8), (2, 3#8), (0xF, 1#8)])
    (fun t => t.reg 1 == 0xFE#8 && t.reg 0xF == 0#8) = true := by decide
theorem test_shl : cycles (startV 0x810E [(1, 0x81#8)])
    (fun t => t.reg 1 == 2#8 && t.reg 0xF == 1#8) = true := by decide
theorem test_rnd_masks_its_draw : (rndWith 0xAB#8 3 0x0F#8 (start 0xC30F)).reg 3 = 0x0B#8 := by decide
theorem test_rnd_with_mask_0 : ∃ t, exec (.rnd 3 0#8) (start 0xC300) = .next t ∧ t.reg 3 = 0#8 ∧ t.draws = 1 :=
  ⟨_, rfl, by simp [rndWith, State.reg], rfl⟩

/-- "ALU aliasing": the three orders of 8F15, 81F5 and 8F0E. -/
theorem test_flag_orders :
    ([AluFlagOrder.latchedResultLast, .latchedFlagLast, .sequential].map fun o =>
      ((nextOf (step (under (startV 0x8F15 [(0xF, 5#8), (1, 3#8)]) .fault o)) State.reset).reg 0xF,
        (nextOf (step (under (startV 0x81F5 [(1, 5#8), (0xF, 3#8)]) .fault o)) State.reset).reg 1,
        (nextOf (step (under (startV 0x8F0E [(0xF, 0xC0#8)]) .fault o)) State.reset).reg 0xF)) =
      [(0x02#8, 0x02#8, 0x80#8), (0x01#8, 0x02#8, 0x01#8), (0xFE#8, 0x04#8, 0x02#8)] := by decide

/-! ### Index register and memory -/

theorem test_ld_i : cycles (start 0xA123) (fun t => t.i == 0x123#16) = true := by decide
theorem test_add_i_past_fff : cycles ((startV 0xFF1E [(0xF, 2#8)]).setI 0xFFE#16)
    (fun t => t.i == 0x1000#16 && t.reg 0xF == 1#8) = true := by decide
theorem test_add_i_wraps_without_flag : cycles ((startV 0xF11E [(1, 1#8), (0xF, 0x55#8)]).setI 0xFFFF#16)
    (fun t => t.i == 0#16 && t.reg 0xF == 0x55#8) = true := by decide
theorem test_ld_f : cycles (startV 0xF129 [(1, 0xFF#8)]) (fun t => t.i == 0x4FB#16) = true := by decide
theorem test_bcd : cycles ((startV 0xF533 [(5, 0x80#8)]).setI 0x300#16)
    (fun t => t.readBytes 0x300#16 3 == [1#8, 2#8, 8#8] && t.i == 0x300#16) = true := by decide
theorem test_bcd_wraps : cycles (under ((startV 0xF133 [(1, 0x80#8)]).setI 0xFFE#16) .wrap .latchedResultLast)
    (fun t => t.readBytes 0xFFE#16 3 == [1#8, 2#8, 8#8] && t.readByte 0#16 == 8#8) = true := by decide
theorem test_store : cycles ((startV 0xF255 [(0, 1#8), (1, 2#8), (2, 3#8), (3, 9#8)]).setI 0x300#16)
    (fun t => t.readBytes 0x300#16 4 == [1#8, 2#8, 3#8, 0#8] && t.i == 0x300#16) = true := by decide
theorem test_store_faults_at_1000 :
    faults ((start 0xFF55).setI 0xFF1#16) (.memoryOutOfRange 0x200#16 0x1000#16) = true := by decide
theorem test_load : cycles ((bytes (startV 0xF265 [(3, 0x77#8)]) 0x300#16 [1#8, 2#8, 8#8, 9#8]).setI 0x300#16)
    (fun t => t.reg 0 == 1#8 && t.reg 1 == 2#8 && t.reg 2 == 8#8 && t.reg 3 == 0x77#8) = true := by decide

/-! ### Keys -/

theorem test_skp : cycles (press (startV 0xE19E [(1, 5#8)]) [5]) (fun t => t.pc == 0x204#16 && t.key 5) = true ∧
    cycles (startV 0xE19E [(1, 5#8)]) (fun t => t.pc == 0x202#16) = true := by decide
theorem test_sknp : cycles (press (startV 0xE1A1 [(1, 5#8)]) [5]) (fun t => t.pc == 0x202#16) = true ∧
    faults (startV 0xE1A1 [(1, 0xFF#8)]) (.keyIndexOutOfRange 0x200#16 0xFF#8) = true := by decide
theorem test_key_wait_takes_the_least : cycles (press (start 0xF20A) [9, 3])
    (fun t => t.reg 2 == 3#8 && !t.key 3 && t.key 9 && t.pc == 0x202#16) = true := by decide
theorem test_key_wait_holds : cycles ((startV 0xF20A [(2, 6#8)]).setDt 4#8)
    (fun t => t.pc == 0x200#16 && t.reg 2 == 6#8 && t.dt == 3#8) = true := by decide

/-! ### Timers -/

theorem test_ld_vx_dt : cycles ((start 0xF307).setDt 5#8) (fun t => t.reg 3 == 5#8 && t.dt == 4#8) = true := by decide
theorem test_ld_dt : cycles (startV 0xF115 [(1, 5#8)]) (fun t => t.dt == 4#8 && t.out == .ok false) = true := by decide
theorem test_ld_st_one : cycles (startV 0xF118 [(1, 1#8)]) (fun t => t.st == 0#8 && t.out == .ok true) = true := by decide
theorem test_ld_st_zero : cycles ((start 0xF118).setSt 3#8) (fun t => t.st == 0#8 && t.out == .ok false) = true := by
  decide

/-! ### Load and reset (95_test_vectors.md "Reset") -/

theorem test_created_instance_faults :
    faults State.created (.unsupportedInstruction 0#16 0xF090#16) = true := by decide
theorem test_load_too_long : State.reset.load (List.replicate 3585 0#8) = .romTooLarge 3585 := by
  simp only [State.load, List.length_replicate]; rfl
theorem test_load_keeps_other_memory :
    ((bytes State.reset 0x300#16 [0xAA#8]).loaded [0x12#8, 0x00#8]).readByte 0x300#16 = 0xAA#8 ∧
      ((bytes State.reset 0x300#16 [0xAA#8]).loaded [0x12#8, 0x00#8]).fetch = .word 0x1200#16 := by decide

/-! ### Witnesses: for each obligation with hypotheses, concrete values that meet them, clause by clause -/

/-- A running state that has run no cycle meets the invariant when its memory is canonical. -/
theorem inv_of_running {s : State} (hm : s.mem.wf s.cfg.font = true) (hs : s.status = .running)
    (ho : s.out = .idle) : StateInv s := by
  refine ⟨hm, fun f h => ?_, fun f => ?_⟩
  · rw [hs] at h; cases h
  · rw [hs, ho]; constructor <;> intro h <;> cases h

/-- A block that has just faulted on a return from an empty stack. -/
def underflowed : State := (start 0x00EE).withFault (.stackUnderflow 0x200#16)

theorem underflowed_justified : Justified underflowed (.stackUnderflow 0x200#16) :=
  ⟨rfl, by decide, 0x00EE#16, by decide, by decide⟩

theorem underflowed_inv : StateInv underflowed := by
  refine ⟨by decide, fun f h => ?_, fun f => ?_⟩
  · have : FaultStatus.faulted (.stackUnderflow 0x200#16) = .faulted f := h
    cases this
    exact underflowed_justified
  · constructor
    · intro h
      have : FaultStatus.faulted (.stackUnderflow 0x200#16) = .faulted f := h
      cases this
      rfl
    · intro h
      have : Output.fault (.stackUnderflow 0x200#16) = .fault f := h
      cases this
      rfl

theorem witness_EncodingADecodedInstructionGivesItsWord :
    decodeWord 0x6A42#16 = some (.ldVxNn 0xA 0x42#8) := by decide

theorem witness_DispatchSelectsTheMatchingRow :
    decodeWord 0xD12F#16 = some (.drw 1 2 0xF#4) ∧
      ⟨"DRW", 0xD000#16, 0xF000#16⟩ ∈ opcodeTable ∧ 0xD12F#16 &&& 0xF000#16 = 0xD000#16 ∧
      (start 0x8008).status = .running ∧ (start 0x8008).fetch = .word 0x8008#16 ∧
      ∀ r, r ∈ opcodeTable → 0x8008#16 &&& r.mask ≠ r.pattern := by decide

theorem witness_UnsupportedWordsFaultAndAreCounted :
    (start 0xFFFF).status = .running ∧ (start 0xFFFF).fetch = .word 0xFFFF#16 ∧ decodeWord 0xFFFF#16 = none := by
  decide

theorem witness_StepRunsTheDecodedInstruction :
    ((start 0x6A42).status = .running ∧ (start 0x6A42).fetch = .word 0x6A42#16 ∧
      ∃ t, exec (.ldVxNn 0xA 0x42#8) (start 0x6A42) = .next t ∧ t.status = .running) ∧
    ((start 0x00EE).status = .running ∧ (start 0x00EE).fetch = .word 0x00EE#16 ∧
      ∃ t f, exec .ret (start 0x00EE) = .next t ∧ t.status = .faulted f) :=
  ⟨⟨by decide, by decide, _, rfl, rfl⟩, by decide, by decide, _, _, rfl, rfl⟩

theorem witness_FetchReadsTheTwoBytesAtPc :
    AccessOk (State.reset.setPc 0xFFE#16) 0xFFE#16 2 ∧
      AccessOk (under (State.reset.setPc 0xFFF#16) .wrap .sequential) 0xFFF#16 2 ∧
      State.reset.cfg.memOob = .fault ∧ (0x1000#16).toNat > 0xFFF ∧
      (State.reset.setPc 0xFFF#16).pc = 0xFFF#16 ∧ (State.reset.setPc 0xFFF#16).status = .running :=
  ⟨.inr (by decide), .inl rfl, rfl, by decide, rfl, rfl⟩

theorem witness_AFaultedBlockReturnsItsFaultAndARetryRaisesItAgain :
    underflowed.status = .faulted (.stackUnderflow 0x200#16) ∧ StateInv underflowed ∧
      ∃ t, underflowed.load [0x12#8, 0x00#8] = .ok t := ⟨rfl, underflowed_inv, _, rfl⟩

theorem witness_AFaultingCycleWritesOnlyTheFaultStatus :
    (start 0x00EE).status = .running ∧
      ∃ t, step (start 0x00EE) = .next t ∧ t.status = .faulted (.stackUnderflow 0x200#16) := ⟨rfl, _, rfl, rfl⟩

theorem witness_EveryStepKeepsTheInvariant :
    StateInv (start 0x6A42) ∧ ∃ t, step (start 0x6A42) = .next t :=
  ⟨inv_of_running (by decide) rfl rfl, _, rfl⟩

theorem witness_HostOperationsKeepTheInvariant :
    StateInv State.reset ∧ ∃ t, State.reset.load (List.replicate 3584 0#8) = .ok t :=
  ⟨inv_of_running (by decide) rfl rfl, State.reset.loaded (List.replicate 3584 0#8), by
    rw [State.load, List.length_replicate, maxImage, if_neg (by decide)]⟩

theorem witness_TimersStepOncePerCycleAndToneFollowsSt :
    (∃ t, step (startV 0xF115 [(1, 5#8)]) = .next t ∧ t.status = .running) ∧
      (∃ t, step (start 0x6AFF) = .next t ∧ t.status = .running) ∧
      (∃ t, step (startV 0xF118 [(1, 5#8)]) = .next t ∧ t.status = .running) ∧
      ∃ t f, step (start 0xFFFF) = .next t ∧ t.status = .faulted f :=
  ⟨⟨_, rfl, rfl⟩, ⟨_, rfl, rfl⟩, ⟨_, rfl, rfl⟩, _, _, rfl, rfl⟩

/-- Each condition of R230 holds of some running state. -/
theorem witness_ACycleFaultsExactlyWhenItsConditionHolds :
    Justified (start 0xFFFF) (.unsupportedInstruction 0x200#16 0xFFFF#16) ∧
      Justified ((start 0x2300).setSp 15#4) (.stackOverflow 0x200#16) ∧
      Justified (start 0x00EE) (.stackUnderflow 0x200#16) ∧
      Justified (State.reset.setPc 0xFFF#16) (.memoryOutOfRange 0xFFF#16 0x1000#16) ∧
      Justified ((start 0xFF55).setI 0xFF1#16) (.memoryOutOfRange 0x200#16 0x1000#16) ∧
      Justified (startV 0xE19E [(1, 0x10#8)]) (.keyIndexOutOfRange 0x200#16 0x10#8) :=
  ⟨⟨rfl, by decide, by decide⟩, ⟨rfl, rfl, 0x300#12, 0x2300#16, by decide, by decide⟩,
    ⟨rfl, rfl, 0x00EE#16, by decide, by decide⟩, ⟨rfl, .inl ⟨rfl, 1, by decide⟩⟩,
    ⟨rfl, .inr ⟨.ldMiVx 0xF, 16, ⟨0xFF55#16, by decide, by decide⟩, rfl, rfl, 15, by decide⟩⟩,
    ⟨rfl, by decide, 1, .inl ⟨0xE19E#16, by decide, by decide⟩, by decide⟩⟩

theorem witness_EveryInstructionTakesItsSelector :
    State.reset.status = .running ∧
      (∃ t, exec (.seVxNn 0 0#8) State.reset = .next t ∧ t.status = .running) ∧
      (∃ t, exec (.ldVxK 0) State.reset = .next t ∧ t.status = .running) ∧
      ∃ t, exec (.skp 0) State.reset = .next t ∧ t.status = .running :=
  ⟨rfl, ⟨_, rfl, rfl⟩, ⟨_, rfl, rfl⟩, _, rfl, rfl⟩

theorem witness_OnlyTheNamedRegistersAreWritten :
    (∃ t, exec (.ldVxNn 0xA 0x42#8) State.reset = .next t ∧ t.reg 0xA ≠ State.reset.reg 0xA) ∧
      ∃ t, exec (.addIVx 1) (State.reset.setI 0x1000#16) = .next t ∧
        t.reg vf ≠ (State.reset.setI 0x1000#16).reg vf := ⟨⟨_, rfl, by decide⟩, _, rfl, by decide⟩

theorem witness_OnlyClsAndDrwReachTheDisplay :
    (∃ t, step ((bytes (start 0xD011) 0x300#16 [0x80#8]).setI 0x300#16) = .next t ∧ t.pixel 0 0 = true ∧
      ((bytes (start 0xD011) 0x300#16 [0x80#8]).setI 0x300#16).pixel 0 0 = false) ∧
      ∀ x y n, Instr.cls ≠ .drw x y n := ⟨⟨_, rfl, by decide, by decide⟩, fun _ _ _ h => by cases h⟩

theorem witness_OnlyCallWritesAndOnlyRetReadsTheStack :
    (∃ t, exec (.call 0x345#12) (start 0x2345) = .next t ∧ t.stackAt 1#4 ≠ (start 0x2345).stackAt 1#4) ∧
      Instr.cls ≠ .ret := ⟨⟨_, rfl, by decide⟩, by decide⟩

theorem witness_OnlyTheNamedInstructionsWriteMemoryIAndSp :
    (∃ t, exec (.ldBVx 5) ((startV 0xF533 [(5, 0x80#8)]).setI 0x300#16) = .next t ∧
      t.readByte 0x300#16 ≠ ((startV 0xF533 [(5, 0x80#8)]).setI 0x300#16).readByte 0x300#16) ∧
      (∃ t, exec (.ldINnn 0x123#12) State.reset = .next t ∧ t.i ≠ State.reset.i) ∧
      ∃ t, exec (.call 0x345#12) State.reset = .next t ∧ t.sp ≠ State.reset.sp :=
  ⟨⟨_, rfl, by decide⟩, ⟨_, rfl, by decide⟩, _, rfl, by decide⟩

theorem witness_AccessesCheckEveryAddressFirst :
    dataBytes (.drw 0 1 2#4) = some 2 ∧ LowestBad (State.reset.setI 0xFFF#16) 0xFFF#16 2 0x1000#16 ∧
      AccessOk (State.reset.setI 0xFFE#16) 0xFFE#16 2 ∧ dataBytes (.drw 0 1 0#4) = some 0 ∧
      AccessOk (State.reset.setI 0xFFFF#16) 0xFFFF#16 0 ∧
      (State.reset.setPc 0x1000#16).status = .running ∧
      LowestBad (State.reset.setPc 0x1000#16) 0x1000#16 2 0x1000#16 ∧
      (under State.reset .wrap .sequential).cfg.memOob = .wrap :=
  ⟨rfl, ⟨rfl, 1, by decide⟩, .inr (by decide), rfl, .inr (by decide), rfl, ⟨rfl, 0, by decide⟩, rfl⟩

theorem witness_StoredBytesAreFetched :
    (AccessOk (State.reset.setI 0xFFE#16) 0xFFE#16 2 ∧ (1 : Reg).val = (0 : Reg).val + 1 ∧ (1 : Reg) ≤ 1 ∧
      ∃ t, exec (.ldMiVx 1) (State.reset.setI 0xFFE#16) = .next t) ∧
      AccessOk (State.reset.setI 0xFFD#16) 0xFFD#16 3 ∧
      ∃ t, exec (.ldBVx 1) (State.reset.setI 0xFFD#16) = .next t :=
  ⟨⟨.inr (by decide), rfl, by decide, _, rfl⟩, .inr (by decide), _, rfl⟩

theorem witness_APlacedWordIsRunNext :
    (65535 < 65536) ∧ (0x00E0 < 65536) ∧ decodeTableWord 16 0x00E0 = some .cls := by decide

/-- Boundary addresses of the access, a covered lit pixel, a covered dark one, an uncovered one. -/
theorem witness_DrwFlipsTheCoveredPixelsAndReportsErasure :
    AccessOk (State.reset.setI 0xFFE#16) 0xFFE#16 2 ∧ LowestBad (State.reset.setI 0xFFF#16) 0xFFF#16 2 0x1000#16 ∧
      SpriteCovers (State.reset.setI 0#16) 0 1 1#4 0 0 ∧ (State.reset.setI 0#16).pixel 0 0 = false ∧
      ¬ SpriteCovers (State.reset.setI 0#16) 0 1 1#4 63 31 ∧
      SpriteCovers ((State.reset.setI 0#16).setDisplay (blankDisplay.setPixel 0 0 true)) 0 1 1#4 0 0 ∧
      ((State.reset.setI 0#16).setDisplay (blankDisplay.setPixel 0 0 true)).pixel 0 0 = true := by
  refine ⟨.inr (by decide), ⟨rfl, 1, by decide⟩, ⟨0, 0, by decide⟩, by decide, ?_, ⟨0, 0, by decide⟩, by decide⟩
  rintro ⟨r, c, hr, hc, h, -⟩
  have h0 : ((State.reset.setI 0#16).reg 0).toNat = 0 := by decide
  rw [h0] at h
  omega

theorem witness_TheHostReadsEveryPixel : (63 < 64) ∧ (31 < 32) := by decide

theorem witness_RetPopsTheReturnAddress : State.reset.sp = 0#4 ∧ (State.reset.setSp 15#4).sp ≠ 0#4 := by decide

theorem witness_CallPushesTheReturnAddress :
    (State.reset.setSp 15#4).sp = 15#4 ∧ (State.reset.setSp 14#4).sp ≠ 15#4 := by decide

theorem witness_AReturnComesBackAfterItsCall : (State.reset.setSp 14#4).sp ≠ 15#4 := by decide

theorem witness_SkipsAddFourOrTwo :
    (familyOf 0x5121#16 = 0x5#4 ∧ nOf 0x5121#16 ≠ 0x0#4) ∧ (familyOf 0x9AB1#16 = 0x9#4 ∧ nOf 0x9AB1#16 ≠ 0x0#4) ∧
      State.reset.reg 0 = 0#8 ∧ State.reset.reg 0 ≠ 1#8 ∧ State.reset.reg 0 = State.reset.reg 1 ∧
      (State.reset.setReg 1 9#8).reg 0 ≠ (State.reset.setReg 1 9#8).reg 1 := by decide

/-- The sums 256 and 255. -/
theorem witness_AddSetsTheCarry :
    State.reset.cfg.aluFlagOrder = .latchedResultLast ∧ (1 : Reg) ≠ vf ∧
      ((startV 0 [(1, 0xFF#8), (2, 0x01#8)]).reg 1).toNat + ((startV 0 [(1, 0xFF#8), (2, 0x01#8)]).reg 2).toNat > 255 ∧
      ((startV 0 [(1, 0x80#8), (2, 0x7F#8)]).reg 1).toNat +
        ((startV 0 [(1, 0x80#8), (2, 0x7F#8)]).reg 2).toNat ≤ 255 := by decide

/-- One above, and equal. -/
theorem witness_SubtractionsSetTheStrictGreaterFlag :
    State.reset.cfg.aluFlagOrder = .latchedResultLast ∧ (1 : Reg) ≠ vf ∧
      ((startV 0 [(1, 8#8), (2, 7#8)]).reg 1).toNat > ((startV 0 [(1, 8#8), (2, 7#8)]).reg 2).toNat ∧
      ((startV 0 [(1, 7#8), (2, 7#8)]).reg 1).toNat ≤ ((startV 0 [(1, 7#8), (2, 7#8)]).reg 2).toNat := by decide

theorem witness_ShiftsMoveTheLostBitToVf :
    State.reset.cfg.aluFlagOrder = .latchedResultLast ∧ (14 : Reg) ≠ vf := by decide

theorem witness_FlagOrdersCombineTheTwoWrites :
    (∃ f r, aluRule (.sub 1 2) = some (1, 2, f, r)) ∧ (1 : Reg) ≠ vf ∧ (2 : Reg) ≠ vf ∧
      State.reset.cfg.aluFlagOrder = .latchedResultLast ∧
      (under State.reset .fault .latchedFlagLast).cfg.aluFlagOrder = .latchedFlagLast ∧
      (under State.reset .fault .sequential).cfg.aluFlagOrder = .sequential :=
  ⟨⟨_, _, rfl⟩, by decide, by decide, rfl, rfl, rfl⟩

theorem witness_VfAliasingValues :
    (1 : Reg) ≠ vf ∧ (2 : Reg) ≠ vf ∧ State.reset.cfg.aluFlagOrder = .latchedResultLast ∧
      (under State.reset .fault .latchedFlagLast).cfg.aluFlagOrder = .latchedFlagLast ∧
      (under State.reset .fault .sequential).cfg.aluFlagOrder = .sequential := by decide

/-- New values 0x1000 and 0xFFF of I. -/
theorem witness_AddToISetsVfPastFff :
    (∃ t, exec (.addIVx 1) ((startV 0 [(1, 1#8)]).setI 0xFFF#16) = .next t ∧ t.i.toNat > 0xFFF) ∧
      ∃ t, exec (.addIVx 1) ((startV 0 [(1, 1#8)]).setI 0xFFE#16) = .next t ∧ t.i.toNat ≤ 0xFFF :=
  ⟨⟨_, rfl, by decide⟩, _, rfl, by decide⟩

theorem witness_BcdStoresTheThreeDigits :
    AccessOk (State.reset.setI 0xFFD#16) 0xFFD#16 3 ∧
      (∀ k, k < 3 → physAddr 0xFFC#16 ≠ physAddr (byteAddr 0xFFD#16 k)) ∧
      LowestBad (State.reset.setI 0xFFE#16) 0xFFE#16 3 0x1000#16 :=
  ⟨.inr (by decide), by decide, rfl, 2, by decide⟩

theorem witness_RegistersAreStoredAtI :
    AccessOk (State.reset.setI 0xFF0#16) 0xFF0#16 16 ∧ (0xF : Reg) ≤ 0xF ∧
      (∀ k, k < 16 → physAddr 0xFEF#16 ≠ physAddr (byteAddr 0xFF0#16 k)) ∧
      LowestBad (State.reset.setI 0xFF1#16) 0xFF1#16 16 0x1000#16 :=
  ⟨.inr (by decide), by decide, by decide, rfl, 15, by decide⟩

theorem witness_RegistersAreLoadedFromI :
    AccessOk (State.reset.setI 0xFFD#16) 0xFFD#16 3 ∧ (2 : Reg) ≤ 2 ∧ ¬ (3 : Reg) ≤ 2 ∧
      LowestBad (State.reset.setI 0xFFE#16) 0xFFE#16 3 0x1000#16 ∧
      ∃ t, exec (.ldMiVx 2) (State.reset.setI 0xFFD#16) = .next t ∧
        ∃ u : State, u.i = 0xFFD#16 ∧ u.cfg = State.reset.cfg ∧ u.mem = t.mem :=
  ⟨.inr (by decide), by decide, by decide, ⟨rfl, 2, by decide⟩, _, rfl, nextOf (exec (.ldMiVx 2) (State.reset.setI 0xFFD#16)) State.reset, rfl, rfl, rfl⟩

theorem witness_KeySkipsReadTheKeyVxNames :
    (startV 0xE19E [(1, 0xF#8)]).reg 1 = BitVec.ofNat 8 (0xF : Reg).val ∧
      (press (startV 0xE19E [(1, 0xF#8)]) [0xF]).key 0xF = true ∧ (startV 0xE19E [(1, 0xF#8)]).key 0xF = false ∧
      ((startV 0xE19E [(1, 0x10#8)]).reg 1).toNat > 0xF := by decide

theorem witness_TheKeyWaitTakesTheLeastKeyOrHolds :
    (press (start 0xF20A) [9, 3]).key 3 = true ∧ (∀ j, j < 3 → (press (start 0xF20A) [9, 3]).key j = false) ∧
      (∀ k, (start 0xF20A).key k = false) ∧ (start 0xF20A).status = .running ∧ AtPc (start 0xF20A) (.ldVxK 2) :=
  ⟨by decide, by decide, by decide, rfl, 0xF20A#16, by decide, by decide⟩

theorem witness_KeysAreWrittenByTheHostAndCleared :
    ∃ t, exec (.ldVxK 2) (press (start 0xF20A) [9, 3]) = .next t ∧
      t.key 3 ≠ (press (start 0xF20A) [9, 3]).key 3 := ⟨_, rfl, by decide⟩

theorem witness_ReadingDtGivesItBeforeTheTimerStep :
    (start 0xF307).status = .running ∧ AtPc (start 0xF307) (.ldVxDt 3) := ⟨rfl, 0xF307#16, by decide, by decide⟩

theorem witness_SettingDtIsFollowedByTheTimerStep :
    (start 0xF115).status = .running ∧ AtPc (start 0xF115) (.ldDtVx 1) := ⟨rfl, 0xF115#16, by decide, by decide⟩

/-- The states of a run, one cycle each, the host leaving the keys as they are. -/
def run (s : State) : Nat → State
  | 0 => s
  | n + 1 => nextOf (step (run s n)) (run s n)

/-- F118 with V1 = 2, then 6000. -/
def soundRun : Nat → State := run (bytes (startV 0xF118 [(1, 2#8)]) 0x202#16 [0x60#8, 0x00#8])

/-- F115 with V1 = 2, then F307. -/
def delayRun : Nat → State := run (bytes (startV 0xF115 [(1, 2#8)]) 0x202#16 [0xF3#8, 0x07#8])

theorem cycles_of_two {σ : Nat → State} (h0 : step (σ 0) = .next (σ 1)) (h1 : step (σ 1) = .next (σ 2))
    (r0 : (σ 1).status = .running) (r1 : (σ 2).status = .running) : Cycles σ 2 := by
  rintro (_ | _ | j) hj
  · exact ⟨(σ 0).keys, h0, r0⟩
  · exact ⟨(σ 1).keys, h1, r1⟩
  · omega

theorem notAtPc_of_decodes {s : State} {w : Word} {i j : Instr} (hw : s.fetch = .word w)
    (hd : decodeWord w = some i) (hij : i ≠ j) : ¬ AtPc s j := by
  rintro ⟨w', hw', hd'⟩
  rw [hw] at hw'
  cases hw'
  rw [hd] at hd'
  exact hij (by injection hd')

theorem witness_SettingStSoundsForThatManyCycles :
    Cycles soundRun 2 ∧ AtPc (soundRun 0) (.ldStVx 1) ∧
      ∀ j, 0 < j → j < 2 → ∀ z, ¬ AtPc (soundRun j) (.ldStVx z) := by
  refine ⟨cycles_of_two rfl rfl rfl rfl, ⟨0xF118#16, by decide, by decide⟩, fun j h0 h2 z => ?_⟩
  obtain rfl : j = 1 := by omega
  exact notAtPc_of_decodes (w := 0x6000#16) (i := .ldVxNn 0 0#8) (by decide) (by decide) (by simp)

theorem witness_ATimerCountsDownFromItsWrite :
    (Cycles delayRun 2 ∧ AtPc (delayRun 0) (.ldDtVx 1) ∧
      (∀ j, 0 < j → j < 2 → ∀ z, ¬ AtPc (delayRun j) (.ldDtVx z)) ∧ AtPc (delayRun 1) (.ldVxDt 3)) ∧
      (start 0xF118).status = .running ∧ AtPc (start 0xF118) (.ldStVx 1) := by
  refine ⟨⟨cycles_of_two rfl rfl rfl rfl, ⟨0xF115#16, by decide, by decide⟩, fun j h0 h2 z => ?_,
    0xF307#16, by decide, by decide⟩, rfl, 0xF118#16, by decide, by decide⟩
  obtain rfl : j = 1 := by omega
  exact notAtPc_of_decodes (w := 0xF307#16) (i := .ldVxDt 3) (by decide) (by decide) (by simp)

/-- Image lengths 3584 and 3585, and addresses on both sides of each region's edge. -/
theorem witness_LoadGivesTheLoadState :
    (List.replicate 3584 0#8).length ≤ 3584 ∧ (List.replicate 3585 0#8).length > 3584 ∧ (79#16).toNat < 80 ∧
      80 ≤ (80#16).toNat ∧ (0xFFF#16).toNat = 0x200 + 3583 ∧ 3583 < (List.replicate 3584 0#8).length ∧
      ¬ (0x200 ≤ (0x202#16).toNat ∧ (0x202#16).toNat < 0x200 + [0x12#8, 0x00#8].length) := by
  simp only [List.length_replicate]; decide

theorem witness_CreationState : (79#16).toNat < 80 ∧ 80 ≤ (80#16).toNat ∧ (0xFFF#16).toNat < 0x1000 := by decide

theorem witness_ACycleBeforeAnyLoadFaults :
    Config.default.font[0] = 0xF0#8 ∧ Config.default.font[1] = 0x90#8 := by decide

end Sys2Proof.Tests
end

/-! ## 10_state.md: what an instruction may write, and what it reads -/

namespace Sys2Proof.Machine

open Sys2Proof.Safety

/-! ### What an instruction may write -/

/-- From `s` to `t`, an instruction `i` wrote no more than 10_state.md (R22, R25 to R30) and 20_memory.md R53 let it. -/
structure OnlyWrites (i : Instr) (s t : State) : Prop where
  reg : ∀ r, r ∉ mayWrite i → t.reg r = s.reg r
  index : t.i = s.i ∨ (∃ nnn, i = .ldINnn nnn) ∨ ∃ x, i = .addIVx x ∨ i = .ldFVx x
  sp : t.sp = s.sp ∨ i = .ret ∨ ∃ nnn, i = .call nnn
  stack : t.stack = s.stack ∨ ∃ nnn, i = .call nnn
  timers : (t.dt = s.dt ∨ ∃ x, i = .ldDtVx x) ∧ (t.st = s.st ∨ ∃ x, i = .ldStVx x)
  mem : t.mem = s.mem ∨ ∃ x, i = .ldBVx x ∨ i = .ldMiVx x
  display : t.display = s.display ∨ i = .cls ∨ ∃ x y n, i = .drw x y n
  keys : ∀ k, t.key k = s.key k ∨ (∃ x, i = .ldVxK x) ∧ s.key k = true ∧ t.key k = false
  cfg : t.cfg = s.cfg

namespace OnlyWrites

variable {i : Instr} {s u : State}

/-- Writes of registers the instruction may write. -/
theorem of_regs (hu : u = { s with v := u.v }) (hr : ∀ r, r ∉ mayWrite i → u.reg r = s.reg r) :
    OnlyWrites i s u := by
  rw [hu]
  exact ⟨fun r hi => hr r hi, .inl rfl, .inl rfl, .inl rfl, ⟨.inl rfl, .inl rfl⟩, .inl rfl, .inl rfl,
    fun _ => .inl rfl, rfl⟩

theorem refl : OnlyWrites i s s := of_regs rfl fun _ _ => rfl

theorem setReg {r : Reg} (b : Byte) (hr : r ∈ mayWrite i) : OnlyWrites i s (s.setReg r b) :=
  of_regs rfl fun _ hr' => s.reg_setReg_of_ne b fun h => hr' (h ▸ hr)

theorem setPc (a : Addr) (h : OnlyWrites i s u) : OnlyWrites i s (u.setPc a) :=
  ⟨h.reg, h.index, h.sp, h.stack, h.timers, h.mem, h.display, h.keys, h.cfg⟩

theorem withFault (f : Fault) (h : OnlyWrites i s u) : OnlyWrites i s (u.withFault f) :=
  ⟨h.reg, h.index, h.sp, h.stack, h.timers, h.mem, h.display, h.keys, h.cfg⟩

theorem countDraw (h : OnlyWrites i s u) : OnlyWrites i s u.countDraw :=
  ⟨h.reg, h.index, h.sp, h.stack, h.timers, h.mem, h.display, h.keys, h.cfg⟩

/-- An index register write of an instruction that may write I. -/
theorem setI (a : Addr) (hi : (∃ nnn, i = .ldINnn nnn) ∨ ∃ x, i = .addIVx x ∨ i = .ldFVx x) :
    OnlyWrites i s (s.setI a) :=
  { refl (i := i) (s := s) with index := .inr hi }

/-- A run of bytes written by an instruction that may write memory. -/
theorem writeBytes (a : Addr) (bs : List Byte) (hi : ∃ x, i = .ldBVx x ∨ i = .ldMiVx x) :
    OnlyWrites i s (s.writeBytes a bs) := by
  rw [s.writeBytes_eq]
  exact { refl (i := i) (s := s) with mem := .inr hi }

/-- A checked access that raises its fault wrote nothing; one that completes wrote what its body wrote. -/
theorem withChecked (a : Addr) (n : Nat) (body : State → State) (h : OnlyWrites i s (body s)) :
    ∃ t, withChecked a n (fun s => complete .seq (body s)) s = .next t ∧ OnlyWrites i s t := by
  obtain ⟨b, -, hw⟩ | ⟨-, hw⟩ := withChecked_cases s a n fun s => complete .seq (body s)
  · exact ⟨_, hw, refl.withFault _⟩
  · exact ⟨_, hw, h.setPc _⟩

end OnlyWrites

theorem writeLatched_reg_of_ne {x k : Reg} (f r : Byte) (s : State) (hk : k ∉ [x, vf]) :
    (writeLatched x f r s).reg k = s.reg k := by
  simp only [List.mem_cons, List.not_mem_nil, or_false, not_or] at hk
  obtain ⟨-, h⟩ | ⟨-, h⟩ := writeLatched_cases x f r s
  · rw [h, writeResultThenFlag_reg, if_neg hk.2, if_neg hk.1]
  · rw [h, writeFlagThenResult_reg, if_neg hk.1, if_neg hk.2]

theorem writeReread_reg_of_ne {x k : Reg} (y : Reg) (flag result : Byte → Byte → Byte) (s : State)
    (hk : k ∉ [x, vf]) : (writeReread x y flag result s).reg k = s.reg k := by
  simp only [List.mem_cons, List.not_mem_nil, or_false, not_or] at hk
  rw [writeReread_reg]
  cases s.cfg.aluFlagOrder <;> simp only [if_neg hk.1, if_neg hk.2]

theorem OnlyWrites.writeLatched {i : Instr} {x : Reg} (f r : Byte) {s : State} (hi : mayWrite i = [x, vf]) :
    OnlyWrites i s (writeLatched x f r s) :=
  of_regs (writeLatched_eq x f r s) fun _ hk => writeLatched_reg_of_ne f r s (hi ▸ hk)

theorem OnlyWrites.writeReread {i : Instr} {x : Reg} (y : Reg) (flag result : Byte → Byte → Byte) {s : State}
    (hi : mayWrite i = [x, vf]) : OnlyWrites i s (writeReread x y flag result s) :=
  of_regs (writeReread_eq x y flag result s) fun _ hk => writeReread_reg_of_ne y flag result s (hi ▸ hk)

/-- ADD I, Vx writes the sum to I, and 1 to VF only when the sum exceeds 0xFFF (44_index_memory.md R181). -/
theorem addToI_cases (x : Reg) (s : State) :
    ((s.i + addrOfByte (s.reg x)).toNat > 0xFFF ∧
        addToI x s = (s.setI (s.i + addrOfByte (s.reg x))).setReg vf 1#8) ∨
      ((s.i + addrOfByte (s.reg x)).toNat ≤ 0xFFF ∧ addToI x s = s.setI (s.i + addrOfByte (s.reg x))) := by
  by_cases h : (s.i + addrOfByte (s.reg x)).toNat > 0xFFF
  · exact .inl ⟨h, if_pos h⟩
  · exact .inr ⟨Nat.not_lt.1 h, if_neg h⟩

theorem OnlyWrites.addToI {x : Reg} {s : State} : OnlyWrites (.addIVx x) s (addToI x s) := by
  have hi (a : Addr) : OnlyWrites (.addIVx x) s (s.setI a) := .setI a (by simp)
  obtain ⟨-, h⟩ | ⟨-, h⟩ := addToI_cases x s <;> rw [h]
  · exact { hi _ with reg := (OnlyWrites.setReg (s := s) 1#8 (by simp [mayWrite])).reg }
  · exact hi _

theorem OnlyWrites.drawSprite {x y : Reg} {n : BitVec 4} {s : State} :
    OnlyWrites (.drw x y n) s (drawSprite x y n s) where
  __ := refl (i := .drw x y n) (s := s)
  reg r hr := (drawSprite_reg x y n s r).trans (if_neg (by simpa [mayWrite] using hr))
  display := .inr (.inr ⟨x, y, n, rfl⟩)

theorem OnlyWrites.loadRegs {x : Reg} {s : State} : OnlyWrites (.ldVxMi x) s (loadRegs s (regsUpTo x) s) :=
  of_regs (loadRegs_eq s _ s).1 fun k hk => ((loadRegs_eq s _ s).2 k).trans (if_neg hk)

/-- FX0A writes V[X] and clears the key it takes, which was pressed. -/
theorem OnlyWrites.takeKey {x k : Reg} {b : Byte} {s : State} (hk : s.key k = true) :
    OnlyWrites (.ldVxK x) s ((s.setReg x b).setKey k false) where
  __ := OnlyWrites.setReg (i := .ldVxK x) (s := s) (r := x) b (by simp [mayWrite])
  keys j := by
    rw [State.key_setKey, State.key_setReg]
    split
    · subst j
      exact .inr ⟨⟨x, rfl⟩, hk, rfl⟩
    · exact .inl rfl

/-- Every instruction answers a next state, and wrote no more than it may. -/
theorem exec_onlyWrites (i : Instr) (s : State) : ∃ t, exec i s = .next t ∧ OnlyWrites i s t := by
  have refl : OnlyWrites i s s := .refl
  cases i with
  | ldVxNn | addVxNn | ldVxVy | orVxVy | andVxVy | xorVxVy | ldVxDt =>
    exact ⟨_, rfl, .setPc _ (.setReg _ (by simp [mayWrite]))⟩
  | rnd => exact ⟨_, rfl, .setPc _ (.countDraw (.setReg _ (by simp [mayWrite])))⟩
  | addVxVy => exact ⟨_, rfl, .setPc _ (.writeLatched _ _ rfl)⟩
  | sub | shr | subn | shl => exact ⟨_, rfl, .setPc _ (.writeReread _ _ _ rfl)⟩
  | jp | seVxNn | sneVxNn | seVxVy | sneVxVy | jpV0Nnn => exact ⟨_, rfl, .setPc _ .refl⟩
  | ldINnn | ldFVx => exact ⟨_, rfl, .setPc _ (.setI _ (by simp))⟩
  | addIVx => exact ⟨_, rfl, .setPc _ .addToI⟩
  | ldDtVx => exact ⟨_, rfl, .setPc _ { refl with timers := ⟨.inr ⟨_, rfl⟩, .inl rfl⟩ }⟩
  | ldStVx => exact ⟨_, rfl, .setPc _ { refl with timers := ⟨.inl rfl, .inr ⟨_, rfl⟩⟩ }⟩
  | cls => exact ⟨_, rfl, .setPc _ { refl with display := .inr (.inl rfl) }⟩
  | drw x y n => exact OnlyWrites.withChecked _ _ (drawSprite x y n) .drawSprite
  | ldBVx x =>
    exact OnlyWrites.withChecked _ _ (fun s => s.writeBytes s.i (decimalDigits (s.reg x)))
      (.writeBytes _ _ ⟨x, .inl rfl⟩)
  | ldMiVx x =>
    exact OnlyWrites.withChecked _ _ (fun s => s.writeBytes s.i (s.regValues x)) (.writeBytes _ _ ⟨x, .inr rfl⟩)
  | ldVxMi x => exact OnlyWrites.withChecked _ _ (fun s => loadRegs s (regsUpTo x) s) .loadRegs
  | ret =>
    simp only [exec, execRet]
    split
    · exact ⟨_, rfl, .withFault _ .refl⟩
    · exact ⟨_, rfl, .setPc _ { refl with sp := .inr (.inl rfl) }⟩
  | call =>
    simp only [exec, execCall]
    split
    · exact ⟨_, rfl, .withFault _ .refl⟩
    · exact ⟨_, rfl, .setPc _ { refl with sp := .inr (.inr ⟨_, rfl⟩), stack := .inr ⟨_, rfl⟩ }⟩
  | skp | sknp =>
    simp only [exec, execSkp, execSknp]
    split
    · exact ⟨_, rfl, .withFault _ .refl⟩
    · exact ⟨_, rfl, .setPc _ .refl⟩
  | ldVxK =>
    simp only [exec, execLdVxK]
    obtain ⟨k, hk, hp, -⟩ | ⟨hk, -⟩ := s.firstPressed_cases <;> simp only [hk]
    · exact ⟨_, rfl, .setPc _ (.takeKey hp)⟩
    · exact ⟨_, rfl, .setPc _ .refl⟩

/-- An instruction that answers a next state wrote no more than it may. -/
theorem onlyWrites_of_exec {i : Instr} {s t : State} (h : exec i s = .next t) : OnlyWrites i s t := by
  obtain ⟨u, hu, hw⟩ := exec_onlyWrites i s
  cases h.symm.trans hu
  exact hw

/-! ### What an instruction reads of the display and the stack -/

/-- The state with another display and another stack. -/
def State.withHidden (s : State) (d : Display) (S : Vector Addr 16) : State := { s with display := d, stack := S }

/-- The four instructions that reach the display or the stack (10_state.md R26, R29). -/
def ReachesHidden (i : Instr) : Prop :=
  i = .cls ∨ (∃ x y n, i = .drw x y n) ∨ (∃ nnn, i = .call nnn) ∨ i = .ret

section Hidden

variable (d : Display) (S : Vector Addr 16)

@[simp] theorem State.reg_withHidden (s : State) (r : Reg) : (s.withHidden d S).reg r = s.reg r := rfl
@[simp] theorem State.cfg_withHidden (s : State) : (s.withHidden d S).cfg = s.cfg := rfl
@[simp] theorem State.firstPressed_withHidden (s : State) : (s.withHidden d S).firstPressed = s.firstPressed := rfl
@[simp] theorem State.firstBad_withHidden (s : State) (a : Addr) (n : Nat) :
    (s.withHidden d S).firstBad a n = s.firstBad a n := rfl

theorem State.writeBytesFrom_withHidden (a : Addr) (bs : List Byte) : ∀ (s : State) (k : Nat),
    (s.withHidden d S).writeBytesFrom a k bs = (s.writeBytesFrom a k bs).withHidden d S := by
  induction bs with
  | nil => intro s k; rfl
  | cons b bs ih => intro s k; exact ih (s.writeByte (byteAddr a k) b) (k + 1)

theorem loadRegs_withHidden (src : State) (rs : List Reg) : ∀ s : State,
    loadRegs (src.withHidden d S) rs (s.withHidden d S) = (loadRegs src rs s).withHidden d S := by
  induction rs with
  | nil => intro s; rfl
  | cons r rs ih => intro s; exact ih (s.setReg r (src.readByte (byteAddr src.i r.val)))

theorem writeLatched_withHidden (x : Reg) (f r : Byte) (s : State) :
    writeLatched x f r (s.withHidden d S) = (writeLatched x f r s).withHidden d S := by
  simp only [writeLatched, State.cfg_withHidden]
  cases s.cfg.aluFlagOrder <;> rfl

theorem writeReread_withHidden (x y : Reg) (flag result : Byte → Byte → Byte) (s : State) :
    writeReread x y flag result (s.withHidden d S) = (writeReread x y flag result s).withHidden d S := by
  simp only [writeReread, State.cfg_withHidden]
  cases s.cfg.aluFlagOrder <;> rfl

theorem addToI_withHidden (x : Reg) (s : State) :
    addToI x (s.withHidden d S) = (addToI x s).withHidden d S := by
  obtain ⟨h, he⟩ | ⟨h, he⟩ := addToI_cases x s <;> rw [he]
  · exact if_pos h
  · exact if_neg (Nat.not_lt.2 h)

/-- A checked access acts alike when its body does. -/
theorem withChecked_withHidden (a : Addr) (n : Nat) (body : State → State) (s : State)
    (hb : body (s.withHidden d S) = (body s).withHidden d S) :
    ∃ t, withChecked a n (fun s => complete .seq (body s)) s = .next t ∧
      withChecked a n (fun s => complete .seq (body s)) (s.withHidden d S) = .next (t.withHidden d S) := by
  simp only [withChecked, State.firstBad_withHidden, hb]
  cases s.firstBad a n <;> exact ⟨_, rfl, rfl⟩

/-- An instruction that reaches neither the display nor the stack acts the same whatever they hold. -/
theorem exec_withHidden {i : Instr} (hi : ¬ ReachesHidden i) (s : State) :
    ∃ t, exec i s = .next t ∧ exec i (s.withHidden d S) = .next (t.withHidden d S) := by
  cases i with
  | cls | drw | call | ret => exact absurd (by simp [ReachesHidden]) hi
  | addVxVy => exact ⟨_, rfl, congrArg (complete .seq) (writeLatched_withHidden ..)⟩
  | sub | shr | subn | shl => exact ⟨_, rfl, congrArg (complete .seq) (writeReread_withHidden ..)⟩
  | addIVx => exact ⟨_, rfl, by simp only [exec, execAddIVx, addToI_withHidden]; rfl⟩
  | ldBVx x =>
    exact withChecked_withHidden d S _ _ (fun s => s.writeBytes s.i (decimalDigits (s.reg x))) s
      (s.writeBytesFrom_withHidden ..)
  | ldMiVx x =>
    exact withChecked_withHidden d S _ _ (fun s => s.writeBytes s.i (s.regValues x)) s
      (s.writeBytesFrom_withHidden ..)
  | ldVxMi x =>
    exact withChecked_withHidden d S _ _ (fun s => loadRegs s (regsUpTo x) s) s (loadRegs_withHidden ..)
  | skp x | sknp x =>
    simp only [exec, execSkp, execSknp, State.reg_withHidden]
    cases keyIndex (s.reg x) <;> exact ⟨_, rfl, rfl⟩
  | ldVxK =>
    simp only [exec, execLdVxK, State.firstPressed_withHidden]
    cases s.firstPressed <;> exact ⟨_, rfl, rfl⟩
  | _ => exact ⟨_, rfl, rfl⟩

end Hidden

/-- An instruction that reaches neither the display nor the stack keeps both. -/
theorem exec_hidden_kept {i : Instr} (hi : ¬ ReachesHidden i) {s t : State} (ht : exec i s = .next t) :
    t.display = s.display ∧ t.stack = s.stack := by
  obtain ⟨u, hu, hu'⟩ := exec_withHidden s.display s.stack hi s
  cases ht.symm.trans hu
  have h : t = t.withHidden s.display s.stack := by injection ht.symm.trans hu'
  exact ⟨(congrArg State.display h :), (congrArg State.stack h :)⟩

/-- An instruction other than DRW acts the same whatever the display holds. -/
theorem exec_setDisplay {i : Instr} (hi : ∀ x y n, i ≠ .drw x y n) (s : State) (d : Display) :
    ∃ t d', exec i s = .next t ∧ exec i (s.setDisplay d) = .next (t.setDisplay d') := by
  obtain h | rfl | ⟨x, y, n, rfl⟩ | ⟨nnn, rfl⟩ | rfl := em' (ReachesHidden i)
  · obtain ⟨t, ht, htd⟩ := exec_withHidden d s.stack h s
    exact ⟨t, d, ht, htd.trans (by rw [← (exec_hidden_kept h ht).2]; rfl)⟩
  · exact ⟨_, blankDisplay, rfl, rfl⟩
  · exact absurd rfl (hi x y n)
  · by_cases hs : s.sp = 15#4
    · exact ⟨_, d, if_pos hs, if_pos hs⟩
    · exact ⟨_, d, if_neg hs, if_neg hs⟩
  · by_cases hs : s.sp = 0#4
    · exact ⟨_, d, if_pos hs, if_pos hs⟩
    · exact ⟨_, d, if_neg hs, if_neg hs⟩

/-- An instruction other than RET acts the same whatever the stack holds. -/
theorem exec_withStack {i : Instr} (hi : i ≠ .ret) (s : State) (S : Vector Addr 16) :
    ∃ t S', exec i s = .next t ∧ exec i { s with stack := S } = .next { t with stack := S' } := by
  obtain h | rfl | ⟨x, y, n, rfl⟩ | ⟨nnn, rfl⟩ | rfl := em' (ReachesHidden i)
  · obtain ⟨t, ht, htS⟩ := exec_withHidden s.display S h s
    exact ⟨t, S, ht, htS.trans (by rw [← (exec_hidden_kept h ht).1]; rfl)⟩
  · exact ⟨_, S, rfl, rfl⟩
  · cases hb : s.firstBad s.i n.toNat with
    | some b =>
      have hbad := (s.firstBad_some_iff s.i b n.toNat).1 hb
      exact ⟨_, S, exec_of_lowestBad s rfl hbad, exec_of_lowestBad { s with stack := S } rfl hbad⟩
    | none =>
      have hok := (s.firstBad_none_iff s.i n.toNat).1 hb
      exact ⟨_, S, exec_drw_of_ok s x y n hok, exec_drw_of_ok { s with stack := S } x y n hok⟩
  · by_cases hs : s.sp = 15#4
    · exact ⟨_, S, if_pos hs, if_pos hs⟩
    · exact ⟨_, _, if_neg hs, if_neg hs⟩
  · exact absurd rfl hi

/-! ### The cycle -/

/-- A cycle that answers a next state took a fault, or ran the instruction at PC, the timer step aside. -/
theorem step_next_cases {s t : State} (h : step s = .next t) :
    (∃ f, t = s.withFault f) ∨ ∃ i u, AtPc s i ∧ exec i s = .next u ∧ (t = u.timerStep ∨ t = u) := by
  obtain ⟨f, -, hf⟩ | ⟨-, a, -, hf⟩ | ⟨-, w, -, -, hf⟩ | ⟨-, w, i, hw, hi, he⟩ := step_cases s
  · simp [h] at hf
  · exact .inl ⟨_, by injection h.symm.trans hf⟩
  · exact .inl ⟨_, by injection h.symm.trans hf⟩
  · obtain ⟨u, hu, -⟩ := exec_onlyWrites i s
    refine .inr ⟨i, u, ⟨w, hw, hi⟩, hu, ?_⟩
    rw [h, hu] at he
    cases hs : u.status with
    | running => exact .inl (by injection he.trans (endCycle_running hs))
    | faulted f => exact .inr (by injection he.trans (endCycle_faulted hs))

/-! ### The host's operations and the states a machine starts in -/

/-- A nonzero key byte is pressed (10_state.md R30). -/
theorem State.key_writeKeyBytes (s : State) (bs : Vector Byte 16) (k : Reg) :
    (s.writeKeyBytes bs).key k = decide (bs[k.val] ≠ 0#8) := by
  simp [State.writeKeyBytes, State.key]

/-- The bytes of FONT_TABLE are the background of addresses 0x000 to 0x04F. -/
theorem unlistedByte_of_lt (font : Font) {a : Nat} (h : a < 80) : unlistedByte font a = font[a] := dif_pos h

theorem unlistedByte_of_ge (font : Font) {a : Nat} (h : 80 ≤ a) : unlistedByte font a = 0#8 :=
  dif_neg (Nat.not_lt.2 h)

theorem physAddr_of_lt {a : Addr} (h : a.toNat < 0x1000) : physAddr a = a.toNat := Nat.mod_eq_of_lt h

/-- A run of writes leaves its own byte at each address it reaches. -/
theorem Memory.get_setBytes_inside (font : Font) (m : Memory) (a : Nat) (bs : List Byte) {b j : Nat}
    (hj : j < bs.length) (hb : b = a + j) : (Memory.setBytes font m a bs).get font b = bs[j] := by
  subst hb
  rw [Memory.get_setBytes, dif_pos ⟨by omega, by omega⟩]
  simp only [Nat.add_sub_cancel_left]

/-- A run of writes leaves every other address. -/
theorem Memory.get_setBytes_outside (font : Font) (m : Memory) (a : Nat) (bs : List Byte) {b : Nat}
    (hb : b < a ∨ a + bs.length ≤ b) : (Memory.setBytes font m a bs).get font b = m.get font b := by
  rw [Memory.get_setBytes, dif_neg (by omega)]

/-- Bytes that a memory without cells already reads as leave it without cells. -/
theorem Memory.setBytes_nil_of_unlisted (font : Font) (bs : List Byte) : ∀ a : Nat,
    (∀ j (h : j < bs.length), bs[j] = unlistedByte font (a + j)) → Memory.setBytes font [] a bs = [] := by
  induction bs with
  | nil => intro a _; rfl
  | cons b bs ih =>
    intro a h
    have hb : Memory.set font [] a b = [] := if_pos (h 0 (by simp))
    rw [Memory.setBytes, hb]
    refine ih (a + 1) fun j hj => ?_
    rw [Nat.add_assoc, Nat.add_comm 1 j]
    exact h (j + 1) (by simpa using hj)

theorem State.readByte_of_lt (s : State) {a : Addr} (h : a.toNat < 0x1000) :
    s.readByte a = s.mem.get s.cfg.font a.toNat := by rw [State.readByte, physAddr_of_lt h]

/-- A load restores the font and copies the image to 0x200 over the memory there was (10_state.md R35). -/
theorem State.loaded_mem (s : State) (img : List Byte) : (s.loaded img).mem =
    Memory.setBytes s.cfg.font (Memory.setBytes s.cfg.font s.mem 0 s.cfg.font.toList) 0x200 img := rfl

theorem State.loaded_cfg (s : State) (img : List Byte) : (s.loaded img).cfg = s.cfg := rfl

/-- A running block with no output yet meets the invariant when its memory is canonical. -/
theorem stateInv_of_idle {s : State} (hm : s.mem.wf s.cfg.font = true) (hs : s.status = .running)
    (ho : s.out = .idle) : StateInv s :=
  ⟨hm, by simp [hs], by simp [hs, ho]⟩

/-- Loading the empty image right after creation moves PC to 0x200 and changes nothing else. -/
theorem State.load_nil_createdWith (cfg : Config) :
    (State.createdWith cfg).load [] = .ok { State.createdWith cfg with pc := programBase } := by
  have hm : Memory.setBytes cfg.font [] 0 cfg.font.toList = [] :=
    Memory.setBytes_nil_of_unlisted cfg.font _ 0 fun j hj => by
      have h80 : j < 80 := by simpa using hj
      rw [Nat.zero_add, unlistedByte_of_lt cfg.font h80, Vector.getElem_toList]
  simp only [State.load, State.loaded, State.createdWith, Memory.setBytes, hm]
  rfl

end Sys2Proof.Machine

/-! ## The obligations of 10_state.md -/

namespace Sys2Proof.Proofs

open Sys2Proof.Machine Sys2Proof.Safety

/-- Settles O19: `OnlyWrites` bounds the registers by R22's list, and ADD I, Vx keeps VF when the new I is at most
0xFFF. -/
theorem onlyTheNamedRegistersAreWritten : Obligations.OnlyTheNamedRegistersAreWritten := by
  refine ⟨fun i s t r h hr => ?_, fun x s t h hr => ?_⟩
  · by_contra hn
    exact hr ((onlyWrites_of_exec h).reg r hn)
  · cases h
    obtain ⟨hgt, ha⟩ | ⟨-, ha⟩ := addToI_cases x s
    · simpa [ha] using hgt
    · simp [ha] at hr

/-- Settles O20: the writers by `OnlyWrites`, since the timer step and a fault keep the display; the readers by
`exec_setDisplay`. -/
theorem onlyClsAndDrwReachTheDisplay : Obligations.OnlyClsAndDrwReachTheDisplay := by
  refine ⟨fun s t h ⟨x, y, hp⟩ => ?_, fun i s d hi => exec_setDisplay hi s d⟩
  obtain ⟨f, rfl⟩ | ⟨i, u, hi, hu, ht⟩ := step_next_cases h
  · exact absurd rfl hp
  · have htu : t.display = u.display := by obtain rfl | rfl := ht <;> rfl
    obtain hs | rfl | ⟨x, y, n, rfl⟩ := (onlyWrites_of_exec hu).display
    · exact absurd (by rw [State.pixel, htu, hs, State.pixel]) hp
    · exact .inl hi
    · exact .inr ⟨x, y, n, hi⟩

/-- Settles O21: the writer by `OnlyWrites`, the reader by `exec_withStack`; a byte is read from the memory and the
font alone, and CALL keeps both. -/
theorem onlyCallWritesAndOnlyRetReadsTheStack : Obligations.OnlyCallWritesAndOnlyRetReadsTheStack := by
  refine ⟨fun i s t h ⟨k, hk⟩ => ?_, fun i s S hi => exec_withStack hi s S, fun s t nnn h a => ?_,
    fun s t i S _ a => rfl⟩
  · refine (onlyWrites_of_exec h).stack.resolve_left fun hs => hk ?_
    simp only [State.stackAt, hs]
  · have hw := onlyWrites_of_exec h
    have hm : t.mem = s.mem := hw.mem.resolve_right (by simp)
    simp only [State.readByte, hm, hw.cfg]

/-- Settles O50: the core's part by `OnlyWrites`, in which FX0A clears the pressed key it takes. -/
theorem keysAreWrittenByTheHostAndCleared : Obligations.KeysAreWrittenByTheHostAndCleared :=
  ⟨fun i s t k h hk => ((onlyWrites_of_exec h).keys k).resolve_left hk,
    fun s ks bs k => ⟨s.key_writeKeys ks k, by simp [State.key_writeKeyBytes]⟩⟩

/-- Settles O56: memory is the image over the font over the bytes before (`State.loaded_mem`). -/
theorem loadGivesTheLoadState : Obligations.LoadGivesTheLoadState := by
  refine fun s img => ⟨fun hl => ⟨s.loaded img, if_neg (Nat.not_lt.2 hl), ?_⟩, fun hl => if_pos hl⟩
  refine ⟨fun r => by simp [State.reg, State.loaded], rfl, rfl, rfl, fun k => by simp [State.stackAt, State.loaded],
    rfl, rfl, fun x y => Display.pixel_blank x y, fun k => rfl, rfl, rfl, fun a h => ?_, fun a j hj ha => ?_,
    fun a h80 hlt hout => ?_⟩
  · rw [State.readByte_of_lt _ (by omega), s.loaded_mem, s.loaded_cfg, Memory.get_setBytes_outside _ _ _ _ (by omega),
      Memory.get_setBytes_inside _ _ _ _ (by simpa using h) (Nat.zero_add _).symm, Vector.getElem_toList]
  · rw [State.readByte_of_lt _ (by omega), s.loaded_mem, s.loaded_cfg, Memory.get_setBytes_inside _ _ _ _ hj ha]
  · have hfont : s.cfg.font.toList.length = 80 := Vector.length_toList
    rw [State.readByte_of_lt _ hlt, s.loaded_mem, s.loaded_cfg, Memory.get_setBytes_outside _ _ _ _ (by omega),
      Memory.get_setBytes_outside _ _ _ _ (by omega), ← s.readByte_of_lt hlt]

/-- Settles O15: both states run, have no output yet and list no memory cell. -/
theorem resetAndCreationMeetTheInvariant : Obligations.ResetAndCreationMeetTheInvariant :=
  ⟨stateInv_of_idle (Memory.wf_nil _) rfl rfl, fun _ => stateInv_of_idle (Memory.wf_nil _) rfl rfl⟩

/-- Settles O55: with no cell listed, memory reads as its background, the font and zeros. -/
theorem creationState : Obligations.CreationState := by
  intro cfg s
  have hmem (a : Addr) (ha : a.toNat < 0x1000) : s.readByte a = unlistedByte cfg.font a.toNat := by
    rw [s.readByte_of_lt ha]
    rfl
  refine ⟨rfl, fun r => by simp [s, State.reg, State.createdWith], rfl, rfl, rfl,
    fun k => by simp [s, State.stackAt, State.createdWith], rfl, rfl, fun x y => Display.pixel_blank x y,
    fun k => by simp [s, State.key, State.createdWith], rfl, fun a h => ?_, fun a h80 hlt => ?_⟩
  · rw [hmem a (by omega), unlistedByte_of_lt cfg.font h]
  · rw [hmem a hlt, unlistedByte_of_ge cfg.font h80]

/-- Settles O57: the empty load right after creation, at the default parameters. -/
theorem resetIsAnEmptyLoadAfterCreation : Obligations.ResetIsAnEmptyLoadAfterCreation :=
  ⟨State.load_nil_createdWith Config.default, rfl, rfl⟩

end Sys2Proof.Proofs

/-! ## 20_memory.md: the checks of an access, and what a fetch reads of stored bytes -/

namespace Sys2Proof.Machine

open Sys2Proof.Safety

/-! ### The checks -/

/-- The checks of an access pass, or one fails and the lowest bad address is named (20_memory.md R56). -/
theorem accessOk_or_lowestBad (s : State) (base : Addr) (n : Nat) :
    AccessOk s base n ∨ ∃ a, LowestBad s base n a := by
  cases h : s.firstBad base n with
  | none => exact .inl ((s.firstBad_none_iff base n).1 h)
  | some a => exact .inr ⟨a, (s.firstBad_some_iff base a n).1 h⟩

/-- Offsets of an access add up. -/
theorem byteAddr_byteAddr (base : Addr) (j k : Nat) : byteAddr (byteAddr base j) k = byteAddr base (j + k) := by
  simp only [byteAddr, BitVec.ofNat_add, BitVec.add_assoc]

/-- An access inside one that goes through goes through. -/
theorem accessOk_inside {s : State} {base : Addr} {n j m : Nat} (h : AccessOk s base n) (hm : j + m ≤ n) :
    AccessOk s (byteAddr base j) m := by
  refine h.imp_right fun h k hk => ?_
  rw [← byteAddr, byteAddr_byteAddr]
  exact h (j + k) (by omega)

/-- The byte an address reaches is named by its low 12 bits (20_memory.md R55). -/
theorem physAddr_and_FFF (a : Addr) : physAddr (a &&& 0xFFF#16) = physAddr a := by
  have hlow : (a &&& 0xFFF#16).toNat = a.toNat % 0x1000 :=
    (BitVec.toNat_and a _).trans (Nat.and_two_pow_sub_one_eq_mod a.toNat 12)
  rw [physAddr, physAddr, hlow, memSize, Nat.mod_mod]

/-! ### Data accesses and the fetch -/

/-- Memory and the font decide every byte read. -/
theorem State.readByte_congr {s t : State} (hm : t.mem = s.mem) (hc : t.cfg = s.cfg) (a : Addr) :
    t.readByte a = s.readByte a := by
  rw [State.readByte, State.readByte, hm, hc]

/-- An instruction whose data access goes through completes: it keeps the fault status and moves on to PC + 2. -/
theorem exec_of_accessOk {s : State} {i : Instr} {n : Nat} (hi : dataBytes i = some n) (h : AccessOk s s.i n) :
    ∃ t, exec i s = .next t ∧ t.status = s.status ∧ t.pc = s.pc + 2#16 := by
  cases i with
  | drw x y m =>
    cases hi
    exact ⟨_, exec_drw_of_ok s x y m h, rfl, rfl⟩
  | ldBVx x =>
    cases hi
    exact ⟨_, exec_ldBVx_of_ok s x h, by rw [s.writeBytes_eq]; rfl, rfl⟩
  | ldMiVx x =>
    cases hi
    exact ⟨_, exec_ldMiVx_of_ok s x h, by rw [s.writeBytes_eq]; rfl, rfl⟩
  | ldVxMi x =>
    cases hi
    exact ⟨_, exec_ldVxMi_of_ok s x h, by rw [(loadRegs_eq s _ s).1]; rfl, rfl⟩
  | _ => cases hi

theorem State.fetch_of_accessOk {s : State} (h : AccessOk s s.pc 2) :
    s.fetch = .word (wordOfBytes (s.readByte s.pc) (s.readByte (byteAddr s.pc 1))) := by
  rw [State.fetch, (s.firstBad_none_iff s.pc 2).2 h, byteAddr_zero]

theorem State.fetch_of_lowestBad {s : State} {a : Addr} (h : LowestBad s s.pc 2 a) : s.fetch = .outOfRange a := by
  rw [State.fetch, (s.firstBad_some_iff s.pc a 2).2 h]

/-- A running block whose fetch fails its check faults at the address the check names. -/
theorem step_of_fetch_outOfRange {s : State} {a : Addr} (hs : s.status = .running) (hf : s.fetch = .outOfRange a) :
    step s = .next (s.withFault (.memoryOutOfRange s.pc a)) := by
  rw [step, hs]
  simp only [hf, raise]

/-! ### Stored bytes -/

/-- A run of writes leaves its own byte at each address it reaches. -/
theorem State.readByte_writeBytes (s : State) (base : Addr) {bs : List Byte} (hl : bs.length ≤ memSize) {j : Nat}
    (hj : j < bs.length) : (s.writeBytes base bs).readByte (byteAddr base j) = bs[j] := by
  have h := State.readByte_writeBytesFrom base bs s 0 j hj (by omega)
  rwa [Nat.zero_add] at h

/-- A fetch inside a run of stored bytes reads the two bytes stored where it fetches (20_memory.md R61,
70_reset_and_hazards.md R257). -/
theorem State.fetch_writeBytes {s : State} {base : Addr} {bs : List Byte} (hok : AccessOk s base bs.length)
    (hl : bs.length ≤ memSize) {j : Nat} (hj : j + 1 < bs.length) :
    ((s.writeBytes base bs).setPc (byteAddr base j)).fetch = .word (wordOfBytes bs[j] bs[j + 1]) := by
  have hfetch : AccessOk ((s.writeBytes base bs).setPc (byteAddr base j)) (byteAddr base j) 2 := by
    rw [s.writeBytes_eq]
    exact accessOk_inside hok hj
  rw [State.fetch_of_accessOk hfetch, State.setPc_pc, byteAddr_byteAddr]
  congr 2
  · exact s.readByte_writeBytes base hl (Nat.lt_of_succ_lt hj)
  · exact s.readByte_writeBytes base hl hj

theorem decimalDigits_length (b : Byte) : (decimalDigits b).length = 3 := rfl

/-- The word that the hundreds and the tens digit of a byte make (44_index_memory.md R183). -/
theorem wordOfBytes_digits (b : Byte) :
    wordOfBytes (BitVec.ofNat 8 (b.toNat / 100)) (BitVec.ofNat 8 (b.toNat / 10 % 10)) =
      BitVec.ofNat 16 (0x100 * (b.toNat / 100) + b.toNat / 10 % 10) := by
  have hb := b.isLt
  rw [wordOfBytes, BitVec.toNat_ofNat, BitVec.toNat_ofNat, Nat.mod_eq_of_lt (by omega), Nat.mod_eq_of_lt (by omega)]

end Sys2Proof.Machine

/-! ## The obligations of 20_memory.md -/

namespace Sys2Proof.Proofs

open Sys2Proof.Machine Sys2Proof.Safety

/-- Settles O22: `OnlyWrites` names the writers of memory, I and SP, and keeps the parameters. -/
theorem onlyTheNamedInstructionsWriteMemoryIAndSp : Obligations.OnlyTheNamedInstructionsWriteMemoryIAndSp := by
  intro i s t h
  have hw := onlyWrites_of_exec h
  exact ⟨fun ⟨a, ha⟩ => hw.mem.resolve_left fun hm => ha (State.readByte_congr hm hw.cfg a),
    hw.index.resolve_left, hw.sp.resolve_left, hw.cfg⟩

/-- Settles O24: a failed check answers the fault before the instruction's body (`exec_of_lowestBad`) and before the
dispatch (`step_of_fetch_outOfRange`); a byte is reached through `physAddr`, which reads the low 12 bits alone. -/
theorem accessesCheckEveryAddressFirst : Obligations.AccessesCheckEveryAddressFirst := by
  refine ⟨fun s i n hi => ⟨fun a ha => exec_of_lowestBad s hi ha, exec_of_accessOk hi⟩,
    fun s a hs ha => step_of_fetch_outOfRange hs (State.fetch_of_lowestBad ha), accessOk_or_lowestBad,
    fun s a b _ => ⟨?_, ?_⟩⟩
  · rw [State.readByte, State.readByte, physAddr_and_FFF]
  · rw [State.writeByte, State.writeByte, physAddr_and_FFF]

/-- Settles O25: both instructions store a run of bytes at I and change PC alone besides, so `State.fetch_writeBytes`
gives the word. -/
theorem storedBytesAreFetched : Obligations.StoredBytesAreFetched := by
  refine ⟨fun s t x j k hok hkj hkx h => ?_, fun s t x hok h => ?_⟩
  · have hx := x.isLt
    have hlen := s.regValues_length x
    have hl : (s.regValues x).length ≤ memSize := by rw [hlen, memSize]; omega
    have hjx : j ≤ x := by rw [Fin.le_def] at hkx ⊢; omega
    obtain ⟨_, hvj⟩ := List.getElem?_eq_some_iff.1 (s.regValues_getElem x j hjx)
    obtain ⟨hk, hvk⟩ := List.getElem?_eq_some_iff.1 (s.regValues_getElem x k hkx)
    simp only [hkj] at hk hvk
    have hfetch := State.fetch_writeBytes (hlen ▸ hok) hl hk
    cases h.symm.trans (exec_ldMiVx_of_ok s x hok)
    rwa [hvj, hvk] at hfetch
  · have hl : (decimalDigits (s.reg x)).length ≤ memSize := by rw [decimalDigits_length, memSize]; omega
    have hfetch := State.fetch_writeBytes (j := 0) hok hl (by rw [decimalDigits_length]; omega)
    cases h.symm.trans (exec_ldBVx_of_ok s x hok)
    rw [byteAddr_zero] at hfetch
    exact hfetch.trans (congrArg _ (wordOfBytes_digits _))

end Sys2Proof.Proofs

/-! ## 30_encoding.md: encoding and decoding are inverse, and which words are instructions -/

namespace Sys2Proof

/-! ### Words put together again from their fields (R71) -/

section fields
variable {w : Word} {f n : BitVec 4} {nn : Byte}

/-- A word of family `f` is `{f, NNN}`. -/
theorem wordNNN_nnnOf (hf : familyOf w = f) : wordNNN f (nnnOf w) = w := by
  apply BitVec.eq_of_toNat_eq
  rw [wordNNN_toNat, ← hf, familyOf_toNat, nnnOf_toNat]
  omega

/-- A word of family `f` whose NN is `nn` is `{f, X, nn}`. -/
theorem wordXNN_xOf (hf : familyOf w = f) (hnn : nnOf w = nn) : wordXNN f (xOf w) nn = w := by
  apply BitVec.eq_of_toNat_eq
  rw [wordXNN_toNat, ← hf, ← hnn, familyOf_toNat, xOf_val, nnOf_toNat]
  omega

/-- A word of family `f` whose N is `n` is `{f, X, Y, n}`. -/
theorem wordXYN_xOf_yOf (hf : familyOf w = f) (hn : nOf w = n) : wordXYN f (xOf w) (yOf w) n = w := by
  apply BitVec.eq_of_toNat_eq
  rw [wordXYN_toNat, ← hf, ← hn, familyOf_toNat, xOf_val, yOf_val, nOf_toNat]
  omega

end fields

/-! ### Decoding and encoding are inverse -/

/-- The case split by family, one named case for each of the sixteen. -/
theorem familyCases {motive : Word → Prop}
    (f0 : ∀ w, familyOf w = 0x0#4 → motive w) (f1 : ∀ w, familyOf w = 0x1#4 → motive w)
    (f2 : ∀ w, familyOf w = 0x2#4 → motive w) (f3 : ∀ w, familyOf w = 0x3#4 → motive w)
    (f4 : ∀ w, familyOf w = 0x4#4 → motive w) (f5 : ∀ w, familyOf w = 0x5#4 → motive w)
    (f6 : ∀ w, familyOf w = 0x6#4 → motive w) (f7 : ∀ w, familyOf w = 0x7#4 → motive w)
    (f8 : ∀ w, familyOf w = 0x8#4 → motive w) (f9 : ∀ w, familyOf w = 0x9#4 → motive w)
    (fA : ∀ w, familyOf w = 0xA#4 → motive w) (fB : ∀ w, familyOf w = 0xB#4 → motive w)
    (fC : ∀ w, familyOf w = 0xC#4 → motive w) (fD : ∀ w, familyOf w = 0xD#4 → motive w)
    (fE : ∀ w, familyOf w = 0xE#4 → motive w) (fF : ∀ w, familyOf w = 0xF#4 → motive w)
    (w : Word) : motive w := by
  obtain ⟨k, hk⟩ := familyOf_cases w
  fin_cases k
  exacts [f0 w hk, f1 w hk, f2 w hk, f3 w hk, f4 w hk, f5 w hk, f6 w hk, f7 w hk,
    f8 w hk, f9 w hk, fA w hk, fB w hk, fC w hk, fD w hk, fE w hk, fF w hk]

/-- The decoder reads the encoder's word as the instruction: its family and its sub-dispatch field select the row, and
the other fields are the operands. -/
theorem decodeWord_encode (i : Instr) : decodeWord (encode i) = some i := by
  cases i with
  | cls | ret => rfl
  | jp | call | ldINnn | jpV0Nnn => simp [encode, decodeWord]
  | seVxNn | sneVxNn | ldVxNn | addVxNn | rnd => simp [encode, decodeWord]
  | seVxVy | sneVxVy | drw => simp [encode, decodeWord]
  | ldVxVy | orVxVy | andVxVy | xorVxVy | addVxVy | sub | shr | subn | shl =>
    rw [encode, decodeWord_family8 (familyOf_wordXYN ..)]
    simp [decodeFamily8]
  | skp | sknp =>
    rw [encode, decodeWord_familyE (familyOf_wordXNN ..)]
    simp [decodeFamilyE]
  | ldVxDt | ldVxK | ldDtVx | ldStVx | addIVx | ldFVx | ldBVx | ldMiVx | ldVxMi =>
    rw [encode, decodeWord_familyF (familyOf_wordXNN ..)]
    simp [decodeFamilyF]

/-- The encoder writes every decoded word back: the dispatch pins the family and the sub-dispatch field, and the
operands are the other fields. -/
theorem encode_of_decodeWord {w : Word} {i : Instr} (h : decodeWord w = some i) : encode i = w := by
  cases w using familyCases with
  | f0 w hk =>
    obtain ⟨rfl, rfl⟩ | ⟨rfl, rfl⟩ := decodeFamily0_cases ((decodeWord_family0 hk).symm.trans h) <;> rfl
  | f1 w hk => cases (decodeWord_family1 hk).symm.trans h; exact wordNNN_nnnOf hk
  | f2 w hk => cases (decodeWord_family2 hk).symm.trans h; exact wordNNN_nnnOf hk
  | f3 w hk => cases (decodeWord_family3 hk).symm.trans h; exact wordXNN_xOf hk rfl
  | f4 w hk => cases (decodeWord_family4 hk).symm.trans h; exact wordXNN_xOf hk rfl
  | f5 w hk =>
    rw [decodeWord_family5 hk] at h
    split_ifs at h with hn
    cases h
    exact wordXYN_xOf_yOf hk hn
  | f6 w hk => cases (decodeWord_family6 hk).symm.trans h; exact wordXNN_xOf hk rfl
  | f7 w hk => cases (decodeWord_family7 hk).symm.trans h; exact wordXNN_xOf hk rfl
  | f8 w hk =>
    obtain ⟨hn, rfl⟩ | ⟨hn, rfl⟩ | ⟨hn, rfl⟩ | ⟨hn, rfl⟩ | ⟨hn, rfl⟩ | ⟨hn, rfl⟩ | ⟨hn, rfl⟩ | ⟨hn, rfl⟩ | ⟨hn, rfl⟩ :=
      decodeFamily8_cases ((decodeWord_family8 hk).symm.trans h) <;> exact wordXYN_xOf_yOf hk hn
  | f9 w hk =>
    rw [decodeWord_family9 hk] at h
    split_ifs at h with hn
    cases h
    exact wordXYN_xOf_yOf hk hn
  | fA w hk => cases (decodeWord_familyA hk).symm.trans h; exact wordNNN_nnnOf hk
  | fB w hk => cases (decodeWord_familyB hk).symm.trans h; exact wordNNN_nnnOf hk
  | fC w hk => cases (decodeWord_familyC hk).symm.trans h; exact wordXNN_xOf hk rfl
  | fD w hk => cases (decodeWord_familyD hk).symm.trans h; exact wordXYN_xOf_yOf hk rfl
  | fE w hk =>
    obtain ⟨hnn, rfl⟩ | ⟨hnn, rfl⟩ := decodeFamilyE_cases ((decodeWord_familyE hk).symm.trans h) <;>
      exact wordXNN_xOf hk hnn
  | fF w hk =>
    obtain ⟨hnn, rfl⟩ | ⟨hnn, rfl⟩ | ⟨hnn, rfl⟩ | ⟨hnn, rfl⟩ | ⟨hnn, rfl⟩ | ⟨hnn, rfl⟩ | ⟨hnn, rfl⟩ | ⟨hnn, rfl⟩ |
        ⟨hnn, rfl⟩ :=
      decodeFamilyF_cases ((decodeWord_familyF hk).symm.trans h) <;> exact wordXNN_xOf hk hnn

/-- The decoder and the encoder are inverse. -/
theorem decodeWord_eq_some_iff {w : Word} {i : Instr} : decodeWord w = some i ↔ encode i = w :=
  ⟨encode_of_decodeWord, fun h => h ▸ decodeWord_encode i⟩

/-- The two bytes of a word in memory order decode as the word does (20_memory.md R53). -/
theorem decodeBytes_of_decodeWord {w : Word} {i : Instr} (h : decodeWord w = some i) (rest : List Byte) :
    decodeBytes (highByte w :: lowByte w :: rest) = .instr i rest := by
  simp [decodeBytes, h]

/-! ### The rows of the opcode map (R74) -/

section masks
variable {w p : Word} {f n : BitVec 4} {nn : Byte}

theorem familyOf_of_and_F000 (h : w &&& 0xF000#16 = p) (hp : p.toNat = 0x1000 * f.toNat) : familyOf w = f := by
  apply BitVec.eq_of_toNat_eq
  have hw := and_F000 w
  rw [h, hp] at hw
  rw [familyOf_toNat]
  omega

theorem familyOf_nOf_of_and_F00F (h : w &&& 0xF00F#16 = p) (hp : p.toNat = 0x1000 * f.toNat + n.toNat) :
    familyOf w = f ∧ nOf w = n := by
  have hw := and_F00F w
  have := n.isLt
  rw [h, hp] at hw
  constructor <;> apply BitVec.eq_of_toNat_eq
  · rw [familyOf_toNat]; omega
  · rw [nOf_toNat]; omega

theorem familyOf_nnOf_of_and_F0FF (h : w &&& 0xF0FF#16 = p) (hp : p.toNat = 0x1000 * f.toNat + nn.toNat) :
    familyOf w = f ∧ nnOf w = nn := by
  have hw := and_F0FF w
  have := nn.isLt
  rw [h, hp] at hw
  constructor <;> apply BitVec.eq_of_toNat_eq
  · rw [familyOf_toNat]; omega
  · rw [nnOf_toNat]; omega

/-- A word a row with mask 0xF00F covers is put together from its X and Y. -/
theorem wordXYN_of_and_F00F (h : w &&& 0xF00F#16 = p) (hp : p.toNat = 0x1000 * f.toNat + n.toNat) :
    wordXYN f (xOf w) (yOf w) n = w :=
  (familyOf_nOf_of_and_F00F h hp).elim wordXYN_xOf_yOf

/-- A word a row with mask 0xF0FF covers is put together from its X. -/
theorem wordXNN_of_and_F0FF (h : w &&& 0xF0FF#16 = p) (hp : p.toNat = 0x1000 * f.toNat + nn.toNat) :
    wordXNN f (xOf w) nn = w :=
  (familyOf_nnOf_of_and_F0FF h hp).elim wordXNN_xOf

end masks

/-- The instruction of the same row whose operands are the fields of `w`. -/
def Instr.withFieldsOf (w : Word) : Instr → Instr
  | .cls => .cls
  | .ret => .ret
  | .jp _ => .jp (nnnOf w)
  | .call _ => .call (nnnOf w)
  | .seVxNn _ _ => .seVxNn (xOf w) (nnOf w)
  | .sneVxNn _ _ => .sneVxNn (xOf w) (nnOf w)
  | .seVxVy _ _ => .seVxVy (xOf w) (yOf w)
  | .ldVxNn _ _ => .ldVxNn (xOf w) (nnOf w)
  | .addVxNn _ _ => .addVxNn (xOf w) (nnOf w)
  | .ldVxVy _ _ => .ldVxVy (xOf w) (yOf w)
  | .orVxVy _ _ => .orVxVy (xOf w) (yOf w)
  | .andVxVy _ _ => .andVxVy (xOf w) (yOf w)
  | .xorVxVy _ _ => .xorVxVy (xOf w) (yOf w)
  | .addVxVy _ _ => .addVxVy (xOf w) (yOf w)
  | .sub _ _ => .sub (xOf w) (yOf w)
  | .shr _ _ => .shr (xOf w) (yOf w)
  | .subn _ _ => .subn (xOf w) (yOf w)
  | .shl _ _ => .shl (xOf w) (yOf w)
  | .sneVxVy _ _ => .sneVxVy (xOf w) (yOf w)
  | .ldINnn _ => .ldINnn (nnnOf w)
  | .jpV0Nnn _ => .jpV0Nnn (nnnOf w)
  | .rnd _ _ => .rnd (xOf w) (nnOf w)
  | .drw _ _ _ => .drw (xOf w) (yOf w) (nOf w)
  | .skp _ => .skp (xOf w)
  | .sknp _ => .sknp (xOf w)
  | .ldVxDt _ => .ldVxDt (xOf w)
  | .ldVxK _ => .ldVxK (xOf w)
  | .ldDtVx _ => .ldDtVx (xOf w)
  | .ldStVx _ => .ldStVx (xOf w)
  | .addIVx _ => .addIVx (xOf w)
  | .ldFVx _ => .ldFVx (xOf w)
  | .ldBVx _ => .ldBVx (xOf w)
  | .ldMiVx _ => .ldMiVx (xOf w)
  | .ldVxMi _ => .ldVxMi (xOf w)

@[simp] theorem Instr.row_withFieldsOf (w : Word) (i : Instr) : (i.withFieldsOf w).row = i.row := by cases i <;> rfl

/-- A word that an instruction's row covers is that row's pattern with the word's own fields. -/
theorem encode_withFieldsOf {w : Word} {i : Instr} (h : w &&& i.row.mask = i.row.pattern) :
    encode (i.withFieldsOf w) = w := by
  cases i with
  | cls | ret => exact h.symm.trans (and_FFFF w)
  | jp | call | ldINnn | jpV0Nnn => exact wordNNN_nnnOf (familyOf_of_and_F000 h rfl)
  | seVxNn | sneVxNn | ldVxNn | addVxNn | rnd => exact wordXNN_xOf (familyOf_of_and_F000 h rfl) rfl
  | drw => exact wordXYN_xOf_yOf (familyOf_of_and_F000 h rfl) rfl
  | seVxVy | sneVxVy => exact wordXYN_of_and_F00F h rfl
  | ldVxVy | orVxVy | andVxVy | xorVxVy | addVxVy | sub | shr | subn | shl => exact wordXYN_of_and_F00F h rfl
  | skp | sknp => exact wordXNN_of_and_F0FF h rfl
  | ldVxDt | ldVxK | ldDtVx | ldStVx | addIVx | ldFVx | ldBVx | ldMiVx | ldVxMi => exact wordXNN_of_and_F0FF h rfl

open Laws in
/-- The facts of the family EncodedRow, for every instruction. -/
theorem encodedRow : ∀ i : Instr, EncodedRow.Statement i
  | .cls => EncodedRow.cls
  | .ret => EncodedRow.ret
  | .jp nnn => EncodedRow.jp nnn
  | .call nnn => EncodedRow.call nnn
  | .seVxNn x nn => EncodedRow.seVxNn x nn
  | .sneVxNn x nn => EncodedRow.sneVxNn x nn
  | .seVxVy x y => EncodedRow.seVxVy x y
  | .ldVxNn x nn => EncodedRow.ldVxNn x nn
  | .addVxNn x nn => EncodedRow.addVxNn x nn
  | .ldVxVy x y => EncodedRow.ldVxVy x y
  | .orVxVy x y => EncodedRow.orVxVy x y
  | .andVxVy x y => EncodedRow.andVxVy x y
  | .xorVxVy x y => EncodedRow.xorVxVy x y
  | .addVxVy x y => EncodedRow.addVxVy x y
  | .sub x y => EncodedRow.sub x y
  | .shr x y => EncodedRow.shr x y
  | .subn x y => EncodedRow.subn x y
  | .shl x y => EncodedRow.shl x y
  | .sneVxVy x y => EncodedRow.sneVxVy x y
  | .ldINnn nnn => EncodedRow.ldINnn nnn
  | .jpV0Nnn nnn => EncodedRow.jpV0Nnn nnn
  | .rnd x nn => EncodedRow.rnd x nn
  | .drw x y n => EncodedRow.drw x y n
  | .skp x => EncodedRow.skp x
  | .sknp x => EncodedRow.sknp x
  | .ldVxDt x => EncodedRow.ldVxDt x
  | .ldVxK x => EncodedRow.ldVxK x
  | .ldDtVx x => EncodedRow.ldDtVx x
  | .ldStVx x => EncodedRow.ldStVx x
  | .addIVx x => EncodedRow.addIVx x
  | .ldFVx x => EncodedRow.ldFVx x
  | .ldBVx x => EncodedRow.ldBVx x
  | .ldMiVx x => EncodedRow.ldMiVx x
  | .ldVxMi x => EncodedRow.ldVxMi x

/-- A row covers exactly the words that decode to an instruction of the row, with the word's fields as operands: for
each `i`, an `EncodedAs` of the model. -/
theorem covered_iff_decodeWord (w : Word) (i : Instr) :
    w &&& i.row.mask = i.row.pattern ↔ decodeWord w = some (i.withFieldsOf w) := by
  refine ⟨fun h => decodeWord_eq_some_iff.2 (encode_withFieldsOf h), fun h => ?_⟩
  obtain ⟨-, hcov⟩ := encodedRow (i.withFieldsOf w)
  rw [encode_of_decodeWord h, i.row_withFieldsOf w] at hcov
  exact beq_iff_eq.1 hcov

/-- A decoded word is covered by its instruction's row, which is in the map. -/
theorem row_of_decodeWord {w : Word} {i : Instr} (h : decodeWord w = some i) :
    i.row ∈ opcodeTable ∧ w &&& i.row.mask = i.row.pattern := by
  obtain ⟨hmem, hcov⟩ := encodedRow i
  rw [encode_of_decodeWord h] at hcov
  exact ⟨hmem, beq_iff_eq.1 hcov⟩

/-- One instruction of each row, in the map's order. -/
def rowInstrs : List Instr :=
  [.cls, .ret, .jp 0, .call 0, .seVxNn 0 0, .sneVxNn 0 0, .seVxVy 0 0, .ldVxNn 0 0, .addVxNn 0 0,
   .ldVxVy 0 0, .orVxVy 0 0, .andVxVy 0 0, .xorVxVy 0 0, .addVxVy 0 0, .sub 0 0, .shr 0 0, .subn 0 0, .shl 0 0,
   .sneVxVy 0 0, .ldINnn 0, .jpV0Nnn 0, .rnd 0 0, .drw 0 0 0, .skp 0, .sknp 0,
   .ldVxDt 0, .ldVxK 0, .ldDtVx 0, .ldStVx 0, .addIVx 0, .ldFVx 0, .ldBVx 0, .ldMiVx 0, .ldVxMi 0]

/-- Every row of the map stands for some instruction. -/
theorem opcodeTable_eq_map_row : opcodeTable = rowInstrs.map Instr.row := rfl

/-- A word that a row of the map covers decodes to an instruction of that row. -/
theorem decodeWord_of_covered {w : Word} {r : Row} (hr : r ∈ opcodeTable) (h : w &&& r.mask = r.pattern) :
    ∃ i, decodeWord w = some i ∧ i.row = r := by
  rw [opcodeTable_eq_map_row] at hr
  obtain ⟨i, -, rfl⟩ := List.mem_map.1 hr
  exact ⟨i.withFieldsOf w, (covered_iff_decodeWord w i).1 h, i.row_withFieldsOf w⟩

/-- A word is unsupported exactly when no row of the map covers it (R77). -/
theorem decodeWord_eq_none_iff (w : Word) :
    decodeWord w = none ↔ ∀ r, r ∈ opcodeTable → w &&& r.mask ≠ r.pattern := by
  refine ⟨fun h r hr hcov => ?_, fun h => Option.eq_none_iff_forall_ne_some.2 fun i hi => ?_⟩
  · obtain ⟨i, hi, -⟩ := decodeWord_of_covered hr hcov
    exact absurd (h.symm.trans hi) (by simp)
  · obtain ⟨hmem, hcov⟩ := row_of_decodeWord hi
    exact h i.row hmem hcov

/-! ### The defined words of each family (R75, R76) -/

/-- What a family's dispatch looks at, as the number modulo which it reads the word: the whole word in family 0, N in
5, 8 and 9, NN in E and F, nothing in the others. -/
def dispatchModulus : Nat → Nat
  | 0x0 => 0x1000
  | 0x5 | 0x8 | 0x9 => 0x10
  | 0xE | 0xF => 0x100
  | _ => 1

/-- The values of that number which are instructions, for each family. -/
def dispatchValues : Nat → List Nat
  | 0x0 => [0x0E0, 0x0EE]
  | 0x8 => [0x0, 0x1, 0x2, 0x3, 0x4, 0x5, 0x6, 0x7, 0xE]
  | 0xE => [0x9E, 0xA1]
  | 0xF => [0x07, 0x0A, 0x15, 0x18, 0x1E, 0x29, 0x33, 0x55, 0x65]
  | _ => [0]

section families
variable {w : Word}

theorem decodeFamily0_isSome_iff : (decodeFamily0 w).isSome = true ↔ w = 0x00E0#16 ∨ w = 0x00EE#16 := by
  unfold decodeFamily0
  split_ifs <;> simp_all

theorem decodeFamily8_isSome_iff :
    (decodeFamily8 w).isSome = true ↔ (nOf w).toNat ∈ [0x0, 0x1, 0x2, 0x3, 0x4, 0x5, 0x6, 0x7, 0xE] := by
  simp only [decodeFamily8, ← BitVec.toNat_inj]
  split_ifs <;> simp_all

theorem decodeFamilyE_isSome_iff : (decodeFamilyE w).isSome = true ↔ (nnOf w).toNat ∈ [0x9E, 0xA1] := by
  simp only [decodeFamilyE, ← BitVec.toNat_inj]
  split_ifs <;> simp_all

theorem decodeFamilyF_isSome_iff : (decodeFamilyF w).isSome = true ↔
    (nnOf w).toNat ∈ [0x07, 0x0A, 0x15, 0x18, 0x1E, 0x29, 0x33, 0x55, 0x65] := by
  simp only [decodeFamilyF, ← BitVec.toNat_inj]
  split_ifs <;> simp_all

end families

theorem nOf_eq_iff {w : Word} {n : BitVec 4} : nOf w = n ↔ w.toNat % 0x10 = n.toNat := by
  rw [← nOf_toNat, BitVec.toNat_inj]

theorem toNat_mod_of_family0 {w : Word} (h : (familyOf w).toNat = 0) : w.toNat % 0x1000 = w.toNat := by
  rw [familyOf_toNat] at h
  omega

/-- A word is an instruction exactly when its family's dispatch reads one of that family's values from it. -/
theorem decodeWord_isSome_iff (w : Word) : (decodeWord w).isSome = true ↔
    w.toNat % dispatchModulus (familyOf w).toNat ∈ dispatchValues (familyOf w).toNat := by
  cases w using familyCases with
  | f0 w hk =>
    have hlow := toNat_mod_of_family0 (congrArg BitVec.toNat hk)
    rw [decodeWord_family0 hk, decodeFamily0_isSome_iff, hk]
    simp [dispatchModulus, dispatchValues, hlow, ← BitVec.toNat_inj]
  | f1 w hk | f2 w hk | f3 w hk | f4 w hk | f6 w hk | f7 w hk | fA w hk | fB w hk | fC w hk | fD w hk =>
    simp [decodeWord, hk, dispatchModulus, dispatchValues, Nat.mod_one]
  | f5 w hk => simp [decodeWord_family5 hk, hk, dispatchModulus, dispatchValues, nOf_eq_iff]
  | f8 w hk => rw [decodeWord_family8 hk, decodeFamily8_isSome_iff, nOf_toNat, hk]; rfl
  | f9 w hk => simp [decodeWord_family9 hk, hk, dispatchModulus, dispatchValues, nOf_eq_iff]
  | fE w hk => rw [decodeWord_familyE hk, decodeFamilyE_isSome_iff, nnOf_toNat, hk]; rfl
  | fF w hk => rw [decodeWord_familyF hk, decodeFamilyF_isSome_iff, nnOf_toNat, hk]; rfl

/-! ### Counting the unsupported words (R77) -/

/-- In a whole number of periods, a periodic condition holds as often as in that many single periods. -/
theorem length_filter_mod_range (p : Nat → Bool) (k : Nat) : ∀ m : Nat,
    ((List.range (m * k)).filter fun n => p (n % k)).length = m * ((List.range k).filter p).length
  | 0 => by simp
  | m + 1 => by
    have hperiod : ((List.range k).filter fun n => p ((m * k + n) % k)) = (List.range k).filter p :=
      List.filter_congr fun n hn => by
        rw [Nat.mul_add_mod_self_right, Nat.mod_eq_of_lt (List.mem_range.1 hn)]
    rw [Nat.succ_mul, List.range_add, List.filter_append, List.length_append, length_filter_mod_range p k m,
      List.filter_map, List.length_map, Nat.succ_mul]
    exact congrArg (_ + List.length ·) hperiod

/-- How many numbers below `k` are not in a list of distinct ones. -/
theorem length_filter_notMem_range {k : Nat} {l : List Nat} (hl : l.Nodup) (hk : ∀ a ∈ l, a < k) :
    ((List.range k).filter fun n => !decide (n ∈ l)).length = k - l.length := by
  have hmem : ((List.range k).filter fun n => decide (n ∈ l)).Perm l :=
    (List.perm_ext_iff_of_nodup (List.nodup_range.filter _) hl).2 fun a => by simpa using hk a
  have hsum := List.length_eq_length_filter_add (l := List.range k) fun n => decide (n ∈ l)
  rw [List.length_range, hmem.length_eq] at hsum
  omega

theorem dispatchValues_nodup {f : Nat} (hf : f < 16) : (dispatchValues f).Nodup := by
  revert f; decide

theorem lt_dispatchModulus_of_mem {f : Nat} (hf : f < 16) : ∀ a ∈ dispatchValues f, a < dispatchModulus f := by
  revert f; decide

theorem dispatchModulus_dvd {f : Nat} (hf : f < 16) : dispatchModulus f ∣ 4096 := by
  revert f; decide

/-- The `n`-th word of family `f`, by the family's dispatch. -/
theorem decodeWord_isNone_ofNat {f n : Nat} (hf : f < 16) (hn : n < 4096) :
    (decodeWord (BitVec.ofNat 16 (4096 * f + n))).isNone = !decide (n % dispatchModulus f ∈ dispatchValues f) := by
  have hw : (BitVec.ofNat 16 (4096 * f + n)).toNat = 4096 * f + n := by
    rw [BitVec.toNat_ofNat]
    omega
  have hfam : (familyOf (BitVec.ofNat 16 (4096 * f + n))).toNat = f := by
    rw [familyOf_toNat, hw]
    omega
  have hmod : (4096 * f + n) % dispatchModulus f = n % dispatchModulus f := by
    rw [Nat.add_mod, Nat.mod_eq_zero_of_dvd ((dispatchModulus_dvd hf).mul_right f), Nat.zero_add, Nat.mod_mod]
  have hsome := decodeWord_isSome_iff (BitVec.ofNat 16 (4096 * f + n))
  rw [hfam, hw, hmod] at hsome
  rw [← Option.not_isSome, Bool.eq_iff_iff.2 (hsome.trans decide_eq_true_iff.symm)]

open Safety in
/-- The unsupported words of a family: in each period of its dispatch, all but the family's values. -/
theorem unsupportedIn_eq {f : Nat} (hf : f < 16) : unsupportedIn f =
    4096 / dispatchModulus f * (dispatchModulus f - (dispatchValues f).length) := by
  have hperiods : 4096 = 4096 / dispatchModulus f * dispatchModulus f :=
    (Nat.div_mul_cancel (dispatchModulus_dvd hf)).symm
  rw [← length_filter_notMem_range (dispatchValues_nodup hf) (lt_dispatchModulus_of_mem hf),
    ← length_filter_mod_range, ← hperiods, unsupportedIn]
  exact congrArg List.length (List.filter_congr fun n hn => decodeWord_isNone_ofNat hf (List.mem_range.1 hn))

open Safety in
/-- The unsupported words of each family, in order. -/
theorem map_unsupportedIn : (List.range 16).map unsupportedIn =
    [4094, 0, 0, 0, 0, 3840, 0, 0, 1792, 3840, 0, 0, 0, 0, 4064, 3952] :=
  (List.map_congr_left fun _ hf => unsupportedIn_eq (List.mem_range.1 hf)).trans rfl

end Sys2Proof

namespace Sys2Proof.Machine

/-- A running block that fetches an unsupported word faults with it. -/
theorem step_of_unsupported {s : State} {w : Word} (hs : s.status = .running) (hf : s.fetch = .word w)
    (hd : decodeWord w = none) : step s = .next (s.withFault (.unsupportedInstruction s.pc w)) := by
  rw [step, hs]
  simp only [hf, runWord, hd, raise]

end Sys2Proof.Machine

/-! ## The obligations of 30_encoding.md -/

namespace Sys2Proof.Proofs

open Sys2Proof.Machine Sys2Proof.Safety

/-- Settles O1: `decodeWord_encode`, and a word's two bytes decode as the word. -/
theorem decodingAnEncodedInstructionGivesItBack : Obligations.DecodingAnEncodedInstructionGivesItBack :=
  fun i rest => ⟨decodeWord_encode i, decodeBytes_of_decodeWord (decodeWord_encode i) rest⟩

/-- Settles O2: by family, the decoded fields put the word together again (`encode_of_decodeWord`). -/
theorem encodingADecodedInstructionGivesItsWord : Obligations.EncodingADecodedInstructionGivesItsWord :=
  fun _ _ => encode_of_decodeWord

/-- Settles O4: one field lemma of the model for each field. -/
theorem everyWordHasItsFields : Obligations.EveryWordHasItsFields :=
  fun w => ⟨familyOf_toNat w, xOf_val w, yOf_val w, nOf_toNat w, nnOf_toNat w, nnnOf_toNat w⟩

/-- Settles O5: `decodeWord_isSome_iff`, read off for each of the sixteen families. -/
theorem definedWordsOfEachFamily : Obligations.DefinedWordsOfEachFamily := by
  refine ⟨fun w => ?_, rfl, rfl⟩
  have hf := (familyOf w).isLt
  have hlow := toNat_mod_of_family0 (w := w)
  rw [decodeWord_isSome_iff, nOf_toNat, nnOf_toNat, ← BitVec.toNat_inj, ← BitVec.toNat_inj]
  generalize (familyOf w).toNat = f at hf hlow ⊢
  interval_cases f
  · simp [dispatchModulus, dispatchValues, hlow]
  all_goals simp [dispatchModulus, dispatchValues, Nat.mod_one]

/-- Settles O6: the unsupported words are those no row covers (`decodeWord_eq_none_iff`), and they are counted by the
period of each family's dispatch (`map_unsupportedIn`). -/
theorem unsupportedWordsFaultAndAreCounted : Obligations.UnsupportedWordsFaultAndAreCounted := by
  have hcount (f : Nat) (hf : f < 16) := unsupportedIn_eq hf
  refine ⟨decodeWord_eq_none_iff, fun _ _ => step_of_unsupported, hcount 0x0 (by decide), hcount 0x5 (by decide),
    hcount 0x8 (by decide), hcount 0x9 (by decide), hcount 0xE (by decide), hcount 0xF (by decide), fun f hf => ?_,
    ?_, ?_⟩
  · have hwhole : ∀ f ∈ [0x1, 0x2, 0x3, 0x4, 0x6, 0x7, 0xA, 0xB, 0xC, 0xD],
        f < 16 ∧ (dispatchValues f).length = dispatchModulus f := by decide
    obtain ⟨hlt, hall⟩ := hwhole f hf
    rw [hcount f hlt, hall, Nat.sub_self, Nat.mul_zero]
  · rw [map_unsupportedIn]
    rfl
  · change (List.map ((4096 - ·) ∘ unsupportedIn) (List.range 16)).sum = 43954
    rw [← List.map_map, map_unsupportedIn]
    rfl

/-- Settles O7: twelve closed words, evaluated. -/
theorem wordsWrittenOutFromTheSpecDecode : Obligations.WordsWrittenOutFromTheSpecDecode := by
  unfold Obligations.WordsWrittenOutFromTheSpecDecode
  decide

/-- Settles O8: the meanings of both instructions do not mention Y. -/
theorem shiftsIgnoreY : Obligations.ShiftsIgnoreY := fun _ _ _ _ => ⟨rfl, rfl⟩

end Sys2Proof.Proofs

/-! ## 40_engine.md: the cycle, its faults, the next PC, and the host's operations -/

namespace Sys2Proof.Machine

open Sys2Proof.Safety

/-! ### Fetch (R91) -/

/-- A PC above 0xFFF fails its own check. -/
theorem lowestBad_pc {s : State} (hp : s.cfg.memOob = .fault) (h : s.pc.toNat > 0xFFF) : LowestBad s s.pc 2 s.pc :=
  ⟨hp, 0, by decide, (byteAddr_zero s.pc).symm, h, fun _ hj => absurd hj (Nat.not_lt_zero _)⟩

/-- At PC = 0xFFF the first byte passes its check and the second fails. -/
theorem lowestBad_pc_FFF {s : State} (hp : s.cfg.memOob = .fault) (h : s.pc = 0xFFF#16) :
    LowestBad s s.pc 2 0x1000#16 := by
  rw [h]
  exact ⟨hp, 1, by decide⟩

/-! ### The cycle (R90) -/

section cycle
variable {s : State} {i : Instr} {f : Fault}

/-- A running block runs the instruction at PC to the end of the cycle. -/
theorem step_of_atPc (hs : s.status = .running) (hi : AtPc s i) : step s = endCycle (exec i s) := by
  obtain ⟨w, hf, hd⟩ := hi
  rw [step, hs]
  simp only [hf, runWord, hd]

/-- A fault that the instruction at PC raises ends the cycle. -/
theorem step_of_exec_fault (hs : s.status = .running) (hi : AtPc s i) (he : exec i s = .next (s.withFault f)) :
    step s = .next (s.withFault f) := by
  rw [step_of_atPc hs hi, he, endCycle_faulted (s.withFault_status f)]

/-- A block in the status Faulted(f) answers f (R97). -/
theorem step_of_faulted (hs : s.status = .faulted f) : step s = .fault f := by rw [step, hs]

/-- An instruction keeps the fault status, or takes a fault of its own PC and changes nothing else. -/
theorem exec_status (i : Instr) (s : State) :
    ∃ t, exec i s = .next t ∧ (t.status = s.status ∨ ∃ f : Fault, f.pc = s.pc ∧ t = s.withFault f) := by
  obtain ⟨f, he, hf⟩ | ⟨u, sel, he, -, hs, -⟩ := exec_cases s i
  · exact ⟨_, he, .inr ⟨f, hf, rfl⟩⟩
  · exact ⟨_, he, .inl hs⟩

/-- A cycle of a running block takes a fault and changes nothing else, or runs the instruction at PC without a fault
and then the timer step. -/
theorem step_running_cases (hs : s.status = .running) :
    (∃ f, step s = .next (s.withFault f)) ∨
      ∃ i u, AtPc s i ∧ exec i s = .next u ∧ u.status = .running ∧ step s = .next u.timerStep := by
  obtain ⟨f, hf, -⟩ | ⟨-, a, -, he⟩ | ⟨-, w, -, -, he⟩ | ⟨-, w, i, hw, hi, he⟩ := step_cases s
  · cases hs.symm.trans hf
  · exact .inl ⟨_, he⟩
  · exact .inl ⟨_, he⟩
  · obtain ⟨u, hu, hk | ⟨f, -, rfl⟩⟩ := exec_status i s
    · have hr := hk.trans hs
      exact .inr ⟨i, u, ⟨w, hw, hi⟩, hu, hr, by rw [he, hu, endCycle_running hr]⟩
    · exact .inl ⟨f, step_of_exec_fault hs ⟨w, hw, hi⟩ hu⟩

/-! ### Faults and their conditions (R96, R97) -/

theorem exec_call_of_full {nnn : BitVec 12} (h : s.sp = 15#4) :
    exec (.call nnn) s = .next (s.withFault (.stackOverflow s.pc)) := if_pos h

theorem exec_ret_of_empty (h : s.sp = 0#4) : exec .ret s = .next (s.withFault (.stackUnderflow s.pc)) := if_pos h

/-- A key index above 0xF faults in both key skips. -/
theorem exec_keySkip_of_gt {x : Reg} (hi : i = .skp x ∨ i = .sknp x) (h : (s.reg x).toNat > 0xF) :
    exec i s = .next (s.withFault (.keyIndexOutOfRange s.pc (s.reg x))) := by
  have hk := (keyIndex_none_iff (s.reg x)).2 h
  obtain rfl | rfl := hi
  · simp only [exec, execSkp, hk, raise]
  · simp only [exec, execSknp, hk, raise]

/-- A running block whose state meets the condition of f raises f. -/
theorem step_of_justified (hs : s.status = .running) (hj : Justified s f) : step s = .next (s.withFault f) := by
  cases f with
  | unsupportedInstruction pc w =>
    obtain ⟨rfl, hf, hd⟩ := hj
    exact step_of_unsupported hs hf hd
  | stackOverflow pc =>
    obtain ⟨rfl, hsp, nnn, hi⟩ := hj
    exact step_of_exec_fault hs hi (exec_call_of_full hsp)
  | stackUnderflow pc =>
    obtain ⟨rfl, hsp, hi⟩ := hj
    exact step_of_exec_fault hs hi (exec_ret_of_empty hsp)
  | memoryOutOfRange pc a =>
    obtain ⟨rfl, hb | ⟨i, n, hi, hn, hb⟩⟩ := hj
    · exact step_of_fetch_outOfRange hs (State.fetch_of_lowestBad hb)
    · exact step_of_exec_fault hs hi (exec_of_lowestBad s hn hb)
  | keyIndexOutOfRange pc b =>
    obtain ⟨rfl, hb, x, hi, rfl⟩ := hj
    obtain hi | hi := hi
    · exact step_of_exec_fault hs hi (exec_keySkip_of_gt (.inl rfl) hb)
    · exact step_of_exec_fault hs hi (exec_keySkip_of_gt (.inr rfl) hb)

/-- No condition of a fault reads the status, the keys or the draw counter. -/
theorem justified_frame (s : State) (f : Fault) (st : FaultStatus) (ks : Vector Bool 16) (n : Nat) :
    Justified { s with status := st, keys := ks, draws := n } f ↔ Justified s f := by
  cases f <;> exact Iff.rfl

end cycle

/-! ### The host's operations (R99) -/

theorem State.load_eq_ok_iff (s t : State) (img : List Byte) :
    s.load img = .ok t ↔ img.length ≤ maxImage ∧ t = s.loaded img := by
  rw [State.load]
  split <;> simp [eq_comm] <;> omega

/-- A load that fits keeps memory canonical. -/
theorem State.loaded_wf {s : State} {img : List Byte} (h : s.mem.wf s.cfg.font = true)
    (hl : img.length ≤ maxImage) : (s.loaded img).mem.wf (s.loaded img).cfg.font = true := by
  rw [maxImage] at hl
  rw [s.loaded_mem, s.loaded_cfg]
  refine Memory.wf_setBytes _ _ (Memory.wf_setBytes _ _ h ?_) ?_
  · rw [Vector.length_toList]
    decide
  · rw [memSize]
    omega

theorem stateInv_loaded {s : State} {img : List Byte} (h : s.mem.wf s.cfg.font = true)
    (hl : img.length ≤ maxImage) : StateInv (s.loaded img) :=
  stateInv_of_idle (State.loaded_wf h hl) rfl rfl

/-- A key write keeps the invariant, which does not read the keys. -/
theorem stateInv_writeKeys {s : State} (h : StateInv s) (ks : Vector Bool 16) : StateInv (s.writeKeys ks) := by
  obtain ⟨hm, hj, ho⟩ := h
  exact ⟨hm, fun f hf => (justified_frame s f s.status ks s.draws).2 (hj f hf), ho⟩

/-! ### The next PC (R94) -/

theorem addrOfNNN_eq_ofNat (nnn : BitVec 12) : addrOfNNN nnn = BitVec.ofNat 16 nnn.toNat :=
  BitVec.eq_of_toNat_eq (by have := nnn.isLt; rw [addrOfNNN_toNat, BitVec.toNat_ofNat]; omega)

theorem addrOfNNN_add_addrOfByte (nnn : BitVec 12) (b : Byte) :
    addrOfNNN nnn + addrOfByte b = BitVec.ofNat 16 (nnn.toNat + b.toNat) :=
  BitVec.eq_of_toNat_eq (by rw [BitVec.toNat_add, addrOfNNN_toNat, addrOfByte_toNat, BitVec.toNat_ofNat])

theorem byteOfReg_inj {j k : Reg} (h : byteOfReg j = byteOfReg k) : j = k := by
  have hj := (keyIndex_some_iff _ j).2 rfl
  rw [h, (keyIndex_some_iff _ k).2 rfl] at hj
  exact (Option.some.inj hj).symm

/-- When a register names key k, a condition on the key it names is the condition on k. -/
theorem exists_named_key_iff {s : State} {x k : Reg} (h : s.reg x = byteOfReg k) (b : Bool) :
    (∃ j : Reg, s.reg x = BitVec.ofNat 8 j.val ∧ s.key j = b) ↔ s.key k = b := by
  refine ⟨fun ⟨j, hj, hb⟩ => ?_, fun hb => ⟨k, h, hb⟩⟩
  rwa [byteOfReg_inj (h.symm.trans hj)]

/-- An instruction that completes with selector `sel`, after writes that keep PC, goes where `sel` says. -/
theorem pc_of_complete {s u t : State} {sel : Selector} (h : complete sel u = .next t) (hu : u.pc = s.pc) :
    t.pc = nextPc s.pc sel := by
  cases h
  rw [State.setPc_pc, hu]

/-- A data access that raised nothing went through, and PC moves on to PC + 2. -/
theorem pc_of_dataBytes {i : Instr} {n : Nat} {s t : State} (hi : dataBytes i = some n) (h : exec i s = .next t)
    (ht : t.status = .running) : t.pc = s.pc + 2#16 := by
  obtain hok | ⟨a, hb⟩ := accessOk_or_lowestBad s s.i n
  · obtain ⟨u, hu, -, hpc⟩ := exec_of_accessOk hi hok
    cases h.symm.trans hu
    exact hpc
  · cases h.symm.trans (exec_of_lowestBad s hi hb)
    cases ht

/-- Where an instruction that raised nothing leaves PC, by the selector it returns. -/
theorem pc_of_exec {i : Instr} {s t : State} (h : exec i s = .next t) (ht : t.status = .running) :
    t.pc = pcAfter s i := by
  cases i with
  | drw | ldBVx | ldMiVx | ldVxMi => exact pc_of_dataBytes rfl h ht
  | jp nnn => exact (pc_of_complete h rfl).trans (addrOfNNN_eq_ofNat nnn)
  | jpV0Nnn nnn => exact (pc_of_complete h rfl).trans (addrOfNNN_add_addrOfByte nnn _)
  | call nnn =>
    simp only [exec, execCall] at h
    split at h
    · cases h
      cases ht
    · exact (pc_of_complete h rfl).trans (addrOfNNN_eq_ofNat nnn)
  | ret =>
    simp only [exec, execRet] at h
    split at h
    · cases h
      cases ht
    · exact pc_of_complete h rfl
  | seVxNn | sneVxNn | seVxVy | sneVxVy =>
    rw [pc_of_complete h rfl, nextPc_skip]
    simp only [decide_eq_true_eq, pcAfter]
  | skp x =>
    simp only [exec, execSkp] at h
    split at h
    next =>
      cases h
      cases ht
    next k hk =>
      simp only [pc_of_complete h rfl, nextPc_skip, pcAfter,
        exists_named_key_iff ((keyIndex_some_iff _ k).1 hk)]
  | sknp x =>
    simp only [exec, execSknp] at h
    split at h
    next =>
      cases h
      cases ht
    next k hk =>
      simp only [pc_of_complete h rfl, nextPc_skip, pcAfter, Bool.not_eq_true',
        exists_named_key_iff ((keyIndex_some_iff _ k).1 hk)]
  | ldVxK x =>
    simp only [exec, execLdVxK] at h
    obtain ⟨k, hk, hp, -⟩ | ⟨hk, hn⟩ := s.firstPressed_cases
    · rw [hk] at h
      exact (pc_of_complete h rfl).trans (if_pos ⟨k, hp⟩).symm
    · rw [hk] at h
      exact (pc_of_complete h rfl).trans (if_neg (by simp [hn])).symm
  | addVxVy => exact pc_of_complete h (by rw [writeLatched_eq])
  | sub | shr | subn | shl => exact pc_of_complete h (by rw [writeReread_eq])
  | addIVx x => exact pc_of_complete h (by obtain ⟨-, h⟩ | ⟨-, h⟩ := addToI_cases x s <;> rw [h] <;> rfl)
  | _ => exact pc_of_complete h rfl

/-! ### A placed word (R91; assumption 11) -/

/-- A state made ready to fetch can fetch: PC was fine, or is 0x200 now. -/
theorem readyToFetch_accessOk (s : State) : AccessOk s.readyToFetch s.readyToFetch.pc 2 := by
  by_cases hc : s.canFetch = true
  · have hok : AccessOk s s.pc 2 := (s.firstBad_none_iff s.pc 2).1 (Option.isNone_iff_eq_none.1 hc)
    have hpc : s.readyToFetch.pc = s.pc := if_pos hc
    rw [hpc]
    exact hok
  · have hpc : s.readyToFetch.pc = programBase := if_neg hc
    rw [hpc]
    exact .inr (by decide)

theorem State.fetch_placeWord {s : State} (w : Word) (h : AccessOk s s.pc 2) :
    (s.placeWord s.pc w).fetch = .word w := by
  have hf := State.fetch_writeBytes (bs := [highByte w, lowByte w]) (j := 0) h (by simp [memSize]) (by simp)
  rw [byteAddr_zero] at hf
  exact hf.trans (congrArg Fetched.word (wordOfBytes_bytes w))

theorem tableWord_16 (n : Nat) : tableWord 16 n = BitVec.ofNat 16 n :=
  BitVec.eq_of_toNat_eq (by simp [tableWord])

/-- The host's question about a table word is the decoder's answer on that word. -/
theorem decodeTableWord_eq (nbits n : Nat) : decodeTableWord nbits n = decodeWord (tableWord nbits n) := by
  simp only [decodeTableWord, decodeBytes, wordOfBytes_bytes]
  cases decodeWord (tableWord nbits n) <;> rfl

end Sys2Proof.Machine

/-! ## The obligations of 40_engine.md -/

namespace Sys2Proof.Proofs

open Sys2Proof.Machine Sys2Proof.Safety

/-- Settles O3: a covered word decodes to an instruction of the covering row, so two covering rows are one row. -/
theorem dispatchSelectsTheMatchingRow : Obligations.DispatchSelectsTheMatchingRow := by
  refine ⟨fun _ _ => row_of_decodeWord, fun _ _ => decodeWord_of_covered, fun w r r' hr hr' h h' => ?_,
    fun s w hs hf hno => step_of_unsupported hs hf ((decodeWord_eq_none_iff w).2 hno)⟩
  obtain ⟨i, hi, rfl⟩ := decodeWord_of_covered hr h
  obtain ⟨j, hj, rfl⟩ := decodeWord_of_covered hr' h'
  rw [Option.some.inj (hi.symm.trans hj)]

/-- Settles O10: the checks name PC itself, or 0x1000 when only the second byte fails. -/
theorem fetchReadsTheTwoBytesAtPc : Obligations.FetchReadsTheTwoBytesAtPc := by
  refine fun s => ⟨State.fetch_of_accessOk, fun hp h => ?_, fun hp h => ?_⟩
  · have hf := State.fetch_of_lowestBad (lowestBad_pc hp h)
    exact ⟨hf, fun hs => step_of_fetch_outOfRange hs hf⟩
  · have hf := State.fetch_of_lowestBad (lowestBad_pc_FFF hp h)
    exact ⟨hf, fun hs => step_of_fetch_outOfRange hs hf⟩

/-- Settles O11: the invariant gives the condition of f, which no key and no draw changes (`justified_frame`), and a
running block that meets it raises f (`step_of_justified`). -/
theorem aFaultedBlockReturnsItsFaultAndARetryRaisesItAgain :
    Obligations.AFaultedBlockReturnsItsFaultAndARetryRaisesItAgain := by
  refine fun s f hs => ⟨step_of_faulted hs, fun ks => ⟨hs, step_of_faulted hs⟩, fun img t ht => ?_,
    fun ⟨_, hj, _⟩ ks n => ?_⟩
  · obtain ⟨-, rfl⟩ := (s.load_eq_ok_iff t img).1 ht
    rfl
  · exact step_of_justified rfl ((justified_frame s f .running ks n).2 (hj f hs))

/-- Settles O12: a cycle of a running block that took no fault is still running (`step_running_cases`). -/
theorem aFaultingCycleWritesOnlyTheFaultStatus : Obligations.AFaultingCycleWritesOnlyTheFaultStatus := by
  intro s t f hs h hf
  obtain ⟨g, hg⟩ | ⟨i, u, -, -, hu, he⟩ := step_running_cases hs
  · cases h.symm.trans hg
    cases hf
    rfl
  · cases h.symm.trans he
    cases hu.symm.trans hf

/-- Settles O16: a load leaves canonical memory in a running, idle block; the invariant does not read the keys. -/
theorem hostOperationsKeepTheInvariant : Obligations.HostOperationsKeepTheInvariant := by
  refine fun s hinv => ⟨fun img t ht => ?_, stateInv_writeKeys hinv, fun ks => stateInv_writeKeys hinv _⟩
  obtain ⟨hm, -⟩ := hinv
  obtain ⟨hl, rfl⟩ := (s.load_eq_ok_iff t img).1 ht
  exact stateInv_loaded hm hl

/-- Settles O18: `pc_of_exec`, by the selector of each instruction. -/
theorem everyInstructionTakesItsSelector : Obligations.EveryInstructionTakesItsSelector :=
  fun _ _ _ _ => pc_of_exec

/-- Settles O23: `exec_status`. -/
theorem everyInstructionAnswersANextState : Obligations.EveryInstructionAnswersANextState := exec_status

/-- Settles O9: the cycle is `endCycle` of the instruction's answer, by the fault status of that answer. -/
theorem stepRunsTheDecodedInstruction : Obligations.StepRunsTheDecodedInstruction := by
  intro s w i hs hf hd
  obtain ⟨t, ht, -⟩ := exec_status i s
  have hstep := step_of_atPc hs ⟨w, hf, hd⟩
  rw [ht] at hstep
  refine ⟨t, ht, fun hr => ?_, fun f hfa => hstep.trans (endCycle_faulted hfa)⟩
  rw [hstep, endCycle_running hr, ← countDown_eq_counted, ← countDown_eq_counted]
  rfl

/-- Settles O26: the word is placed where the fetch reads, and its decoding selects the instruction. -/
theorem aPlacedWordIsRunNext : Obligations.APlacedWordIsRunNext := by
  intro s n _
  have hrun : (s.withFetchWord 16 n).status = .running := rfl
  have hf : (s.withFetchWord 16 n).fetch = .word (BitVec.ofNat 16 n) := by
    rw [← tableWord_16]
    exact State.fetch_placeWord _ (readyToFetch_accessOk s)
  refine ⟨hrun, hf, fun i hi => step_of_atPc hrun ⟨_, hf, ?_⟩⟩
  rwa [decodeTableWord_eq, tableWord_16] at hi

end Sys2Proof.Proofs

/-! ## 41_display.md: CLS, the sprite that DRW draws, and the host's flat view -/

namespace Sys2Proof.Machine

open Sys2Proof.Safety

/-! ### The bits of DRW and the pixels its sprite covers (R113 to R115) -/

/-- A 1 bit falls on its own wrapped place. -/
theorem PlacedBit.hits_own {t : PlacedBit} (h : t.1 = true) : t.Hits (t.2.1 % 64) (t.2.2 % 32) :=
  ⟨h, Nat.mod_mod _ _, Nat.mod_mod _ _⟩

/-- The pixel a bit falls on is the one at the bit's place (R111). -/
theorem PlacedBit.Hits.pixel_eq {t : PlacedBit} {px py : Nat} (h : t.Hits px py) (d : Display) :
    d.pixel t.2.1 t.2.2 = d.pixel px py := by
  obtain ⟨-, hx, hy⟩ := h
  rw [← d.pixel_mod px py, hx, hy, d.pixel_mod]

section drwBits

variable (s : State) (x y : Reg) (n : BitVec 4)

/-- The placed bits that DRW draws. -/
def drwBits : List PlacedBit :=
  spriteBits ((s.reg x).toNat % 64) ((s.reg y).toNat % 32) (s.readBytes s.i n.toNat)

/-- No two bits of one DRW fall on one pixel: its sprite has at most 15 rows (R117). -/
theorem drwBits_apart : (drwBits s x y n).Pairwise PlacedBit.Apart :=
  spriteBits_apart _ _ _ (by rw [State.readBytes_length]; omega)

/-- The display after DRW is the one its placed bits draw. -/
theorem drawSprite_pixel (px py : Nat) :
    (drawSprite x y n s).pixel px py = (drawBits (drwBits s x y n) (s.display, false)).1.pixel px py := by
  rw [drwBits, ← drawRows_eq_drawBits]
  rfl

/-- VF after DRW is the collision flag of its placed bits. -/
theorem drawSprite_vf :
    (drawSprite x y n s).reg vf = boolByte (drawBits (drwBits s x y n) (s.display, false)).2 := by
  rw [drawSprite_reg, if_pos rfl, drawRows_eq_drawBits, drwBits]

variable {s x y n}

/-- The placed bits of DRW that are 1 fall exactly on the pixels its sprite covers. -/
theorem exists_hits_iff_spriteCovers {px py : Nat} (hx : px < 64) (hy : py < 32) :
    (∃ t ∈ drwBits s x y n, t.Hits px py) ↔ SpriteCovers s x y n px py := by
  constructor
  · rintro ⟨t, ht, hbit, hpx, hpy⟩
    obtain ⟨r, c, hr, hc, rfl⟩ := (mem_spriteBits _ _ _ t).1 ht
    rw [State.readBytes_length] at hr
    rw [State.readBytes_getElem] at hbit
    dsimp only at hpx hpy
    exact ⟨r, c, hr, hc, by omega, by omega, hbit⟩
  · rintro ⟨r, c, hr, hc, hpx, hpy, hbit⟩
    have hr' : r < (s.readBytes s.i n.toNat).length := by rwa [State.readBytes_length]
    refine ⟨_, (mem_spriteBits _ _ _ _).2 ⟨r, c, hr', hc, rfl⟩, ?_, ?_, ?_⟩
    · rwa [State.readBytes_getElem]
    all_goals dsimp only; omega

/-- DRW collides exactly when its sprite covers a lit pixel (R115). -/
theorem drwBits_collide_iff : (drawBits (drwBits s x y n) (s.display, false)).2 = true ↔
    ∃ px py, px < 64 ∧ py < 32 ∧ SpriteCovers s x y n px py ∧ s.pixel px py = true := by
  rw [drawBits_collide _ _ (drwBits_apart s x y n)]
  constructor
  · rintro (h | ⟨t, ht, hbit, hlit⟩)
    · cases h
    · have hx : t.2.1 % 64 < 64 := Nat.mod_lt _ (by decide)
      have hy : t.2.2 % 32 < 32 := Nat.mod_lt _ (by decide)
      have hhit := PlacedBit.hits_own hbit
      exact ⟨_, _, hx, hy, (exists_hits_iff_spriteCovers hx hy).1 ⟨t, ht, hhit⟩,
        (hhit.pixel_eq s.display).symm.trans hlit⟩
  · rintro ⟨px, py, hx, hy, hcov, hlit⟩
    obtain ⟨t, ht, hhit⟩ := (exists_hits_iff_spriteCovers hx hy).2 hcov
    exact .inr ⟨t, ht, hhit.1, (hhit.pixel_eq s.display).trans hlit⟩

/-- DRW flips exactly the pixels its sprite covers (R113). -/
theorem drawSprite_pixel_cases {px py : Nat} (hx : px < 64) (hy : py < 32) :
    (SpriteCovers s x y n px py → (drawSprite x y n s).pixel px py = !s.pixel px py) ∧
      (¬ SpriteCovers s x y n px py → (drawSprite x y n s).pixel px py = s.pixel px py) := by
  rw [drawSprite_pixel, ← exists_hits_iff_spriteCovers hx hy]
  exact drawBits_pixel px py _ _ (drwBits_apart s x y n)

end drwBits

/-! ### The flat view (R110) -/

/-- The flat view is the display's rows one after the other. -/
theorem State.displayList_eq_flatten (s : State) : s.displayList = s.display.flatten.toList := by
  simp [State.displayList, Vector.flatten, Vector.toList, List.flatMap_def, Function.comp_def]

end Sys2Proof.Machine

/-! ## The obligations of 41_display.md -/

namespace Sys2Proof.Proofs

open Sys2Proof.Machine Sys2Proof.Safety

/-- Settles O28: the sprite is a list of placed bits no two of which fall on one pixel, so the pixels they hit are
flipped (`drawSprite_pixel_cases`) and the flag is an erasure among them (`drwBits_collide_iff`); with N = 0 there is
no bit and no address to check. -/
theorem drwFlipsTheCoveredPixelsAndReportsErasure : Obligations.DrwFlipsTheCoveredPixelsAndReportsErasure := by
  refine ⟨fun w => covered_iff_decodeWord w (.drw 0 0 0), fun s x y n hok => ?_,
    fun s _ _ _ _ => exec_of_lowestBad s rfl, fun s x y => ?_⟩
  · refine ⟨_, exec_drw_of_ok s x y n hok, fun px py => drawSprite_pixel_cases, fun hlit => ?_, fun hlit => ?_, rfl,
      fun r hr => ?_, rfl, ⟨rfl, fun _ => rfl⟩, ⟨rfl, rfl⟩, fun _ => rfl, fun _ => rfl, rfl, rfl, rfl, rfl⟩
    · rw [State.reg_setPc, drawSprite_vf, drwBits_collide_iff.2 hlit]
      rfl
    · rw [State.reg_setPc, drawSprite_vf, Bool.eq_false_iff.2 (mt drwBits_collide_iff.1 hlit)]
      rfl
    · rw [State.reg_setPc, drawSprite_reg, if_neg (by simpa using hr)]
  · have hok : AccessOk s s.i (0#4).toNat := .inr fun k hk => absurd hk (Nat.not_lt_zero k)
    refine ⟨_, exec_drw_of_ok s x y 0#4 hok, fun px py => drawSprite_pixel s x y 0#4 px py, ?_, rfl⟩
    exact drawSprite_vf s x y 0#4

/-- Settles O29: index 64 y + x of the rows one after the other is place x of row y. -/
theorem theHostReadsEveryPixel : Obligations.TheHostReadsEveryPixel := by
  refine fun s => ⟨by rw [s.displayList_eq_flatten, Vector.length_toList], fun x y hx hy => ?_⟩
  have hrow : (y * 64 + x) / 64 = y % 32 := by omega
  have hcol : (y * 64 + x) % 64 = x % 64 := by omega
  rw [s.displayList_eq_flatten, Vector.getElem?_toList, Vector.getElem?_eq_getElem (by omega), Vector.getElem_flatten]
  simp only [hrow, hcol, State.pixel, Display.pixel]

/-- Settles O27: the new display is the blank one, and only it and PC are written. -/
theorem clsClearsEveryPixel : Obligations.ClsClearsEveryPixel :=
  ⟨fun w => covered_iff_decodeWord w .cls, fun _ => ⟨_, rfl, Display.pixel_blank, rfl, fun _ _ => rfl, rfl,
    ⟨rfl, fun _ => rfl⟩, ⟨rfl, rfl⟩, fun _ => rfl, fun _ => rfl, rfl, rfl, rfl, rfl⟩⟩

end Sys2Proof.Proofs

/-! ## 42_control_flow.md: calls and returns, jumps, register skips -/

namespace Sys2Proof.Machine

open Sys2Proof.Safety

/-! ### Calls and returns (R130, R132) -/

/-- With a return address on the stack, RET moves PC to it and takes one off SP; the entry itself stays (R130). -/
theorem exec_ret_of_nonempty {s : State} (h : s.sp ≠ 0#4) :
    exec .ret s = .next ((s.setSp (s.sp - 1#4)).setPc (s.stackAt s.sp)) := if_neg h

/-- With room on the stack, CALL puts PC + 2 on the entry that SP comes to name (R132). -/
theorem exec_call_of_room {s : State} (nnn : BitVec 12) (h : s.sp ≠ 15#4) :
    exec (.call nnn) s = .next (((s.setSp (s.sp + 1#4)).setStack (s.sp + 1#4) (s.pc + 2#16)).setPc (addrOfNNN nnn)) :=
  if_neg h

@[simp] theorem State.stackAt_setStack_self (s : State) (k : BitVec 4) (a : Addr) :
    (s.setStack k a).stackAt k = a := by
  rw [State.stackAt_setStack, if_pos rfl]

theorem State.stackAt_setStack_of_ne (s : State) {k k' : BitVec 4} (a : Addr) (h : k' ≠ k) :
    (s.setStack k a).stackAt k' = s.stackAt k' := by
  rw [State.stackAt_setStack, if_neg h]

/-- A push that did not overflow leaves a stack that is not empty. -/
theorem sp_add_one_ne_zero {sp : BitVec 4} (h : sp ≠ 15#4) : sp + 1#4 ≠ 0#4 := by
  bv_omega

/-! ### Jumps and skips (R131, R133 to R137) -/

/-- A write of PC keeps everything else. -/
theorem registerFrame_setPc (s : State) (a : Addr) : RegisterFrame [] s (s.setPc a) :=
  ⟨fun _ _ => rfl, rfl, ⟨rfl, fun _ => rfl⟩, ⟨rfl, rfl⟩, fun _ => rfl, fun _ _ => rfl, fun _ => rfl, rfl, rfl, rfl, rfl⟩

/-- NNN + V0 is at most 0x10FE, so the sum of the two addresses does not wrap (R137). -/
theorem addrOfNNN_add_addrOfByte_toNat (nnn : BitVec 12) (b : Byte) :
    (addrOfNNN nnn + addrOfByte b).toNat = nnn.toNat + b.toNat := by
  have hnnn := nnn.isLt
  have hb := b.isLt
  rw [addrOfNNN_add_addrOfByte, BitVec.toNat_ofNat]
  omega

/-- An instruction that only skips on `p` completes with PC + 4 when `p` holds and PC + 2 when it does not; `q` is the
spelling the failed condition has in the rule. -/
theorem complete_skip (s : State) {p q : Prop} [Decidable p] (hq : q → ¬ p) :
    ∃ t, complete (.skip (decide p)) s = .next t ∧ (p → t.pc = s.pc + 4#16) ∧ (q → t.pc = s.pc + 2#16) ∧
      RegisterFrame [] s t := by
  refine ⟨_, rfl, fun h => ?_, fun h => ?_, registerFrame_setPc s _⟩
  · rw [State.setPc_pc, nextPc_skip, decide_eq_true h, if_pos rfl]
  · rw [State.setPc_pc, nextPc_skip, decide_eq_false (hq h), if_neg Bool.false_ne_true]

end Sys2Proof.Machine

/-! ## The obligations of 42_control_flow.md -/

namespace Sys2Proof.Proofs

open Sys2Proof.Machine Sys2Proof.Safety

/-- Settles O33: RET pops the entry that CALL pushed, and moving PC in between does not touch the stack. -/
theorem aReturnComesBackAfterItsCall : Obligations.AReturnComesBackAfterItsCall := by
  refine fun s nnn _ h => ⟨_, _, exec_call_of_room nnn h, exec_ret_of_nonempty (sp_add_one_ne_zero h), ?_, ?_⟩
  · exact State.stackAt_setStack_self _ _ _
  · exact BitVec.add_sub_cancel s.sp 1#4

/-- Settles O30: an empty stack faults (`exec_ret_of_empty`), any other gives its top (`exec_ret_of_nonempty`). -/
theorem retPopsTheReturnAddress : Obligations.RetPopsTheReturnAddress := by
  refine ⟨fun w => covered_iff_decodeWord w .ret, fun _ => ⟨exec_ret_of_empty, fun h => ?_⟩⟩
  exact ⟨_, exec_ret_of_nonempty h, rfl, rfl, fun _ => rfl, fun _ _ => rfl, rfl, ⟨rfl, rfl⟩, fun _ => rfl,
    fun _ _ => rfl, fun _ => rfl, rfl, rfl, rfl, rfl⟩

/-- Settles O31: a full stack faults (`exec_call_of_full`), any other takes PC + 2 on its new top
(`exec_call_of_room`). -/
theorem callPushesTheReturnAddress : Obligations.CallPushesTheReturnAddress := by
  refine ⟨fun w => covered_iff_decodeWord w (.call 0), fun _ nnn => ⟨exec_call_of_full, fun h => ?_⟩⟩
  exact ⟨_, exec_call_of_room nnn h, addrOfNNN_eq_ofNat nnn, rfl, State.stackAt_setStack_self _ _ _,
    fun _ hk => State.stackAt_setStack_of_ne _ _ hk, fun _ _ => rfl, rfl, ⟨rfl, rfl⟩, fun _ => rfl,
    fun _ _ => rfl, fun _ => rfl, rfl, rfl, rfl, rfl⟩

/-- Settles O32: both targets as numbers, that of JP V0 without a wrap (`addrOfNNN_add_addrOfByte_toNat`). -/
theorem jumpsSetThePc : Obligations.JumpsSetThePc :=
  ⟨fun w => covered_iff_decodeWord w (.jp 0), fun w => covered_iff_decodeWord w (.jpV0Nnn 0), fun s nnn =>
    ⟨⟨_, rfl, addrOfNNN_toNat nnn, registerFrame_setPc s _⟩,
      ⟨_, rfl, addrOfNNN_add_addrOfByte_toNat nnn (s.reg 0), registerFrame_setPc s _⟩⟩⟩

/-- Settles O34: one skip lemma (`complete_skip`) for the four conditions; families 5 and 9 decode only N = 0. -/
theorem skipsAddFourOrTwo : Obligations.SkipsAddFourOrTwo := by
  refine ⟨fun w => covered_iff_decodeWord w (.seVxNn 0 0), fun w => covered_iff_decodeWord w (.sneVxNn 0 0),
    fun w => covered_iff_decodeWord w (.seVxVy 0 0), fun w => covered_iff_decodeWord w (.sneVxVy 0 0),
    fun w hf hn => ?_, fun s x y nn => ⟨complete_skip s id, complete_skip s not_not_intro, complete_skip s id,
      complete_skip s not_not_intro⟩⟩
  obtain h5 | h9 := hf
  · rw [decodeWord_family5 h5, if_neg hn]
  · rw [decodeWord_family9 h9, if_neg hn]

end Sys2Proof.Proofs

/-! ## 43_alu.md: register writes, and the flag-writing instructions under each flag order -/

namespace Sys2Proof.Machine

open Sys2Proof.Safety

/-! ### The frame of an instruction that writes general registers -/

/-- A state that differs in V alone, with PC moved, keeps everything else. -/
theorem registerFrame_of_regs {W : List Reg} {s u : State} (hu : u = { s with v := u.v }) (hr : SameRegsBut W s u)
    (a : Addr) : RegisterFrame W s (u.setPc a) := by
  rw [hu] at hr ⊢
  exact ⟨hr, rfl, ⟨rfl, fun _ => rfl⟩, ⟨rfl, rfl⟩, fun _ => rfl, fun _ _ => rfl, fun _ => rfl, rfl, rfl, rfl, rfl⟩

theorem sameRegsBut_setReg (s : State) (x : Reg) (b : Byte) : SameRegsBut [x] s (s.setReg x b) :=
  fun _ hk => s.reg_setReg_of_ne b (List.ne_of_not_mem_cons hk)

/-- An instruction that writes V alone and takes SEQ. -/
theorem complete_seq_of_regs {W : List Reg} {s u : State} (hu : u = { s with v := u.v }) (hr : SameRegsBut W s u) :
    ∃ t, complete .seq u = .next t ∧ (∀ k, t.reg k = u.reg k) ∧ t.pc = s.pc + 2#16 ∧ RegisterFrame W s t :=
  ⟨_, rfl, fun _ => rfl, by rw [hu]; rfl, registerFrame_of_regs hu hr _⟩

/-- An instruction that writes `b` to V[X] and no other register: LD, ADD with an immediate, and the logic. -/
theorem complete_setReg (s : State) (x : Reg) (b : Byte) :
    ∃ t, complete .seq (s.setReg x b) = .next t ∧ t.reg x = b ∧ t.pc = s.pc + 2#16 ∧ RegisterFrame [x] s t := by
  obtain ⟨t, ht, hreg, hpc, hframe⟩ := complete_seq_of_regs (u := s.setReg x b) rfl (sameRegsBut_setReg s x b)
  exact ⟨t, ht, (hreg x).trans (s.reg_setReg_self x b), hpc, hframe⟩

/-! ### The two writes of a flag-writing instruction (R151) -/

/-- The flag write and the result write in the order `o`; `q` is the result that SEQUENTIAL computes after its flag
write. -/
def writeInOrder (o : AluFlagOrder) (x : Reg) (f r q : Byte) (s : State) : State :=
  match o with
  | .latchedResultLast => writeFlagThenResult x f r s
  | .latchedFlagLast => writeResultThenFlag x f r s
  | .sequential => writeFlagThenResult x f q s

theorem writeInOrder_eq (o : AluFlagOrder) (x : Reg) (f r q : Byte) (s : State) :
    writeInOrder o x f r q s = { s with v := (writeInOrder o x f r q s).v } := by
  cases o <;> rfl

section writes
variable {x : Reg} {f r q : Byte} {s : State}

theorem writeInOrder_resultLast_reg : (writeInOrder .latchedResultLast x f r q s).reg x = r := by
  rw [writeInOrder, writeFlagThenResult_reg, if_pos rfl]

theorem writeInOrder_flagLast_vf : (writeInOrder .latchedFlagLast x f r q s).reg vf = f := by
  rw [writeInOrder, writeResultThenFlag_reg, if_pos rfl]

theorem writeInOrder_sequential_reg : (writeInOrder .sequential x f r q s).reg x = q := by
  rw [writeInOrder, writeFlagThenResult_reg, if_pos rfl]

theorem writeInOrder_flagLast_reg (hx : x ≠ vf) : (writeInOrder .latchedFlagLast x f r q s).reg x = r := by
  rw [writeInOrder, writeResultThenFlag_reg, if_neg hx, if_pos rfl]

/-- When X is not VF, the flag stays in VF under every order. -/
theorem writeInOrder_vf (o : AluFlagOrder) (hx : x ≠ vf) : (writeInOrder o x f r q s).reg vf = f := by
  cases o with
  | latchedResultLast | sequential => rw [writeInOrder, writeFlagThenResult_reg, if_neg hx.symm, if_pos rfl]
  | latchedFlagLast => exact writeInOrder_flagLast_vf

theorem sameRegsBut_writeInOrder (o : AluFlagOrder) : SameRegsBut [x, vf] s (writeInOrder o x f r q s) := by
  intro k hk
  obtain ⟨hx, hvf⟩ : k ≠ x ∧ k ≠ vf := by simpa using hk
  cases o with
  | latchedResultLast | sequential => rw [writeInOrder, writeFlagThenResult_reg, if_neg hx, if_neg hvf]
  | latchedFlagLast => rw [writeInOrder, writeResultThenFlag_reg, if_neg hvf, if_neg hx]

/-- Writes to two registers commute, so one result written to X other than VF gives one state under all orders. -/
theorem writeInOrder_of_ne (o : AluFlagOrder) (hx : x ≠ vf) :
    writeInOrder o x f r r s = writeFlagThenResult x f r s := by
  cases o with
  | latchedResultLast | sequential => rfl
  | latchedFlagLast =>
    have hv : (s.v.set x.val r).set vf.val f = (s.v.set vf.val f).set x.val r :=
      Vector.set_comm _ _ (Fin.val_ne_of_ne hx)
    exact congrArg (fun v => { s with v := v }) hv

end writes

/-- The result that SEQUENTIAL writes, on the numbers a = V[X] and b = V[Y]: 8XY4 computes it before the flag write,
the other four from the registers as the flag write left them. -/
def sequentialResult (i : Instr) (x y : Reg) (f r : Nat → Nat → Nat) (a b : Nat) : Nat :=
  if i = .addVxVy x y then r a b else r (if x = vf then f a b else a) (if y = vf then f a b else b)

theorem sequentialResult_add (x y : Reg) (f r : Nat → Nat → Nat) (a b : Nat) :
    sequentialResult (.addVxVy x y) x y f r a b = r a b := if_pos rfl

theorem sequentialResult_of_ne {i : Instr} {x y : Reg} (hi : i ≠ .addVxVy x y) (f r : Nat → Nat → Nat) (a b : Nat) :
    sequentialResult i x y f r a b = r (if x = vf then f a b else a) (if y = vf then f a b else b) := if_neg hi

/-- When neither operand is VF, the flag write does not reach the operands. -/
theorem sequentialResult_of_ne_vf (i : Instr) {x y : Reg} (hx : x ≠ vf) (hy : y ≠ vf) (f r : Nat → Nat → Nat)
    (a b : Nat) : sequentialResult i x y f r a b = r a b := by
  rw [sequentialResult, if_neg hx, if_neg hy, ite_self]

/-- The two writes of the row (X, Y, flag, result) of `aluRule` under the order `o`. -/
def aluWrites (o : AluFlagOrder) (i : Instr) (x y : Reg) (f r : Nat → Nat → Nat) (s : State) : State :=
  writeInOrder o x (BitVec.ofNat 8 (f (s.reg x).toNat (s.reg y).toNat))
    (BitVec.ofNat 8 (r (s.reg x).toNat (s.reg y).toNat))
    (BitVec.ofNat 8 (sequentialResult i x y f r (s.reg x).toNat (s.reg y).toNat)) s

/-! ### Flags and results as numbers (R158 to R162) -/

theorem carryFlag_toNat (a b : Byte) : (carryFlag a b).toNat = if a.toNat + b.toNat > 255 then 1 else 0 := by
  simp [carryFlag, boolByte_toNat, addWide]

theorem greaterFlag_toNat (a b : Byte) : (greaterFlag a b).toNat = if a.toNat > b.toNat then 1 else 0 := by
  simp [greaterFlag, boolByte_toNat]

theorem toNat_of_eq_ofNat {c : Byte} {n : Nat} (h : c = BitVec.ofNat 8 n) (hn : n < 256) : c.toNat = n :=
  h ▸ Nat.mod_eq_of_lt hn

theorem eq_ofNat_of_toNat {c : Byte} {n : Nat} (h : c.toNat = n) : c = BitVec.ofNat 8 n := by
  rw [← h, BitVec.ofNat_toNat, BitVec.setWidth_eq]

/-- The spelling of `aluRule`: 256 is added before the subtraction. -/
theorem subResult_toNat_eq_add_sub (a b : Byte) : (subResult a b).toNat = (a.toNat + 256 - b.toNat) % 256 := by
  have := b.isLt
  rw [subResult_toNat]
  omega

theorem shlResult_toNat_eq_two_mul (a : Byte) : (shlResult a).toNat = 2 * a.toNat % 256 := by
  rw [shlResult_toNat, Nat.mul_comm]

theorem ofNat_mod_256 (n : Nat) : BitVec.ofNat 8 (n % 256) = BitVec.ofNat 8 n :=
  BitVec.eq_of_toNat_eq (Nat.mod_mod n 256)

/-- The truncated difference, as a number and as an integer. -/
theorem ofNat_add_256_sub (a : Nat) {b : Nat} (hb : b ≤ 256) :
    BitVec.ofNat 8 ((a + 256 - b) % 256) = BitVec.ofInt 8 ((a : Int) - b) := by
  apply BitVec.eq_of_toNat_eq
  rw [BitVec.toNat_ofNat, BitVec.toNat_ofInt]
  omega

theorem ite_one_zero_le_256 (p : Prop) [Decidable p] : (if p then 1 else 0) ≤ 256 := by
  split <;> omega

/-- A number less itself, truncated, is 0. -/
theorem ofNat_add_256_sub_self {n : Nat} (hn : n ≤ 256) : BitVec.ofNat 8 ((n + 256 - n) % 256) = 0#8 :=
  (ofNat_add_256_sub n hn).trans (by rw [sub_self]; rfl)

/-- The carry of a doubled byte is its bit 7. -/
theorem carry_double (a : Byte) : (if a.toNat + a.toNat > 255 then 1 else 0) = a.toNat / 128 := by
  have := a.isLt
  split <;> omega

/-! ### The five instructions make the writes of their rules -/

/-- 8XY4 latches its sum, so SEQUENTIAL writes the same result. -/
theorem writeLatched_eq_writeInOrder (x : Reg) (f r : Byte) (s : State) :
    writeLatched x f r s = writeInOrder s.cfg.aluFlagOrder x f r r s := by
  unfold writeLatched
  cases s.cfg.aluFlagOrder <;> rfl

/-- A shift computes from V[X] alone, so any register may stand for its second operand. -/
theorem writeReread_of_left (x y : Reg) (flag result : Byte → Byte) (s : State) :
    writeReread x x (fun a _ => flag a) (fun a _ => result a) s =
      writeReread x y (fun a _ => flag a) (fun a _ => result a) s := rfl

/-- The writes of 8XY5, 8XY6, 8XY7 and 8XYE, with flag and result as numbers. -/
theorem writeReread_eq_aluWrites (i : Instr) {x y : Reg} (hi : i ≠ .addVxVy x y) {flag result : Byte → Byte → Byte}
    {f r : Nat → Nat → Nat} (hf : ∀ a b, (flag a b).toNat = f a.toNat b.toNat)
    (hr : ∀ a b, (result a b).toNat = r a.toNat b.toNat) (s : State) :
    writeReread x y flag result s = aluWrites s.cfg.aluFlagOrder i x y f r s := by
  have hreread (k : Reg) : (if k = vf then f (s.reg x).toNat (s.reg y).toNat else (s.reg k).toNat) =
      ((s.setReg vf (flag (s.reg x) (s.reg y))).reg k).toNat := by
    rw [State.reg_setReg, apply_ite BitVec.toNat, hf]
  rw [aluWrites, sequentialResult_of_ne hi, hreread x, hreread y, ← eq_ofNat_of_toNat (hf _ _),
    ← eq_ofNat_of_toNat (hr _ _), ← eq_ofNat_of_toNat (hr _ _)]
  unfold writeReread
  cases s.cfg.aluFlagOrder <;> rfl

section rule
variable {i : Instr} {x y : Reg} {f r : Nat → Nat → Nat}

/-- Every instruction with a row in `aluRule` makes the two writes of its row. -/
theorem exec_of_aluRule (h : aluRule i = some (x, y, f, r)) (s : State) :
    exec i s = complete .seq (aluWrites s.cfg.aluFlagOrder i x y f r s) := by
  cases i with
  | addVxVy =>
    cases h
    refine congrArg (complete .seq) ((writeLatched_eq_writeInOrder ..).trans ?_)
    rw [aluWrites, sequentialResult_add, eq_ofNat_of_toNat (carryFlag_toNat _ _),
      eq_ofNat_of_toNat (addResult_toNat _ _)]
  | sub x y =>
    cases h
    exact congrArg (complete .seq)
      (writeReread_eq_aluWrites (.sub x y) nofun greaterFlag_toNat subResult_toNat_eq_add_sub s)
  | shr x y =>
    cases h
    exact congrArg (complete .seq)
      ((writeReread_of_left x y lsbFlag shrResult s).trans
        (writeReread_eq_aluWrites (.shr x y) nofun (fun a _ => lsbFlag_toNat a) (fun a _ => shrResult_toNat a) s))
  | subn x y =>
    cases h
    exact congrArg (complete .seq) (writeReread_eq_aluWrites (.subn x y) nofun
      (fun a b => greaterFlag_toNat b a) (fun a b => subResult_toNat_eq_add_sub b a) s)
  | shl x y =>
    cases h
    exact congrArg (complete .seq)
      ((writeReread_of_left x y msbFlag shlResult s).trans
        (writeReread_eq_aluWrites (.shl x y) nofun (fun a _ => msbFlag_toNat a)
          (fun a _ => shlResult_toNat_eq_two_mul a) s))
  | _ => nomatch h

/-- PC + 2, and the two writes of the row as the only other changes. -/
theorem exec_aluRule_frame (h : aluRule i = some (x, y, f, r)) (s : State) : ∃ t, exec i s = .next t ∧
    (∀ k, t.reg k = (aluWrites s.cfg.aluFlagOrder i x y f r s).reg k) ∧ t.pc = s.pc + 2#16 ∧
    RegisterFrame [x, vf] s t :=
  exec_of_aluRule h s ▸ complete_seq_of_regs (writeInOrder_eq ..) (sameRegsBut_writeInOrder _)

/-- When neither operand is VF, every order gives the state of the flag write and then the result write. -/
theorem exec_aluRule_of_ne_vf (h : aluRule i = some (x, y, f, r)) (hx : x ≠ vf) (hy : y ≠ vf) (s : State) :
    exec i s = complete .seq (writeFlagThenResult x (BitVec.ofNat 8 (f (s.reg x).toNat (s.reg y).toNat))
      (BitVec.ofNat 8 (r (s.reg x).toNat (s.reg y).toNat)) s) := by
  rw [exec_of_aluRule h, aluWrites, sequentialResult_of_ne_vf i hx hy, writeInOrder_of_ne _ hx]

/-- The default order: V[X] ends as the result, and VF as the flag unless X is VF. -/
theorem exec_aluRule_resultLast (h : aluRule i = some (x, y, f, r)) {s : State}
    (ho : s.cfg.aluFlagOrder = .latchedResultLast) : ∃ t, exec i s = .next t ∧
      t.reg x = BitVec.ofNat 8 (r (s.reg x).toNat (s.reg y).toNat) ∧
      (x ≠ vf → t.reg vf = BitVec.ofNat 8 (f (s.reg x).toNat (s.reg y).toNat)) ∧
      t.pc = s.pc + 2#16 ∧ RegisterFrame [x, vf] s t := by
  obtain ⟨t, ht, hreg, hpc, hframe⟩ := exec_aluRule_frame h s
  rw [ho] at hreg
  exact ⟨t, ht, (hreg x).trans writeInOrder_resultLast_reg,
    fun hx => (hreg vf).trans (writeInOrder_vf _ hx), hpc, hframe⟩

/-- The default order, when the flag is a condition: VF ends as 1 or as 0. `q` is the spelling the failed condition has
in the rule, and `c` that of the result. -/
theorem exec_aluRule_resultLast_of_ite {p : Nat → Nat → Prop} [∀ a b, Decidable (p a b)]
    (h : aluRule i = some (x, y, fun a b => if p a b then 1 else 0, r)) {s : State}
    (ho : s.cfg.aluFlagOrder = .latchedResultLast) {c : Byte}
    (hc : BitVec.ofNat 8 (r (s.reg x).toNat (s.reg y).toNat) = c) {q : Prop}
    (hq : q → ¬ p (s.reg x).toNat (s.reg y).toNat) : ∃ t, exec i s = .next t ∧ t.reg x = c ∧
      (x ≠ vf → p (s.reg x).toNat (s.reg y).toNat → t.reg vf = 1#8) ∧ (x ≠ vf → q → t.reg vf = 0#8) ∧
      t.pc = s.pc + 2#16 ∧ RegisterFrame [x, vf] s t := by
  obtain ⟨t, ht, hx, hvf, hpc, hframe⟩ := exec_aluRule_resultLast h ho
  exact ⟨t, ht, hx.trans hc, fun hne hp => (hvf hne).trans (congrArg _ (if_pos hp)),
    fun hne hn => (hvf hne).trans (congrArg _ (if_neg (hq hn))), hpc, hframe⟩

/-! ### What each order leaves in X and in VF (R164) -/

theorem leavesIn_of_aluWrites (h : aluRule i = some (x, y, f, r)) {o : AluFlagOrder} {s : State} {k : Reg} {c : Byte}
    (hk : (aluWrites o i x y f r s).reg k = c) : LeavesIn o i s k c := by
  rintro rfl
  obtain ⟨t, ht, hreg, -, -⟩ := exec_aluRule_frame h s
  exact ⟨t, ht, (hreg k).trans hk⟩

theorem leavesIn_resultLast (h : aluRule i = some (x, y, f, r)) {s : State} {c : Byte}
    (hc : BitVec.ofNat 8 (r (s.reg x).toNat (s.reg y).toNat) = c) : LeavesIn .latchedResultLast i s x c :=
  leavesIn_of_aluWrites h (writeInOrder_resultLast_reg.trans hc)

theorem leavesIn_flagLast_vf (h : aluRule i = some (x, y, f, r)) {s : State} {c : Byte}
    (hc : BitVec.ofNat 8 (f (s.reg x).toNat (s.reg y).toNat) = c) : LeavesIn .latchedFlagLast i s vf c :=
  leavesIn_of_aluWrites h (writeInOrder_flagLast_vf.trans hc)

theorem leavesIn_flagLast (h : aluRule i = some (x, y, f, r)) (hx : x ≠ vf) {s : State} {c : Byte}
    (hc : BitVec.ofNat 8 (r (s.reg x).toNat (s.reg y).toNat) = c) : LeavesIn .latchedFlagLast i s x c :=
  leavesIn_of_aluWrites h ((writeInOrder_flagLast_reg hx).trans hc)

theorem leavesIn_sequential (h : aluRule i = some (x, y, f, r)) {s : State} {c : Byte}
    (hc : BitVec.ofNat 8 (sequentialResult i x y f r (s.reg x).toNat (s.reg y).toNat) = c) :
    LeavesIn .sequential i s x c :=
  leavesIn_of_aluWrites h (writeInOrder_sequential_reg.trans hc)

/-- When X is not VF, VF ends as the flag under every order. -/
theorem leavesIn_vf (h : aluRule i = some (x, y, f, r)) (hx : x ≠ vf) {s : State} {c : Byte}
    (hc : BitVec.ofNat 8 (f (s.reg x).toNat (s.reg y).toNat) = c) (o : AluFlagOrder) : LeavesIn o i s vf c :=
  leavesIn_of_aluWrites h ((writeInOrder_vf o hx).trans hc)

/-- SEQUENTIAL with X = F: the result is computed on the flag and V[Y]. -/
theorem leavesIn_sequential_left (h : aluRule i = some (vf, y, f, r)) (hi : i ≠ .addVxVy vf y) (hy : y ≠ vf)
    {s : State} {c : Byte} (hc : BitVec.ofNat 8 (r (f (s.reg vf).toNat (s.reg y).toNat) (s.reg y).toNat) = c) :
    LeavesIn .sequential i s vf c :=
  leavesIn_sequential h (by rw [sequentialResult_of_ne hi, if_pos rfl, if_neg hy, hc])

/-- SEQUENTIAL with Y = F: the result is computed on V[X] and the flag. -/
theorem leavesIn_sequential_right (h : aluRule i = some (x, vf, f, r)) (hi : i ≠ .addVxVy x vf) (hx : x ≠ vf)
    {s : State} {c : Byte} (hc : BitVec.ofNat 8 (r (s.reg x).toNat (f (s.reg x).toNat (s.reg vf).toNat)) = c) :
    LeavesIn .sequential i s x c :=
  leavesIn_sequential h (by rw [sequentialResult_of_ne hi, if_neg hx, if_pos rfl, hc])

/-- X = Y = F: a rule whose flag and result are 0 on equal operands leaves 0 in VF under every order. -/
theorem leavesIn_vf_vf_zero (h : aluRule i = some (vf, vf, f, r)) (hi : i ≠ .addVxVy vf vf) (hf : ∀ n, f n n = 0)
    (hr : ∀ n, n ≤ 256 → BitVec.ofNat 8 (r n n) = 0#8) (o : AluFlagOrder) (s : State) : LeavesIn o i s vf 0#8 :=
  match o with
  | .latchedResultLast => leavesIn_resultLast h (hr _ (s.reg vf).isLt.le)
  | .latchedFlagLast => leavesIn_flagLast_vf h (congrArg _ (hf _))
  | .sequential => leavesIn_sequential h (by rw [sequentialResult_of_ne hi, if_pos rfl, hf, hr 0 (Nat.zero_le _)])

end rule

/-- 8XY4 leaves its latched sum in V[X], except where the flag comes after it in VF. -/
theorem leavesIn_add {o : AluFlagOrder} {x : Reg} (ho : x ≠ vf ∨ o ≠ .latchedFlagLast) (y : Reg) (s : State) :
    LeavesIn o (.addVxVy x y) s x (BitVec.ofNat 8 ((s.reg x).toNat + (s.reg y).toNat)) :=
  match o with
  | .latchedResultLast => leavesIn_resultLast rfl (ofNat_mod_256 _)
  | .latchedFlagLast => leavesIn_flagLast rfl (ho.resolve_right (not_not_intro rfl)) (ofNat_mod_256 _)
  | .sequential => leavesIn_sequential rfl ((congrArg _ (sequentialResult_add ..)).trans (ofNat_mod_256 _))

end Sys2Proof.Machine

/-! ## The obligations of 43_alu.md -/

namespace Sys2Proof.Proofs

open Sys2Proof.Machine Sys2Proof.Safety

/-- Settles O40: the writes of `exec_aluRule_frame` under each order; with neither operand VF all three are the flag
write and then the result write (`exec_aluRule_of_ne_vf`). -/
theorem flagOrdersCombineTheTwoWrites : Obligations.FlagOrdersCombineTheTwoWrites := by
  intro i x y f r s h a b
  obtain ⟨t, ht, hreg, hpc, hframe⟩ := exec_aluRule_frame h s
  refine ⟨⟨t, ht, hpc, hframe, fun ho => ?_, fun ho => ?_, fun ho => ?_⟩, fun hx hy o => ?_⟩
  · rw [ho] at hreg
    exact ⟨(hreg x).trans writeInOrder_resultLast_reg, fun hx => (hreg vf).trans (writeInOrder_vf _ hx)⟩
  · rw [ho] at hreg
    exact ⟨(hreg vf).trans writeInOrder_flagLast_vf,
      fun hx => (hreg x).trans (writeInOrder_flagLast_reg hx)⟩
  · rw [ho] at hreg
    have hseq : t.reg x = BitVec.ofNat 8 (sequentialResult i x y f r a b) :=
      (hreg x).trans writeInOrder_sequential_reg
    refine ⟨fun hx => (hreg vf).trans (writeInOrder_vf _ hx), fun hi => ?_, fun hi => ?_⟩
    · rw [hseq, hi, sequentialResult_add]
    · rw [hseq, sequentialResult_of_ne hi]
  · exact ⟨_, exec_aluRule_of_ne_vf h hx hy s, exec_aluRule_of_ne_vf h hx hy _⟩

/-- Settles O41: each entry of the table is the last write to its register under the entry's order. -/
theorem vfAliasingValues : Obligations.VfAliasingValues := by
  intro s x y hx hy F vx vy carry gt
  have hF : F ≤ 256 := (s.reg vf).isLt.le
  have hvx : vx ≤ 256 := (s.reg x).isLt.le
  have hvy : vy ≤ 256 := (s.reg y).isLt.le
  have hgt (a b : Nat) : gt a b ≤ 256 := ite_one_zero_le_256 (a > b)
  have hdouble : BitVec.ofNat 8 (2 * F) = BitVec.ofNat 8 (F + F) := by rw [two_mul]
  have hbit : F % 2 / 2 = 0 := Nat.div_eq_of_lt (Nat.mod_lt F two_pos)
  exact ⟨
    -- 8XY4, X = F
    leavesIn_add (.inr (by decide)) y s,
    leavesIn_flagLast_vf rfl rfl,
    leavesIn_add (.inr (by decide)) y s,
    -- 8XY4, X = Y = F
    hdouble ▸ leavesIn_add (.inr (by decide)) vf s,
    leavesIn_flagLast_vf rfl (congrArg _ (carry_double _)),
    hdouble ▸ leavesIn_add (.inr (by decide)) vf s,
    -- 8XY4, Y = F
    fun o => ⟨leavesIn_add (.inl hx) vf s, leavesIn_vf rfl hx rfl o⟩,
    -- 8XY5, X = F
    leavesIn_resultLast rfl (ofNat_add_256_sub _ hvy),
    leavesIn_flagLast_vf rfl rfl,
    leavesIn_sequential_left rfl (by simp) hy (ofNat_add_256_sub _ hvy),
    -- 8XY5, Y = F
    leavesIn_resultLast rfl (ofNat_add_256_sub _ hF),
    leavesIn_flagLast rfl hx (ofNat_add_256_sub _ hF),
    leavesIn_sequential_right rfl (by simp) hx (ofNat_add_256_sub _ (hgt vx F)),
    leavesIn_vf rfl hx rfl,
    -- 8XY5 and 8XY7, X = Y = F
    fun o => ⟨leavesIn_vf_vf_zero rfl (by simp) (fun _ => if_neg (lt_irrefl _)) (fun _ => ofNat_add_256_sub_self) o s,
      leavesIn_vf_vf_zero rfl (by simp) (fun _ => if_neg (lt_irrefl _)) (fun _ => ofNat_add_256_sub_self) o s⟩,
    -- 8XY6, X = F
    fun _ => ⟨leavesIn_resultLast rfl rfl, leavesIn_flagLast_vf rfl rfl,
      leavesIn_sequential rfl (by exact congrArg _ hbit)⟩,
    -- 8XY7, X = F
    leavesIn_resultLast rfl (ofNat_add_256_sub _ hF),
    leavesIn_flagLast_vf (f := fun a b => gt b a) rfl rfl,
    leavesIn_sequential_left rfl (by simp) hy (ofNat_add_256_sub _ (hgt vy F)),
    -- 8XY7, Y = F
    leavesIn_resultLast rfl (ofNat_add_256_sub _ hvx),
    leavesIn_flagLast rfl hx (ofNat_add_256_sub _ hvx),
    leavesIn_sequential_right rfl (by simp) hx (ofNat_add_256_sub _ hvx),
    leavesIn_vf (f := fun a b => gt b a) rfl hx rfl,
    -- 8XYE, X = F
    fun _ => ⟨leavesIn_resultLast rfl (ofNat_mod_256 _), leavesIn_flagLast_vf rfl rfl,
      leavesIn_sequential rfl (ofNat_mod_256 _)⟩⟩

/-- Settles O35: two writes of V[X] (`complete_setReg`); X may be VF. -/
theorem immediatesLoadAndAdd : Obligations.ImmediatesLoadAndAdd :=
  ⟨fun w => covered_iff_decodeWord w (.ldVxNn 0 0), fun w => covered_iff_decodeWord w (.addVxNn 0 0), fun s x nn =>
    ⟨complete_setReg s x nn, complete_setReg s x (addResult (s.reg x) nn)⟩⟩

/-- Settles O36: four writes of V[X] (`complete_setReg`). -/
theorem copiesAndLogicWriteVxOnly : Obligations.CopiesAndLogicWriteVxOnly :=
  ⟨fun w => covered_iff_decodeWord w (.ldVxVy 0 0), fun w => covered_iff_decodeWord w (.orVxVy 0 0),
    fun w => covered_iff_decodeWord w (.andVxVy 0 0), fun w => covered_iff_decodeWord w (.xorVxVy 0 0), fun s x _ =>
    ⟨complete_setReg s x _, complete_setReg s x _, complete_setReg s x _, complete_setReg s x _⟩⟩

/-- Settles O37: the default order, with the carry as the flag's condition (`exec_aluRule_resultLast_of_ite`). -/
theorem addSetsTheCarry : Obligations.AddSetsTheCarry :=
  ⟨fun w => covered_iff_decodeWord w (.addVxVy 0 0), fun _ x y ho =>
    exec_aluRule_resultLast_of_ite (i := .addVxVy x y) rfl ho (ofNat_mod_256 _) Nat.not_lt.2⟩

/-- Settles O38: the default order, with the strict comparison as the flag's condition
(`exec_aluRule_resultLast_of_ite`). -/
theorem subtractionsSetTheStrictGreaterFlag : Obligations.SubtractionsSetTheStrictGreaterFlag :=
  ⟨fun w => covered_iff_decodeWord w (.sub 0 0), fun w => covered_iff_decodeWord w (.subn 0 0), fun s x y ho =>
    ⟨exec_aluRule_resultLast_of_ite (i := .sub x y) rfl ho (ofNat_add_256_sub _ (s.reg y).isLt.le) Nat.not_lt.2,
      exec_aluRule_resultLast_of_ite (i := .subn x y) rfl ho (ofNat_add_256_sub _ (s.reg x).isLt.le) Nat.not_lt.2⟩⟩

/-- Settles O39: the default order (`exec_aluRule_resultLast`); neither shift reads Y, so any Y gives one outcome. -/
theorem shiftsMoveTheLostBitToVf : Obligations.ShiftsMoveTheLostBitToVf := by
  refine ⟨fun w => covered_iff_decodeWord w (.shr 0 0), fun w => covered_iff_decodeWord w (.shl 0 0),
    fun s x y ho => ⟨?_, ?_, fun z => ⟨rfl, rfl⟩⟩⟩
  · obtain ⟨t, ht, hx, hvf, hpc, hframe⟩ := exec_aluRule_resultLast (i := .shr x y) rfl ho
    have := (s.reg x).isLt
    exact ⟨t, ht, toNat_of_eq_ofNat hx (by omega), fun hne => toNat_of_eq_ofNat (hvf hne) (by omega), hpc,
      hframe⟩
  · obtain ⟨t, ht, hx, hvf, hpc, hframe⟩ := exec_aluRule_resultLast (i := .shl x y) rfl ho
    have := (s.reg x).isLt
    exact ⟨t, ht, toNat_of_eq_ofNat hx (by omega), fun hne => toNat_of_eq_ofNat (hvf hne) (by omega), hpc,
      hframe⟩

/-- Settles O42: one write of V[X] for any draw; the count of draws is the only other change. -/
theorem rndMasksAFreeDraw : Obligations.RndMasksAFreeDraw :=
  ⟨fun w => covered_iff_decodeWord w (.rnd 0 0), fun s x nn rand => s.reg_setReg_self x (rand &&& nn), fun s x _ =>
    ⟨_, rfl, s.reg_setReg_self x _, rfl, sameRegsBut_setReg s x _, rfl, ⟨rfl, fun _ => rfl⟩, ⟨rfl, rfl⟩, fun _ => rfl,
      fun _ _ => rfl, fun _ => rfl, rfl, rfl, rfl, rfl⟩⟩

end Sys2Proof.Proofs

/-! ## 44_index_memory.md: the index register, stores at I, and loads from I -/

namespace Sys2Proof.Machine

open Sys2Proof.Safety

/-! ### Writes of I (R180 to R182) -/

/-- Everything but PC, I and the general registers of `W` is kept: the frame of an instruction that writes I. -/
def IndexFrame (W : List Reg) (s t : State) : Prop :=
  SameRegsBut W s t ∧ SameStack s t ∧ SameTimers s t ∧ SameMemory s t ∧ SameDisplay s t ∧ SameKeys s t ∧
    SameControl s t

/-- A state that differs in V and I alone, with PC moved, keeps everything else. -/
theorem indexFrame_of_regs_index {W : List Reg} {s u : State} (hu : u = { s with v := u.v, i := u.i })
    (hr : SameRegsBut W s u) (a : Addr) : IndexFrame W s (u.setPc a) := by
  rw [hu] at hr ⊢
  exact ⟨hr, ⟨rfl, fun _ => rfl⟩, ⟨rfl, rfl⟩, fun _ => rfl, fun _ _ => rfl, fun _ => rfl, rfl, rfl, rfl, rfl⟩

/-- An instruction that writes an address, known as a number, to I and writes nothing else but PC. -/
theorem complete_setI (s : State) {a : Addr} {n : Nat} (ha : a.toNat = n) :
    ∃ t, complete .seq (s.setI a) = .next t ∧ t.i.toNat = n ∧ t.pc = s.pc + 2#16 ∧ IndexFrame [] s t :=
  ⟨_, rfl, ha, rfl, indexFrame_of_regs_index rfl (fun _ _ => rfl) _⟩

/-- Five times a byte fits an address, so FX29's product does not wrap (R182). -/
theorem glyphAddr_toNat (b : Byte) : (glyphAddr b).toNat = 5 * b.toNat := by
  have hb := b.isLt
  rw [glyphAddr, BitVec.toNat_ofNat]
  omega

/-- The sum of ADD I, Vx is truncated to 16 bits (R181). -/
theorem add_addrOfByte_toNat (a : Addr) (b : Byte) : (a + addrOfByte b).toNat = (a.toNat + b.toNat) % 65536 := by
  rw [BitVec.toNat_add, addrOfByte_toNat]

theorem addToI_i (x : Reg) (s : State) : (addToI x s).i = s.i + addrOfByte (s.reg x) := by
  obtain ⟨-, h⟩ | ⟨-, h⟩ := addToI_cases x s <;> rw [h] <;> rfl

/-- ADD I, Vx writes V and I alone. -/
theorem addToI_eq (x : Reg) (s : State) : addToI x s = { s with v := (addToI x s).v, i := (addToI x s).i } := by
  obtain ⟨-, h⟩ | ⟨-, h⟩ := addToI_cases x s <;> rw [h] <;> rfl

/-- A new I above 0xFFF sets VF. -/
theorem addToI_vf_of_gt {x : Reg} {s : State} (h : (addToI x s).i.toNat > 0xFFF) : (addToI x s).reg vf = 1#8 := by
  obtain ⟨-, he⟩ | ⟨hle, -⟩ := addToI_cases x s
  · rw [he, State.reg_setReg_self]
  · exact absurd (addToI_i x s ▸ h) (Nat.not_lt.2 hle)

/-- A new I of at most 0xFFF keeps VF. -/
theorem addToI_vf_of_le {x : Reg} {s : State} (h : (addToI x s).i.toNat ≤ 0xFFF) :
    (addToI x s).reg vf = s.reg vf := by
  obtain ⟨hgt, -⟩ | ⟨-, he⟩ := addToI_cases x s
  · exact absurd (addToI_i x s ▸ h) (Nat.not_le.2 hgt)
  · rw [he, State.reg_setI]

/-! ### Stores at I (R183, R184) -/

/-- A run of bytes stored, with PC moved, keeps every byte outside the run and every other field. -/
theorem writeBytes_setPc_frame (s : State) (base : Addr) {bs : List Byte} {n : Nat} (hn : bs.length = n) (pc : Addr) :
    let t := (s.writeBytes base bs).setPc pc
    (∀ a, (∀ k, k < n → physAddr a ≠ physAddr (byteAddr base k)) → t.readByte a = s.readByte a) ∧
      t.pc = pc ∧ SameRegsBut [] s t ∧ SameIndex s t ∧ SameStack s t ∧ SameTimers s t ∧ SameDisplay s t ∧
      SameKeys s t ∧ SameControl s t := by
  refine ⟨fun a ha => State.readByte_writeBytesFrom_of_ne base a bs s 0 fun j hj => ?_, rfl, ?_⟩
  · rw [Nat.zero_add]
    exact ha j (hn ▸ hj)
  · rw [s.writeBytes_eq]
    exact ⟨fun _ _ => rfl, rfl, ⟨rfl, fun _ => rfl⟩, ⟨rfl, rfl⟩, fun _ _ => rfl, fun _ => rfl, rfl, rfl, rfl, rfl⟩

/-- After FX33's store, the digits of the byte stand at the first three addresses (R183). -/
theorem readByte_writeBytes_digits (s : State) (base : Addr) (b : Byte) :
    let t := s.writeBytes base (decimalDigits b)
    (t.readByte base).toNat = b.toNat / 100 ∧ (t.readByte (byteAddr base 1)).toNat = b.toNat / 10 % 10 ∧
      (t.readByte (byteAddr base 2)).toNat = b.toNat % 10 := by
  have hb := b.isLt
  have hread {j : Nat} (hj : j < 3) :
      (s.writeBytes base (decimalDigits b)).readByte (byteAddr base j) = (decimalDigits b)[j] :=
    s.readByte_writeBytes base (by rw [decimalDigits_length]; decide) hj
  have h0 := hread (j := 0) (by decide)
  rw [byteAddr_zero] at h0
  refine ⟨?_, ?_, ?_⟩
  · rw [h0]
    exact Nat.mod_eq_of_lt (by omega)
  · rw [hread (by decide)]
    exact Nat.mod_eq_of_lt (by omega)
  · rw [hread (by decide)]
    exact Nat.mod_eq_of_lt (by omega)

/-- After FX55's store, the k-th address holds V[k] (R184). -/
theorem readByte_writeBytes_regValues (s : State) (base : Addr) {x k : Reg} (hk : k ≤ x) :
    (s.writeBytes base (s.regValues x)).readByte (byteAddr base k.val) = s.reg k := by
  obtain ⟨hlt, hget⟩ := List.getElem?_eq_some_iff.1 (s.regValues_getElem x k hk)
  have hlen : (s.regValues x).length ≤ memSize := by
    rw [s.regValues_length, memSize]
    omega
  rw [s.readByte_writeBytes base hlen hlt, hget]

/-! ### Loads from I (R185) -/

/-- FX65 leaves the byte at I + k in V[k]. -/
theorem loadRegs_reg_of_le (s : State) {x k : Reg} (hk : k ≤ x) :
    (loadRegs s (regsUpTo x) s).reg k = s.readByte (byteAddr s.i k.val) := by
  rw [(loadRegs_eq s _ s).2, if_pos ((mem_regsUpTo x k).2 hk)]

/-- FX65 writes V0..VX alone. -/
theorem registerFrame_loadRegs (x : Reg) (s : State) (pc : Addr) :
    RegisterFrame (regsUpTo x) s ((loadRegs s (regsUpTo x) s).setPc pc) :=
  registerFrame_of_regs (loadRegs_eq s _ s).1 OnlyWrites.loadRegs.reg pc

/-- The parameters decide the check of an access. -/
theorem accessOk_congr {s u : State} (hc : u.cfg = s.cfg) {base : Addr} {n : Nat} (h : AccessOk s base n) :
    AccessOk u base n := by
  rwa [AccessOk, hc]

/-- A load from the I and the memory that a store of V0..VX left restores them, whatever the other fields hold. -/
theorem loadRegs_reg_of_stored {s u : State} (hi : u.i = s.i) (hc : u.cfg = s.cfg) {x k : Reg}
    (hm : u.mem = (s.writeBytes s.i (s.regValues x)).mem) (hk : k ≤ x) :
    (loadRegs u (regsUpTo x) u).reg k = s.reg k := by
  have hcfg : u.cfg = (s.writeBytes s.i (s.regValues x)).cfg := by rw [hc, s.writeBytes_eq]
  calc (loadRegs u (regsUpTo x) u).reg k
      = u.readByte (byteAddr s.i k.val) := by rw [loadRegs_reg_of_le u hk, hi]
    _ = (s.writeBytes s.i (s.regValues x)).readByte (byteAddr s.i k.val) := State.readByte_congr hm hcfg _
    _ = s.reg k := readByte_writeBytes_regValues s s.i hk

end Sys2Proof.Machine

/-! ## The obligations of 44_index_memory.md -/

namespace Sys2Proof.Proofs

open Sys2Proof.Machine Sys2Proof.Safety

/-- Settles O47: the registers of the range are read from memory (`loadRegs_reg_of_le`) and no others are written
(`registerFrame_loadRegs`); after a store the bytes read are the registers stored (`loadRegs_reg_of_stored`). -/
theorem registersAreLoadedFromI : Obligations.RegistersAreLoadedFromI := by
  refine ⟨fun w => covered_iff_decodeWord w (.ldVxMi 0), fun s x hok => ?_, fun s _ _ => exec_of_lowestBad s rfl,
    fun s x hok => ⟨_, exec_ldMiVx_of_ok s x hok, fun u hi hc hm => ?_⟩⟩
  · obtain ⟨hregs, hframe⟩ := registerFrame_loadRegs x s (s.pc + 2#16)
    exact ⟨_, exec_ldVxMi_of_ok s x hok, fun k hk => loadRegs_reg_of_le s hk,
      fun k hk => hregs k (mt (mem_regsUpTo x k).1 hk), rfl, hframe⟩
  · have hoku : AccessOk u u.i (x.val + 1) := hi ▸ accessOk_congr hc hok
    exact ⟨_, exec_ldVxMi_of_ok u x hoku, fun k hk => loadRegs_reg_of_stored hi hc hm hk⟩

/-- Settles O43: two writes of I (`complete_setI`), each of a number that fits. -/
theorem indexLoadsSetI : Obligations.IndexLoadsSetI :=
  ⟨fun w => covered_iff_decodeWord w (.ldINnn 0), fun w => covered_iff_decodeWord w (.ldFVx 0),
    fun s nnn => complete_setI s (addrOfNNN_toNat nnn), fun s x => complete_setI s (glyphAddr_toNat (s.reg x))⟩

/-- Settles O44: the two cases of `addToI_cases`, told apart by the new I; X may be VF, which is read before. -/
theorem addToISetsVfPastFff : Obligations.AddToISetsVfPastFff := by
  refine ⟨fun w => covered_iff_decodeWord w (.addIVx 0), fun s x => ?_⟩
  refine ⟨_, rfl, ?_, addToI_vf_of_gt, addToI_vf_of_le, ?_,
    indexFrame_of_regs_index (addToI_eq x s) OnlyWrites.addToI.reg _⟩
  · rw [State.setPc_i, addToI_i, add_addrOfByte_toNat]
  · rw [State.setPc_pc, addToI_eq, nextPc_seq]

/-- Settles O45: a store of the three digits (`readByte_writeBytes_digits`) and its frame
(`writeBytes_setPc_frame`). -/
theorem bcdStoresTheThreeDigits : Obligations.BcdStoresTheThreeDigits := by
  refine ⟨fun w => covered_iff_decodeWord w (.ldBVx 0), fun s x hok => ?_, fun s _ _ => exec_of_lowestBad s rfl⟩
  obtain ⟨hhundreds, htens, hones⟩ := readByte_writeBytes_digits s s.i (s.reg x)
  exact ⟨_, exec_ldBVx_of_ok s x hok, hhundreds, htens, hones,
    writeBytes_setPc_frame s s.i (decimalDigits_length _) _⟩

/-- Settles O46: a store of the registers' values (`readByte_writeBytes_regValues`) and its frame
(`writeBytes_setPc_frame`). -/
theorem registersAreStoredAtI : Obligations.RegistersAreStoredAtI :=
  ⟨fun w => covered_iff_decodeWord w (.ldMiVx 0), fun s x hok =>
    ⟨_, exec_ldMiVx_of_ok s x hok, fun _ hk => readByte_writeBytes_regValues s s.i hk,
      writeBytes_setPc_frame s s.i (s.regValues_length x) _⟩, fun s _ _ => exec_of_lowestBad s rfl⟩

end Sys2Proof.Proofs

/-! ## 45_input.md: the key skips and the key wait -/

namespace Sys2Proof.Machine

open Sys2Proof.Safety

/-! ### Reads after a key write and after the timer step -/

@[simp] theorem State.key_setKey_self (s : State) (k : Reg) (b : Bool) : (s.setKey k b).key k = b := by
  rw [State.key_setKey, if_pos rfl]

theorem State.key_setKey_of_ne (s : State) {k j : Reg} (b : Bool) (h : j ≠ k) : (s.setKey k b).key j = s.key j := by
  rw [State.key_setKey, if_neg h]

/-- The timer step by the numbers of 46_timers.md R213: each timer is one less, or 0. -/
theorem State.timerStep_eq_counted (s : State) :
    s.timerStep = { s with dt := counted s.dt, st := counted s.st, out := .ok (decide (s.st ≠ 0#8)) } := by
  rw [State.timerStep, countDown_eq_counted, countDown_eq_counted]

/-! ### Key skips (R201, R202) -/

section named
variable {s : State} {x k : Reg}

/-- SKP on a key index is a skip on the pressed key. -/
theorem exec_skp_of_named (h : s.reg x = byteOfReg k) :
    exec (.skp x) s = complete (.skip (decide (s.key k = true))) s := by
  simp only [exec, execSkp, (keyIndex_some_iff _ k).2 h, Bool.decide_eq_true]

/-- SKNP on a key index is a skip on the key that is not pressed. -/
theorem exec_sknp_of_named (h : s.reg x = byteOfReg k) :
    exec (.sknp x) s = complete (.skip (decide (s.key k = false))) s := by
  simp only [exec, execSknp, (keyIndex_some_iff _ k).2 h, Bool.decide_eq_false]

end named

/-! ### The key wait (R203) -/

section wait
variable {s : State} {k : Reg}

/-- The key that is found is the pressed one below which no key is pressed. -/
theorem State.firstPressed_of_least (hk : s.key k = true) (hlt : ∀ j, j < k → s.key j = false) :
    s.firstPressed = some k := by
  obtain ⟨j, hfirst, hj, hltj⟩ | ⟨-, hnone⟩ := s.firstPressed_cases
  · have hjk : ¬ j < k := fun h => Bool.false_ne_true ((hlt j h).symm.trans hj)
    have hkj : ¬ k < j := fun h => Bool.false_ne_true ((hltj k h).symm.trans hk)
    rw [hfirst, le_antisymm (not_lt.1 hkj) (not_lt.1 hjk)]
  · exact absurd ((hnone k).symm.trans hk) Bool.false_ne_true

theorem State.firstPressed_of_noKey (h : ∀ k, s.key k = false) : s.firstPressed = none := by
  obtain ⟨k, -, hk, -⟩ | ⟨hnone, -⟩ := s.firstPressed_cases
  · exact absurd ((h k).symm.trans hk) Bool.false_ne_true
  · exact hnone

/-- With a key pressed, the wait ends: V[X] takes the least one, which is cleared. -/
theorem exec_ldVxK_of_least (x : Reg) (hk : s.key k = true) (hlt : ∀ j, j < k → s.key j = false) :
    exec (.ldVxK x) s = .next (((s.setReg x (byteOfReg k)).setKey k false).setPc (s.pc + 2#16)) := by
  simp only [exec, execLdVxK, State.firstPressed_of_least hk hlt]
  rfl

/-- With no key pressed, the wait holds: PC is written with itself. -/
theorem exec_ldVxK_of_noKey (x : Reg) (h : ∀ k, s.key k = false) : exec (.ldVxK x) s = .next s := by
  simp only [exec, execLdVxK, State.firstPressed_of_noKey h]
  rfl

end wait

/-- A holding cycle is a complete one: it changes nothing but what the timer step changes (R203). -/
theorem step_ldVxK_of_noKey {s : State} {x : Reg} (h : ∀ k, s.key k = false) (hs : s.status = .running)
    (hi : AtPc s (.ldVxK x)) : step s = .next s.timerStep := by
  rw [step_of_atPc hs hi, exec_ldVxK_of_noKey x h, endCycle_running hs]

end Sys2Proof.Machine

/-! ## The obligations of 45_input.md -/

namespace Sys2Proof.Proofs

open Sys2Proof.Machine Sys2Proof.Safety

/-- Settles O48: the named key decides a skip (`complete_skip`), and an index above 0xF faults
(`exec_keySkip_of_gt`). -/
theorem keySkipsReadTheKeyVxNames : Obligations.KeySkipsReadTheKeyVxNames := by
  refine ⟨fun w => covered_iff_decodeWord w (.skp 0), fun w => covered_iff_decodeWord w (.sknp 0),
    fun s x k hk => ?_, fun s x hgt => ⟨exec_keySkip_of_gt (.inl rfl) hgt, exec_keySkip_of_gt (.inr rfl) hgt⟩⟩
  rw [exec_skp_of_named hk, exec_sknp_of_named hk]
  exact ⟨complete_skip s ne_true_of_eq_false, complete_skip s ne_false_of_eq_true⟩

/-- Settles O49: the least pressed key is taken (`exec_ldVxK_of_least`), or the cycle is the timer step alone
(`step_ldVxK_of_noKey`). -/
theorem theKeyWaitTakesTheLeastKeyOrHolds : Obligations.TheKeyWaitTakesTheLeastKeyOrHolds := by
  refine ⟨fun w => covered_iff_decodeWord w (.ldVxK 0), fun s x k hk hlt => ?_, fun s x hnone => ?_⟩
  · exact ⟨_, exec_ldVxK_of_least x hk hlt, s.reg_setReg_self x _, State.key_setKey_self _ k false,
      fun _ hj => State.key_setKey_of_ne _ false hj, rfl, sameRegsBut_setReg s x _, rfl, ⟨rfl, fun _ => rfl⟩,
      ⟨rfl, rfl⟩, fun _ => rfl, fun _ _ => rfl, rfl, rfl, rfl, rfl⟩
  · refine ⟨exec_ldVxK_of_noKey x hnone, fun hs hi => ?_⟩
    rw [step_ldVxK_of_noKey hnone hs hi, State.timerStep_eq_counted]

end Sys2Proof.Proofs

/-! ## 46_timers.md: the timer instructions, the timer step and the tone -/

namespace Sys2Proof.Machine

open Sys2Proof.Safety

/-! ### The cycle that ends without a fault (R213) -/

/-- At most one instruction stands at PC. -/
theorem atPc_unique {s : State} {i j : Instr} (hi : AtPc s i) (hj : AtPc s j) : i = j := by
  obtain ⟨w, hw, hi⟩ := hi
  obtain ⟨w', hw', hj⟩ := hj
  cases hw.symm.trans hw'
  exact Option.some.inj (hi.symm.trans hj)

/-- Only a running block answers a next state. -/
theorem running_of_step_next {s t : State} (h : step s = .next t) : s.status = .running := by
  cases hs : s.status with
  | running => rfl
  | faulted f => cases h.symm.trans (step_of_faulted hs)

/-- A cycle that ends running is the instruction at PC and then the timer step. -/
theorem exec_timerStep_of_step_next {s t : State} (h : step s = .next t) (ht : t.status = .running) :
    ∃ i u, AtPc s i ∧ exec i s = .next u ∧ t = u.timerStep := by
  obtain ⟨f, hf⟩ | ⟨i, u, hi, hu, -, he⟩ := step_running_cases (running_of_step_next h)
  · cases h.symm.trans hf
    cases ht
  · exact ⟨i, u, hi, hu, by injection h.symm.trans he⟩

/-- Each cycle of a run without a fault is the instruction at PC and then the timer step; the keys that the host
writes do not change which instruction that is. -/
theorem exec_timerStep_of_cycles {σ : Nat → State} {m j : Nat} (h : Cycles σ m) (hj : j < m) :
    ∃ ks i u, AtPc (σ j) i ∧ exec i ((σ j).writeKeys ks) = .next u ∧ σ (j + 1) = u.timerStep := by
  obtain ⟨ks, hstep, hrun⟩ := h j hj
  exact ⟨ks, exec_timerStep_of_step_next hstep hrun⟩

/-- The cycle of an instruction that raises nothing ends with the timer step. -/
theorem step_of_exec_running {s u : State} {i : Instr} (hs : s.status = .running) (hi : AtPc s i)
    (he : exec i s = .next u) (hu : u.status = .running) : step s = .next u.timerStep := by
  rw [step_of_atPc hs hi, he, endCycle_running hu]

/-! ### The timers after an instruction and after the timer step (R211 to R214) -/

section timers
variable {i : Instr} {s u : State}

/-- DT after an instruction: FX15 sets it, and no other writes it. -/
theorem exec_dt (h : exec i s = .next u) :
    (∀ x, i = .ldDtVx x → u.dt = s.reg x) ∧ ((∀ x, i ≠ .ldDtVx x) → u.dt = s.dt) := by
  obtain ⟨hdt, -⟩ := (onlyWrites_of_exec h).timers
  refine ⟨?_, fun hi => hdt.resolve_right fun ⟨x, hx⟩ => hi x hx⟩
  rintro x rfl
  cases h
  rfl

/-- ST after an instruction: FX18 sets it, and no other writes it. -/
theorem exec_st (h : exec i s = .next u) :
    (∀ x, i = .ldStVx x → u.st = s.reg x) ∧ ((∀ x, i ≠ .ldStVx x) → u.st = s.st) := by
  obtain ⟨-, hst⟩ := (onlyWrites_of_exec h).timers
  refine ⟨?_, fun hi => hst.resolve_right fun ⟨x, hx⟩ => hi x hx⟩
  rintro x rfl
  cases h
  rfl

theorem State.timerStep_dt_of_eq {b : Byte} (h : u.dt = b) : u.timerStep.dt = counted b := by
  rw [State.timerStep_dt, countDown_eq_counted, h]

/-- ST and the tone both follow from the value of ST before the timer step. -/
theorem State.timerStep_st_out_of_eq {b : Byte} (h : u.st = b) :
    u.timerStep.st = counted b ∧ u.timerStep.out = .ok (decide (b ≠ 0#8)) := by
  rw [State.timerStep_st, State.timerStep_out, countDown_eq_counted, h]
  exact ⟨rfl, rfl⟩

/-- With n left in ST, the timer step sounds when n is not 0 and leaves n - 1. -/
theorem State.timerStep_out_st_of_toNat {n : Nat} (h : u.st.toNat = n) :
    u.timerStep.out = .ok (decide (0 < n)) ∧ u.timerStep.st.toNat = n - 1 := by
  rw [State.timerStep_st, State.timerStep_out, countDown_toNat, ← h]
  exact ⟨by simp only [← BitVec.pos_iff_ne_zero, BitVec.lt_def, BitVec.toNat_zero], rfl⟩

end timers

/-- Everything but the timers and PC is kept: the frame of FX15 and FX18. -/
theorem writeTimers_frame (s : State) (dt st : Byte) (pc : Addr) :
    let t := { s with dt := dt, st := st, pc := pc }
    SameRegsBut [] s t ∧ SameIndex s t ∧ SameStack s t ∧ SameMemory s t ∧ SameDisplay s t ∧ SameKeys s t ∧
      SameControl s t :=
  ⟨fun _ _ => rfl, rfl, ⟨rfl, fun _ => rfl⟩, fun _ => rfl, fun _ _ => rfl, fun _ => rfl, rfl, rfl, rfl, rfl⟩

/-! ### A run that begins with FX18 (R212) -/

/-- In a run that sets ST to n in its first cycle and not again, cycle j + 1 finds n - j in ST: by induction, each cycle
leaves one less for the next. -/
theorem cycles_out_st {σ : Nat → State} {m : Nat} {x : Reg} (h : Cycles σ m) (h0 : AtPc (σ 0) (.ldStVx x))
    (hno : ∀ j, 0 < j → j < m → ∀ z, ¬ AtPc (σ j) (.ldStVx z)) (j : Nat) (hj : j < m) :
    (σ (j + 1)).out = .ok (decide (j < ((σ 0).reg x).toNat)) ∧
      (σ (j + 1)).st.toNat = ((σ 0).reg x).toNat - (j + 1) := by
  induction j with
  | zero =>
    obtain ⟨ks, i, u, hi, hu, ht⟩ := exec_timerStep_of_cycles h hj
    have hst : u.st = (σ 0).reg x := (exec_st hu).1 x (atPc_unique hi h0)
    rw [ht]
    exact State.timerStep_out_st_of_toNat (congrArg BitVec.toNat hst)
  | succ j ih =>
    obtain ⟨ks, i, u, hi, hu, ht⟩ := exec_timerStep_of_cycles h hj
    have hst : u.st = (σ (j + 1)).st := (exec_st hu).2 fun z hz => hno (j + 1) j.succ_pos hj z (hz ▸ hi)
    obtain ⟨-, hleft⟩ := ih (Nat.lt_of_succ_lt hj)
    rw [← hst] at hleft
    rw [ht]
    simpa only [Nat.sub_pos_iff_lt, Nat.sub_sub] using State.timerStep_out_st_of_toNat hleft

end Sys2Proof.Machine

/-! ## The obligations of 46_timers.md -/

namespace Sys2Proof.Proofs

open Sys2Proof.Machine Sys2Proof.Safety

/-- Settles O17: a cycle without a fault is the instruction's writes (`exec_dt`, `exec_st`) and then the timer step; a
faulting one writes no timer. -/
theorem timersStepOncePerCycleAndToneFollowsSt : Obligations.TimersStepOncePerCycleAndToneFollowsSt := by
  refine ⟨fun s t h ht => ?_, fun s t f h hf => ?_⟩
  · obtain ⟨i, u, hi, hu, rfl⟩ := exec_timerStep_of_step_next h ht
    obtain ⟨hdt, hdt'⟩ := exec_dt hu
    obtain ⟨hst, hst'⟩ := exec_st hu
    exact ⟨i, hi, fun x hx => State.timerStep_dt_of_eq (hdt x hx), fun hn => State.timerStep_dt_of_eq (hdt' hn),
      fun x hx => State.timerStep_st_out_of_eq (hst x hx), fun hn => State.timerStep_st_out_of_eq (hst' hn)⟩
  · rw [aFaultingCycleWritesOnlyTheFaultStatus s t f (running_of_step_next h) h hf]
    exact ⟨rfl, rfl, rfl⟩

/-- Settles O53: FX18 writes ST alone, and every cycle of the run counts it down (`cycles_out_st`). -/
theorem settingStSoundsForThatManyCycles : Obligations.SettingStSoundsForThatManyCycles :=
  ⟨fun w => covered_iff_decodeWord w (.ldStVx 0),
    fun s x => ⟨_, rfl, rfl, rfl, rfl, writeTimers_frame s s.dt (s.reg x) _⟩, fun _ _ _ => cycles_out_st⟩

/-- Settles O51: a write of V[X] (`complete_setReg`), and the timer step, which keeps V and counts DT down. -/
theorem readingDtGivesItBeforeTheTimerStep : Obligations.ReadingDtGivesItBeforeTheTimerStep := by
  refine ⟨fun w => covered_iff_decodeWord w (.ldVxDt 0), fun s x => complete_setReg s x s.dt, fun s x hs hi => ?_⟩
  exact ⟨_, step_of_exec_running hs hi rfl hs, s.reg_setReg_self x s.dt, countDown_toNat s.dt⟩

/-- Settles O52: FX15 writes DT alone, and the timer step counts down what it wrote. -/
theorem settingDtIsFollowedByTheTimerStep : Obligations.SettingDtIsFollowedByTheTimerStep :=
  ⟨fun w => covered_iff_decodeWord w (.ldDtVx 0),
    fun s x => ⟨_, rfl, rfl, rfl, rfl, writeTimers_frame s (s.reg x) s.st _⟩,
    fun s x hs hi => ⟨_, step_of_exec_running hs hi rfl hs, hs, countDown_toNat (s.reg x)⟩⟩

end Sys2Proof.Proofs

/-! ## 60_exceptions.md: which fault a cycle takes, and the invariant -/

namespace Sys2Proof.Machine

open Sys2Proof.Safety

/-! ### An instruction faults only under the condition of its row (R230) -/

/-- The instruction answers a next state: it keeps the fault status, or takes a fault whose condition the state meets
and changes nothing else. -/
def KeepsStatusOrFaultsJustified (i : Instr) (s : State) : Prop :=
  ∃ u, exec i s = .next u ∧ (u.status = s.status ∨ ∃ f, Justified s f ∧ u = s.withFault f)

namespace KeepsStatusOrFaultsJustified

variable {i : Instr} {s : State}

theorem of_complete {sel : Selector} {u : State} (he : exec i s = complete sel u) (hu : u.status = s.status) :
    KeepsStatusOrFaultsJustified i s := ⟨_, he, .inl hu⟩

theorem of_fault {f : Fault} (he : exec i s = .next (s.withFault f)) (hj : Justified s f) :
    KeepsStatusOrFaultsJustified i s := ⟨_, he, .inr ⟨f, hj, rfl⟩⟩

/-- A data access goes through, or faults at its lowest bad address. -/
theorem of_dataBytes {n : Nat} (hn : dataBytes i = some n) (hi : AtPc s i) : KeepsStatusOrFaultsJustified i s := by
  obtain hok | ⟨a, hbad⟩ := accessOk_or_lowestBad s s.i n
  · obtain ⟨u, hu, hstatus, -⟩ := exec_of_accessOk hn hok
    exact ⟨u, hu, .inl hstatus⟩
  · exact of_fault (exec_of_lowestBad s hn hbad) ⟨rfl, .inr ⟨i, n, hi, hn, hbad⟩⟩

/-- A key skip names a key, or faults at an index above 0xF. -/
theorem of_keySkip {x : Reg} (hx : i = .skp x ∨ i = .sknp x) (hi : AtPc s i) : KeepsStatusOrFaultsJustified i s := by
  cases hk : keyIndex (s.reg x) with
  | none =>
    have hgt := (keyIndex_none_iff (s.reg x)).1 hk
    have hskip : AtPc s (.skp x) ∨ AtPc s (.sknp x) := by
      obtain rfl | rfl := hx
      · exact .inl hi
      · exact .inr hi
    exact of_fault (exec_keySkip_of_gt hx hgt) ⟨rfl, hgt, x, hskip, rfl⟩
  | some k =>
    have hnamed := (keyIndex_some_iff (s.reg x) k).1 hk
    obtain rfl | rfl := hx
    · exact of_complete (exec_skp_of_named hnamed) rfl
    · exact of_complete (exec_sknp_of_named hnamed) rfl

end KeepsStatusOrFaultsJustified

open KeepsStatusOrFaultsJustified in
/-- The instruction at PC faults only under the condition of its row: a full or an empty stack, a bad address, a key
index above 0xF; every other instruction completes. -/
theorem exec_keepsStatusOrFaultsJustified {i : Instr} {s : State} (hi : AtPc s i) :
    KeepsStatusOrFaultsJustified i s := by
  cases i with
  | drw | ldBVx | ldMiVx | ldVxMi => exact of_dataBytes rfl hi
  | skp => exact of_keySkip (.inl rfl) hi
  | sknp => exact of_keySkip (.inr rfl) hi
  | ret =>
    by_cases hsp : s.sp = 0#4
    · exact of_fault (exec_ret_of_empty hsp) ⟨rfl, hsp, hi⟩
    · exact ⟨_, exec_ret_of_nonempty hsp, .inl rfl⟩
  | call nnn =>
    by_cases hsp : s.sp = 15#4
    · exact of_fault (exec_call_of_full hsp) ⟨rfl, hsp, nnn, hi⟩
    · exact ⟨_, exec_call_of_room nnn hsp, .inl rfl⟩
  | ldVxK x =>
    obtain ⟨k, -, hk, hleast⟩ | ⟨-, hnone⟩ := s.firstPressed_cases
    · exact ⟨_, exec_ldVxK_of_least x hk hleast, .inl rfl⟩
    · exact ⟨s, exec_ldVxK_of_noKey x hnone, .inl rfl⟩
  | addVxVy => exact of_complete rfl (by rw [writeLatched_eq])
  | sub | shr | subn | shl => exact of_complete rfl (by rw [writeReread_eq])
  | addIVx x => exact of_complete rfl (by rw [addToI_eq])
  | _ => exact of_complete rfl rfl

/-! ### A cycle faults only under the condition of the fault's row (R230) -/

section cycle
variable {s : State} {f g : Fault}

/-- A cycle of a running block takes a fault whose condition the state meets and changes nothing else, or runs an
instruction without a fault and then the timer step. -/
theorem step_justified_cases (hs : s.status = .running) :
    (∃ f, Justified s f ∧ step s = .next (s.withFault f)) ∨
      ∃ i u, exec i s = .next u ∧ u.status = .running ∧ step s = .next u.timerStep := by
  obtain ⟨f, hf, -⟩ | ⟨-, a, hfetch, he⟩ | ⟨-, w, hfetch, hd, he⟩ | ⟨-, w, i, hfetch, hd, he⟩ := step_cases s
  · cases hs.symm.trans hf
  · obtain ⟨-, hw⟩ | ⟨b, hbad, hb⟩ := s.fetch_cases
    · cases hfetch.symm.trans hw
    · cases hfetch.symm.trans hb
      exact .inl ⟨.memoryOutOfRange s.pc a, ⟨rfl, .inl hbad⟩, he⟩
  · exact .inl ⟨.unsupportedInstruction s.pc w, ⟨rfl, hfetch, hd⟩, he⟩
  · have hi : AtPc s i := ⟨w, hfetch, hd⟩
    obtain ⟨u, hu, hkeeps | ⟨f, hj, rfl⟩⟩ := exec_keepsStatusOrFaultsJustified hi
    · have hrun := hkeeps.trans hs
      exact .inr ⟨i, u, hu, hrun, by rw [he, hu, endCycle_running hrun]⟩
    · exact .inl ⟨f, hj, step_of_exec_fault hs hi hu⟩

/-- A running block's cycle ends with f exactly under the condition of f. -/
theorem step_faulted_iff_justified (hs : s.status = .running) :
    (∃ t, step s = .next t ∧ t.status = .faulted f) ↔ Justified s f := by
  refine ⟨fun ⟨t, ht, hf⟩ => ?_, fun hj => ⟨_, step_of_justified hs hj, rfl⟩⟩
  obtain ⟨g, hj, he⟩ | ⟨i, u, -, hrun, he⟩ := step_justified_cases hs
  · cases ht.symm.trans he
    cases hf
    exact hj
  · cases ht.symm.trans he
    cases hrun.symm.trans hf

/-- A state meets at most one condition: as a running state it would raise the fault of each. -/
theorem justified_unique (hf : Justified s f) (hg : Justified s g) : f = g := by
  have hraises {h : Fault} (hh : Justified s h) := step_of_justified rfl
    ((justified_frame s h .running s.keys s.draws).2 hh)
  injection (hraises hf).symm.trans (hraises hg) with hstate
  exact FaultStatus.faulted.inj (congrArg State.status hstate)

theorem pc_of_justified (h : Justified s f) : f.pc = s.pc := by
  cases f <;> exact h.1

end cycle

/-! ### The invariant -/

/-- An instruction leaves the memory of some run of bytes stored at I, an empty run but for FX33 and FX55. -/
theorem exec_mem {i : Instr} {s u : State} (h : exec i s = .next u) : ∃ bs, u.mem = (s.writeBytes s.i bs).mem := by
  obtain hkept | ⟨x, hx⟩ := (onlyWrites_of_exec h).mem
  · exact ⟨[], hkept⟩
  obtain ⟨n, hn⟩ : ∃ n, dataBytes i = some n := by obtain rfl | rfl := hx <;> exact ⟨_, rfl⟩
  obtain hok | ⟨a, hbad⟩ := accessOk_or_lowestBad s s.i n
  · obtain rfl | rfl := hx <;> cases hn
    · cases h.symm.trans (exec_ldBVx_of_ok s x hok)
      exact ⟨_, rfl⟩
    · cases h.symm.trans (exec_ldMiVx_of_ok s x hok)
      exact ⟨_, rfl⟩
  · cases h.symm.trans (exec_of_lowestBad s hn hbad)
    exact ⟨[], rfl⟩

/-- Every instruction keeps memory canonical. -/
theorem exec_wf {i : Instr} {s u : State} (h : exec i s = .next u) (hm : s.mem.wf s.cfg.font = true) :
    u.mem.wf u.cfg.font = true := by
  obtain ⟨bs, hbs⟩ := exec_mem h
  rw [(onlyWrites_of_exec h).cfg, hbs]
  exact s.writeBytes_wf s.i bs hm

/-- The state that a fault leaves meets the invariant: no condition of a fault reads the status or the output. -/
theorem stateInv_withFault {s : State} {f : Fault} (hm : s.mem.wf s.cfg.font = true) (hj : Justified s f) :
    StateInv (s.withFault f) := by
  refine ⟨hm, fun g hg => ?_, fun g => by simp⟩
  cases hg
  cases f <;> exact hj

/-- The timer step of a running block records the output Ok(tone), so no fault. -/
theorem stateInv_timerStep {s : State} (hm : s.mem.wf s.cfg.font = true) (hs : s.status = .running) :
    StateInv s.timerStep :=
  ⟨hm, by simp [hs], by simp [hs]⟩

end Sys2Proof.Machine

/-! ## The obligations of 60_exceptions.md -/

namespace Sys2Proof.Proofs

open Sys2Proof.Machine Sys2Proof.Safety

/-- Settles O14: a cycle takes a justified fault in the state it is in, or runs an instruction, which keeps memory
canonical (`exec_wf`), and then the timer step. -/
theorem everyStepKeepsTheInvariant : Obligations.EveryStepKeepsTheInvariant := by
  rintro s t ⟨hm, -⟩ h
  obtain ⟨f, hj, he⟩ | ⟨i, u, hu, hrun, he⟩ := step_justified_cases (running_of_step_next h)
  · cases h.symm.trans he
    exact stateInv_withFault hm hj
  · cases h.symm.trans he
    exact stateInv_timerStep (exec_wf hu hm) hrun

/-- Settles O13: `step_faulted_iff_justified`; the conditions exclude each other because a cycle has one outcome
(`justified_unique`). -/
theorem aCycleFaultsExactlyWhenItsConditionHolds : Obligations.ACycleFaultsExactlyWhenItsConditionHolds :=
  ⟨fun _ _ => step_faulted_iff_justified, fun _ _ _ => justified_unique, fun _ _ => pc_of_justified,
    fun _ _ _ _ => ⟨rfl, rfl, rfl, rfl, rfl⟩, rfl, fun _ _ hl => if_pos hl⟩

end Sys2Proof.Proofs

/-! ## 70_reset_and_hazards.md: a timer after its write, and a cycle before any load -/

namespace Sys2Proof.Machine

open Sys2Proof.Safety

/-! ### A run that begins with FX15 (R256) -/

/-- With n left in DT, the timer step leaves n - 1. -/
theorem State.timerStep_dt_of_toNat {u : State} {n : Nat} (h : u.dt.toNat = n) : u.timerStep.dt.toNat = n - 1 := by
  rw [State.timerStep_dt, countDown_toNat, h]

section run
variable {σ : Nat → State} {m : Nat}

/-- In a run that sets DT to n in its first cycle and not again, cycle j + 1 finds n - j in DT: by induction, each cycle
leaves one less for the next. -/
theorem cycles_dt {x : Reg} (h : Cycles σ m) (h0 : AtPc (σ 0) (.ldDtVx x))
    (hno : ∀ j, 0 < j → j < m → ∀ z, ¬ AtPc (σ j) (.ldDtVx z)) (j : Nat) (hj : j < m) :
    (σ (j + 1)).dt.toNat = ((σ 0).reg x).toNat - (j + 1) := by
  induction j with
  | zero =>
    obtain ⟨ks, i, u, hi, hu, ht⟩ := exec_timerStep_of_cycles h hj
    have hdt : u.dt = (σ 0).reg x := (exec_dt hu).1 x (atPc_unique hi h0)
    rw [ht, State.timerStep_dt_of_toNat (congrArg BitVec.toNat hdt)]
  | succ j ih =>
    obtain ⟨ks, i, u, hi, hu, ht⟩ := exec_timerStep_of_cycles h hj
    have hdt : u.dt = (σ (j + 1)).dt := (exec_dt hu).2 fun z hz => hno (j + 1) j.succ_pos hj z (hz ▸ hi)
    have hleft : u.dt.toNat = ((σ 0).reg x).toNat - (j + 1) := by rw [hdt, ih (Nat.lt_of_succ_lt hj)]
    rw [ht, State.timerStep_dt_of_toNat hleft, Nat.sub_sub]

/-- A cycle of FX07 in a run reads the DT that the cycle before it left. -/
theorem reg_of_cycles_ldVxDt {j : Nat} {z : Reg} (h : Cycles σ m) (hj : j < m) (hz : AtPc (σ j) (.ldVxDt z)) :
    (σ (j + 1)).reg z = (σ j).dt := by
  obtain ⟨ks, i, u, hi, hu, ht⟩ := exec_timerStep_of_cycles h hj
  cases atPc_unique hi hz
  cases hu
  rw [ht]
  exact State.reg_setReg_self _ z (σ j).dt

end run

/-! ### The fetch right after creation (R254) -/

/-- A created instance fetches its first word from the first two bytes of the font: no cell is listed, so memory reads
as the font there, and 0x000 and 0x001 pass the checks of either policy. -/
theorem fetch_createdWith (cfg : Config) :
    (State.createdWith cfg).fetch = .word (wordOfBytes cfg.font[0] cfg.font[1]) :=
  State.fetch_of_accessOk (.inr (by decide : ∀ k, k < 2 → (0#16 + BitVec.ofNat 16 k).toNat ≤ 0xFFF))

end Sys2Proof.Machine

/-! ## The obligations of 70_reset_and_hazards.md -/

namespace Sys2Proof.Proofs

open Sys2Proof.Machine Sys2Proof.Safety

/-- Settles O54: every cycle of the run counts DT down (`cycles_dt`), and FX07 reads what the cycle before left
(`reg_of_cycles_ldVxDt`); FX18 writes ST alone, which its own timer step counts down. -/
theorem aTimerCountsDownFromItsWrite : Obligations.ATimerCountsDownFromItsWrite := by
  refine ⟨fun σ m x h h0 hno j hj => ⟨cycles_dt h h0 hno j hj, fun z hpos hz => ?_⟩, fun s x hs hi => ?_⟩
  · obtain ⟨k, rfl⟩ := Nat.exists_eq_add_one_of_ne_zero hpos.ne'
    rw [reg_of_cycles_ldVxDt h hj hz, cycles_dt h h0 hno k (Nat.lt_of_succ_lt hj)]
  · exact ⟨_, step_of_exec_running hs hi rfl hs, hs, countDown_toNat (s.reg x)⟩

/-- Settles O58: the fetched word is the font's first two bytes (`fetch_createdWith`), and 0xF090 is in no row. -/
theorem aCycleBeforeAnyLoadFaults : Obligations.ACycleBeforeAnyLoadFaults := by
  intro cfg h0 h1
  have hfetch : (State.createdWith cfg).fetch = .word 0xF090#16 := by rw [fetch_createdWith, h0, h1]; rfl
  exact step_of_unsupported rfl hfetch (by decide)

end Sys2Proof.Proofs
